-- ==== Sys2Proof/Word.lean ====
section
/-! DEFINITION. The word types of the LZ2BPP decoder core (spec/00_scope.md R10, spec/10_state.md R20). -/

namespace Sys2Proof

/-- A byte: 8 bits, bit 7 most significant (R10). One element of IN_MEM or OBUF (R50, R51). -/
abbrev Byte := BitVec 8

/-- A hue: "a 2-bit pixel color index (0–3)" (R13). One element of HBUF (R52). -/
abbrev Hue := BitVec 2

/-- A register: "All registers are 32 bits wide" (R20). -/
abbrev Word := BitVec 32

end Sys2Proof
end

