-- ==== Sys2Proof/Syntax.lean ====
section
/-! DEFINITION. The LZ command set as data: one constructor of `Instr` for each row of
spec/opcode_table.json. "A command is a command byte, then an optional long-length byte, then its
operand bytes" (spec/30_encoding.md). -/

namespace Sys2Proof

/-- The displacement operand of Repeat, Flip and Reverse: two forms (R76). -/
inductive Disp where
  /-- Relative, one byte `1DDDDDDD`: the source offset is `OP - D - 1`. -/
  | rel (d : BitVec 7)
  /-- Absolute, two bytes `0AAAAAAA AAAAAAAA`: the source offset is A, 0 to 0x7FFF. -/
  | abs (a : BitVec 15)
deriving DecidableEq, Repr

/-- A command with its operands (R70, R75). `len` is the encoded length field, which is the length minus
1: LEN5 in the short form (R71), LENHI and LENLO together in the long form (R72). -/
inductive Instr where
  /-- LIT, short Literal (R130): `data` is its `len + 1` data bytes in stream order. -/
  | lit (len : BitVec 5) (data : List Byte)
  /-- ITER, short Iterate (R131), with its fill byte. -/
  | iter (len : BitVec 5) (v : Byte)
  /-- ALT, short Alternate (R132), with its two fill bytes in stream order. -/
  | alt (len : BitVec 5) (b0 b1 : Byte)
  /-- BLANK, short Blank (R133). -/
  | blank (len : BitVec 5)
  /-- REPEAT, short Repeat (R153). -/
  | rpt (len : BitVec 5) (disp : Disp)
  /-- FLIP, short Flip (R154). -/
  | flip (len : BitVec 5) (disp : Disp)
  /-- REV, short Reverse (R155). -/
  | rev (len : BitVec 5) (disp : Disp)
  /-- LIT.L, long Literal (R130). -/
  | litL (len : BitVec 10) (data : List Byte)
  /-- ITER.L, long Iterate (R131). -/
  | iterL (len : BitVec 10) (v : Byte)
  /-- ALT.L, long Alternate (R132). -/
  | altL (len : BitVec 10) (b0 b1 : Byte)
  /-- BLANK.L, long Blank (R133). -/
  | blankL (len : BitVec 10)
  /-- REPEAT.L, long Repeat (R153). -/
  | rptL (len : BitVec 10) (disp : Disp)
  /-- FLIP.L, long Flip (R154). -/
  | flipL (len : BitVec 10) (disp : Disp)
  /-- REV.L, long Reverse (R155). -/
  | revL (len : BitVec 10) (disp : Disp)
  /-- END, the sentinel 0xFF in command position (R104). -/
  | endStream
  /-- ILLEGAL, command byte 0xFC: a nested Long (R105). -/
  | illegalFC
  /-- ILLEGAL, command byte 0xFD: a nested Long (R105). -/
  | illegalFD
  /-- ILLEGAL, command byte 0xFE: a nested Long (R105). -/
  | illegalFE
deriving DecidableEq, Repr

/-- The name spec/opcode_table.json gives the command's row. -/
def Instr.mnemonic : Instr → String
  | .lit _ _ => "LIT"
  | .iter _ _ => "ITER"
  | .alt _ _ _ => "ALT"
  | .blank _ => "BLANK"
  | .rpt _ _ => "REPEAT"
  | .flip _ _ => "FLIP"
  | .rev _ _ => "REV"
  | .litL _ _ => "LIT.L"
  | .iterL _ _ => "ITER.L"
  | .altL _ _ _ => "ALT.L"
  | .blankL _ => "BLANK.L"
  | .rptL _ _ => "REPEAT.L"
  | .flipL _ _ => "FLIP.L"
  | .revL _ _ => "REV.L"
  | .endStream => "END"
  | .illegalFC => "ILLEGAL"
  | .illegalFD => "ILLEGAL"
  | .illegalFE => "ILLEGAL"

end Sys2Proof
end

