-- ==== Sys2Proof/WellFormed.lean ====
section
/-! DEFINITION. Which terms of `Instr` are commands: a Literal carries exactly the `n` data bytes its length
field announces (R75, R73, R74). Every other operand is right by its width. -/

namespace Sys2Proof

/-- The command is one the encoding can express (R75). -/
def Instr.wellFormed : Instr → Bool
  | .lit len data => data.length == len.toNat + 1
  | .litL len data => data.length == len.toNat + 1
  | .iter _ _ => true
  | .alt _ _ _ => true
  | .blank _ => true
  | .rpt _ _ => true
  | .flip _ _ => true
  | .rev _ _ => true
  | .iterL _ _ => true
  | .altL _ _ _ => true
  | .blankL _ => true
  | .rptL _ _ => true
  | .flipL _ _ => true
  | .revL _ _ => true
  | .endStream => true
  | .illegalFC => true
  | .illegalFD => true
  | .illegalFE => true

end Sys2Proof
end

