-- ==== Sys2Proof/Decode.lean ====
section
/-! DEFINITION. Decoding, total on any bytes, and the encoder, both written from spec/30_encoding.md (R70 to
R82). The decoder reads a command from the front of the bytes that are left of the stream. It refuses
nothing but a stream that ends too early, and says which byte is missing, because the checks between
the bytes come in a fixed order (R108). -/

namespace Sys2Proof

/-- What the front of a stream decodes to. -/
inductive Decoded where
  /-- The command, and the bytes after it. -/
  | ok (i : Instr) (rest : List Byte)
  /-- The stream ends where a command byte is expected (R108, check 1). -/
  | noCommandByte
  /-- The stream ends where the long-length byte is expected (R108, check 4). -/
  | noLengthByte
  /-- The stream ends inside the operands (R108, check 6) of a command whose header is `header` bytes
  long and whose length is `n`. `emitted` is how many bytes the command had already put out: the
  Literal fetches and emits its data bytes one by one (R130); every other command fetches all its
  operands before its first Emit. -/
  | noOperandByte (header n emitted : Nat)
deriving DecidableEq, Repr

/-! ### Lengths -/

/-- Short-form length: `n = LEN5 + 1`, 1 to 32 (R73). -/
def shortLen (len : BitVec 5) : Nat := len.toNat + 1

/-- Long-form length: `n = LENHI * 256 + LENLO + 1`, 1 to 1024 (R74). `len` is the ten bits together. -/
def longLen (len : BitVec 10) : Nat := len.toNat + 1

/-! ### Fields of the command byte -/

/-- CODE, bits [7:5] (R71). -/
def codeField (b : Byte) : BitVec 3 := b.extractLsb' 5 3

/-- LEN5, bits [4:0] (R71). -/
def lenField (b : Byte) : BitVec 5 := b.extractLsb' 0 5

/-- LCODE, bits [4:2] (R72). -/
def longCodeField (b : Byte) : BitVec 3 := b.extractLsb' 2 3

/-- LENHI, bits [1:0] (R72). -/
def lenHiField (b : Byte) : BitVec 2 := b.extractLsb' 0 2

/-! ### Operands -/

/-- The `n` data bytes of a Literal (R75), or none if the stream is too short. -/
def takeData : Nat → List Byte → Option (List Byte × List Byte)
  | 0, bs => some ([], bs)
  | _ + 1, [] => none
  | n + 1, b :: bs => (takeData n bs).map fun (data, rest) => (b :: data, rest)

/-- Literal: n data bytes (R75). -/
def literalOperands (header n : Nat) (mk : List Byte → Instr) (bs : List Byte) : Decoded :=
  match takeData n bs with
  | some (data, rest) => .ok (mk data) rest
  | none => .noOperandByte header n bs.length

/-- Iterate: one fill byte (R75). -/
def oneOperand (header n : Nat) (mk : Byte → Instr) : List Byte → Decoded
  | v :: rest => .ok (mk v) rest
  | [] => .noOperandByte header n 0

/-- Alternate: two fill bytes, "always both, even when n = 1" (R75). -/
def twoOperands (header n : Nat) (mk : Byte → Byte → Instr) : List Byte → Decoded
  | b0 :: b1 :: rest => .ok (mk b0 b1) rest
  | _ => .noOperandByte header n 0

/-- Repeat, Flip, Reverse: the displacement, one byte if its bit 7 is 1 and two if it is 0 (R75, R76). -/
def dispOperand (header n : Nat) (mk : Disp → Instr) : List Byte → Decoded
  | [] => .noOperandByte header n 0
  | d :: bs =>
    if d.getLsbD 7 then .ok (mk (.rel (d.extractLsb' 0 7))) bs
    else
      match bs with
      | e :: rest => .ok (mk (.abs (d.extractLsb' 0 7 ++ e))) rest
      | [] => .noOperandByte header n 0

/-- The operands of the short-form command with code `code` and length field `len` (R71, R75). Code 7 is
the Long escape and never comes here. -/
def decodeShort (code : BitVec 3) (len : BitVec 5) (bs : List Byte) : Decoded :=
  match code.toNat with
  | 0 => literalOperands 1 (shortLen len) (.lit len) bs
  | 1 => oneOperand 1 (shortLen len) (.iter len) bs
  | 2 => twoOperands 1 (shortLen len) (.alt len) bs
  | 3 => .ok (.blank len) bs
  | 4 => dispOperand 1 (shortLen len) (.rpt len) bs
  | 5 => dispOperand 1 (shortLen len) (.flip len) bs
  | _ => dispOperand 1 (shortLen len) (.rev len) bs

/-- The operands of the long-form command with code `code` and ten-bit length field `len` (R72, R75). Code
7 is the nested Long and never comes here. -/
def decodeLong (code : BitVec 3) (len : BitVec 10) (bs : List Byte) : Decoded :=
  match code.toNat with
  | 0 => literalOperands 2 (longLen len) (.litL len) bs
  | 1 => oneOperand 2 (longLen len) (.iterL len) bs
  | 2 => twoOperands 2 (longLen len) (.altL len) bs
  | 3 => .ok (.blankL len) bs
  | 4 => dispOperand 2 (longLen len) (.rptL len) bs
  | 5 => dispOperand 2 (longLen len) (.flipL len) bs
  | _ => dispOperand 2 (longLen len) (.revL len) bs

/-- The nested Long with low bits `hh`: 0xFC, 0xFD or 0xFE (R80). 0xFF is END and never comes here. -/
def nestedLong (hh : BitVec 2) : Instr :=
  match hh.toNat with
  | 0 => .illegalFC
  | 1 => .illegalFD
  | _ => .illegalFE

/-- Decode the command at the front of the stream (R78, R81): END is tested on the command byte before
its CODE field (R102), the nested Long from the command byte alone (R105). -/
def decode : List Byte → Decoded
  | [] => .noCommandByte
  | b :: bs =>
    if b = 0xFF#8 then .ok .endStream bs
    else if codeField b = 7#3 then
      if longCodeField b = 7#3 then .ok (nestedLong (lenHiField b)) bs
      else
        match bs with
        | [] => .noLengthByte
        | l :: rest => decodeLong (longCodeField b) (lenHiField b ++ l) rest
    else decodeShort (codeField b) (lenField b) bs

/-! ### The encoder, from the same tables -/

/-- The short command byte `CCCLLLLL` (R71). -/
def shortByte (code : BitVec 3) (len : BitVec 5) : Byte := code ++ len

/-- The long command's two bytes `111CCCHH LLLLLLLL` (R72). -/
def longBytes (code : BitVec 3) (len : BitVec 10) : List Byte :=
  [(7#3 ++ code ++ len.extractLsb' 8 2 : BitVec 8), len.extractLsb' 0 8]

/-- The displacement bytes (R76). -/
def dispBytes : Disp → List Byte
  | .rel d => [(1#1 ++ d : BitVec 8)]
  | .abs a => [(0#1 ++ a.extractLsb' 8 7 : BitVec 8), a.extractLsb' 0 8]

/-- The bytes of a command, in stream order (R70). -/
def encode : Instr → List Byte
  | .lit len data => shortByte 0#3 len :: data
  | .iter len v => [shortByte 1#3 len, v]
  | .alt len b0 b1 => [shortByte 2#3 len, b0, b1]
  | .blank len => [shortByte 3#3 len]
  | .rpt len disp => shortByte 4#3 len :: dispBytes disp
  | .flip len disp => shortByte 5#3 len :: dispBytes disp
  | .rev len disp => shortByte 6#3 len :: dispBytes disp
  | .litL len data => longBytes 0#3 len ++ data
  | .iterL len v => longBytes 1#3 len ++ [v]
  | .altL len b0 b1 => longBytes 2#3 len ++ [b0, b1]
  | .blankL len => longBytes 3#3 len
  | .rptL len disp => longBytes 4#3 len ++ dispBytes disp
  | .flipL len disp => longBytes 5#3 len ++ dispBytes disp
  | .revL len disp => longBytes 6#3 len ++ dispBytes disp
  | .endStream => [0xFF#8]
  | .illegalFC => [0xFC#8]
  | .illegalFD => [0xFD#8]
  | .illegalFE => [0xFE#8]

/-! ### The table's numbering of bits -/

/-- The longest command is 1026 bytes (R70). -/
def maxCommandBytes : Nat := 1026

/-- The bytes, in stream order, of the command whose table word is `w`: the `nbits` bits the table gives
it, bit 0 the least significant bit of the first byte, and zeros up to the longest command. -/
def tableBytes (nbits w : Nat) : List Byte :=
  (List.range (nbits / 8)).map (fun k => BitVec.ofNat 8 (w >>> (8 * k)))
    ++ List.replicate (maxCommandBytes - nbits / 8) 0#8

/-- What the decoder reads from the table word `w` of `nbits` bits. -/
def decodeTableWord (nbits w : Nat) : Option Instr :=
  match decode (tableBytes nbits w) with
  | .ok i _ => some i
  | .noCommandByte => none
  | .noLengthByte => none
  | .noOperandByte _ _ _ => none

end Sys2Proof
end

