-- ==== Sys2Proof/Config.lean ====
section
/-! DEFINITION. What is fixed when the core is built (R7, R8, R9, R233), and the free value: the model's
one source of the values the spec calls "any value". -/

namespace Sys2Proof

/-- REG_MAP: "bus offsets of the registers and the memory windows, and the bus width" (R9, R53). Any value is
admitted, and "no rule depends on it". That it is this record of numbers is a DESIGN CHOICE (safe), log
entry 18. -/
structure RegMap where
  /-- The bus width in bits. -/
  busWidth : Nat
  /-- The offset of CTRL. -/
  ctrl : Nat
  /-- The offset of STATUS. -/
  status : Nat
  /-- The offset of IN_LEN. -/
  inLen : Nat
  /-- The offset of OUT_LEN. -/
  outLen : Nat
  /-- The offset of TILE_COUNT. -/
  tileCount : Nat
  /-- The offset of the window to IN_MEM. -/
  inMem : Nat
  /-- The offset of the window to OBUF. -/
  obuf : Nat
  /-- The offset of the window to HBUF. -/
  hbuf : Nat
deriving DecidableEq, Repr

/-- Where a packing puts one bit of a hue. -/
structure BitPlace where
  /-- The bus word, counted from the first of the group. -/
  word : Nat
  /-- The bit of that word. -/
  bit : Nat
deriving DecidableEq, Repr

/-- Where a packing puts one hue: each of its two bits has a bus word of its own, so the bits may stand in one
word, in two planes, or on a bus one bit wide. -/
structure HuePlace where
  /-- The place of the hue's bit 0. -/
  bit0 : BitPlace
  /-- The place of the hue's bit 1. -/
  bit1 : BitPlace
deriving DecidableEq, Repr

/-- HBUF_PACKING: "how the host reads hues out of HBUF in bus words" (R9, R52). Groups of `groupWords` bus words
carry `places.length` hues each, at the places listed. With one group for all of HBUF, any bit of any hue
stands at any bit of any word, so every packing is a value: "any; the model reads HBUF by hue index".
DESIGN CHOICE (safe), log entry 18. -/
structure HbufPacking where
  /-- The bus words of one group. -/
  groupWords : Nat
  /-- The places of the hues of one group, by hue index. -/
  places : List HuePlace
deriving DecidableEq, Repr

/-- The place `words` bus words further on. -/
def BitPlace.shift (words : Nat) (q : BitPlace) : BitPlace := { q with word := words + q.word }

/-- Where the packing puts the hue of index `a`, words counted from the start of the window to HBUF; none if a
group carries no hue. -/
def HbufPacking.place (p : HbufPacking) (a : Nat) : Option HuePlace :=
  let first := a / p.places.length * p.groupWords
  (p.places[a % p.places.length]?).map fun q => { bit0 := q.bit0.shift first, bit1 := q.bit1.shift first }

/-- The parameters "the model takes as arguments" (R7, R9). They stand in `State.cfg` as plain data, so
that every statement over states is a statement over every choice of them; no step changes them (R233). -/
structure Config where
  /-- CAPACITY_TILES, "an integer of at least 1" (R7). -/
  capacityTiles : Nat
  /-- IN_CAP_BYTES, the size of IN_MEM in bytes, "`>= 1, < 2^32`" (R9). -/
  inCapBytes : Nat
  /-- REG_MAP (R9). -/
  regMap : RegMap
  /-- HBUF_PACKING (R9). -/
  hbufPacking : HbufPacking
deriving DecidableEq, Repr

/-- CAP_BYTES = 16 * CAPACITY_TILES (R8): the size of OBUF (R51). -/
def Config.capBytes (c : Config) : Nat := 16 * c.capacityTiles

/-- 64 * CAPACITY_TILES: the number of elements of HBUF (R52). -/
def Config.hueCount (c : Config) : Nat := 64 * c.capacityTiles

/-- The constraints on the parameters (R7, R9); REG_MAP and HBUF_PACKING have none ("any"). That CAP_BYTES fits in 32 bits is DEDUCED: OP and OUT_LEN
are 32 bits wide (R20) and take the value CAP_BYTES (R30, R27). Log entry 3. -/
abbrev Config.wf (c : Config) : Prop :=
  1 ≤ c.capacityTiles ∧ c.capBytes < 2 ^ 32 ∧ 1 ≤ c.inCapBytes ∧ c.inCapBytes < 2 ^ 32

/-- The parameters `State.reset` is given. DESIGN CHOICE (unsafe where a claim rests on it), log entry 2:
the spec gives no value, and no statement of this package rests on this one. The bus is 32 bits wide,
with sixteen hues in a word, the first lowest. -/
def Config.chosen : Config where
  capacityTiles := 2048
  inCapBytes := 65536
  regMap :=
    { busWidth := 32
      ctrl := 0x00, status := 0x04, inLen := 0x08, outLen := 0x0C, tileCount := 0x10
      inMem := 0x10000, obuf := 0x20000, hbuf := 0x30000 }
  hbufPacking :=
    { groupWords := 1
      places := (List.range 16).map fun k =>
        { bit0 := { word := 0, bit := 2 * k }, bit1 := { word := 0, bit := 2 * k + 1 } } }

/-- THE FREE VALUE. What draw number `draw` gives, at index `index`, as a value of `width` bits. It has no
body, so nothing can be proved about what it is, and a statement holds whatever it is. The counter
`State.free` gives every "any value" of the spec a draw number of its own. Log entry 4. -/
opaque Config.freeValue (width draw index : Nat) : BitVec width

end Sys2Proof
end

