-- ==== Sys2Proof/Machine/State.lean ====
section
/-! DEFINITION. The state of the core as plain data: every piece spec/10_state.md R20 lists, the build
parameters, and three fields that are the model's own (`free`, `agenda`, `hostData`). -/

namespace Sys2Proof.Machine

/-- STATUS.OUTCOME (R200). -/
inductive JobOutcome where
  /-- Code 0: the job decoded successfully. -/
  | ok
  /-- Code 1: "nothing decoded yet / unrecognized input". -/
  | null
  /-- Code 2. The core never produces it (R203). -/
  | badFile
  /-- Code 3: IN_LEN is not a multiple of 16 in RAW mode. -/
  | badDimensions
  /-- Code 4: the output would exceed the capacity. -/
  | tooLarge
  /-- Code 5. The core never produces it (R203). -/
  | notGrayscale
  /-- Code 6: "unrecognized compression opcode". -/
  | badCommand
  /-- Code 7, FAULT: the source gives no behaviour. -/
  | fault
deriving DecidableEq, Repr

/-- STATUS.FAULT_REASON (R201). -/
inductive FaultReason where
  /-- Code 0: no fault. -/
  | none
  /-- Code 1, UNDERRUN: a Fetch at `IP >= IN_LEN`. -/
  | underrun
  /-- Code 2, BADREF: a back-reference outside the bytes the job has written. -/
  | badRef
  /-- Code 3, INLEN: a START with `IN_LEN > IN_CAP_BYTES`. -/
  | inLen
deriving DecidableEq, Repr

/-- PHASE (R31). -/
inductive Phase where
  /-- No job runs. -/
  | idle
  /-- The LZ engine steps, one command per step. -/
  | lz
  /-- The plane decoder steps, one tile per step. -/
  | plane
deriving DecidableEq, Repr

/-- PSRC, the byte source of the plane stage (R32). -/
inductive PlaneSource where
  /-- IN_MEM: the raw entry. -/
  | inMem
  /-- OBUF: the compressed entry. -/
  | obuf
deriving DecidableEq, Repr

/-- A memory space of elements of `w` bits, indexed from 0 (R50 to R52). `cells` lists, by strictly rising
index, the elements written since the contents last became "any value"; every other element reads as
the free value of draw `epoch` at its index, on which nothing is known (R39, R181, R207, R208).
Log entry 4. -/
structure Memory (w : Nat) where
  /-- The draw number of the elements `cells` does not list. -/
  epoch : Nat
  /-- The elements written, by strictly rising index (for `w = 8`, a list of `Host.Cell`). -/
  cells : List (Nat × BitVec w)
deriving DecidableEq, Repr

/-- The canonical form: indices strictly rising. An element not listed reads as the free value, which no
written value is known to equal, so no entry has to be removed. -/
abbrev Memory.wf {w : Nat} (m : Memory w) : Prop := (m.cells.map Prod.fst).Pairwise (· < ·)

/-- The registers the host can name (R20, R53). -/
inductive HostReg where
  /-- CTRL, read/write (R24). -/
  | ctrl
  /-- STATUS, read only (R23). -/
  | status
  /-- IN_LEN, read/write (R26). -/
  | inLen
  /-- OUT_LEN, read only (R27). -/
  | outLen
  /-- TILE_COUNT, read only (R28). -/
  | tileCount
deriving DecidableEq, Repr

/-- One access of the host, or the reset event (R230). Registers are addressed by name and memories by
index ("addressed by name in this spec", R53; "the model reads HBUF by hue index", R9): the parameters
REG_MAP and HBUF_PACKING say where the bus has them, and no rule depends on that. -/
inductive HostMove where
  /-- Assert reset: "can occur at any time" (R230, R231). -/
  | reset
  /-- Write a register. -/
  | writeReg (r : HostReg) (v : Word)
  /-- Write one byte of IN_MEM (R50). -/
  | writeInMem (a : Nat) (v : Byte)
  /-- Read a register. -/
  | readReg (r : HostReg)
  /-- Read one byte of IN_MEM (R20). -/
  | readInMem (a : Nat)
  /-- Read one byte of OBUF (R51). -/
  | readObuf (a : Nat)
  /-- Read one hue of HBUF (R52). -/
  | readHbuf (a : Nat)
deriving DecidableEq, Repr

/-- Whose turn it is: there are two agents, the host and the engine (R60). -/
inductive Turn where
  /-- The engine takes its step. -/
  | engine
  /-- The host makes a move. -/
  | host (m : HostMove)
deriving DecidableEq, Repr

/-- The core (R20), with the model's own fields last. -/
structure State where
  /-- CAPACITY_TILES, IN_CAP_BYTES (fixed when the core is built, R233), REG_MAP and HBUF_PACKING (R9). -/
  cfg : Config
  /-- CTRL.MODE (R24). CTRL's other bits read 0, START included, so nothing else of CTRL is held. -/
  mode : BitVec 2
  /-- STATUS.OUTCOME (R23, R200). STATUS.BUSY is not held: it reads `PHASE != IDLE` (R31). -/
  outcome : JobOutcome
  /-- STATUS.FAULT_REASON (R23, R201). -/
  faultReason : FaultReason
  /-- IN_LEN (R26). -/
  inLen : Word
  /-- OUT_LEN (R27). -/
  outLen : Word
  /-- TILE_COUNT (R28). -/
  tileCount : Word
  /-- IP, the input pointer: the core's program counter (R29). -/
  ip : Word
  /-- OP, the write position (R30). -/
  op : Word
  /-- PHASE (R31). -/
  phase : Phase
  /-- PSRC (R32). -/
  psrc : PlaneSource
  /-- PTC, the tile count to decode (R32). -/
  ptc : Word
  /-- TIDX, the index of the next tile to decode (R32). -/
  tidx : Word
  /-- IN_MEM (R50). -/
  inMem : Memory 8
  /-- OBUF (R51). -/
  obuf : Memory 8
  /-- HBUF (R52). -/
  hbuf : Memory 2
  /-- The model's own: how many draws of the free value have been made (log entry 4). -/
  free : Nat
  /-- The model's own: the turns to come, oldest first. When it is empty the engine has every turn
  (log entry 5). -/
  agenda : List Turn
  /-- The model's own: what the host's last read returned (log entry 6). -/
  hostData : Word
deriving DecidableEq, Repr

/-- Where the machine stops. The conditions the spec itself calls a fault (R201) are NOT here: R208 gives
their effect, a next state with STATUS.OUTCOME = FAULT (log entry 1). -/
inductive Fault where
  /-- The engine would fetch a byte of IN_MEM at an index at or beyond IN_CAP_BYTES, which does not exist
  (R50). Raised by the LZ step. Safe: START faults with INLEN first (R25), so no state of a job that
  started meets it; it stops only states no run reaches. DESIGN CHOICE, log entry 15. -/
  | noInMemByte
  /-- The plane decoder would read a source byte or write a hue at an index its memory does not have (R51,
  R52). Raised by the plane step. Safe: "Every read is in range" (R182) in every state of a job that
  started; it stops only states no run reaches. DESIGN CHOICE, log entry 15. -/
  | noPlaneElement
deriving DecidableEq, Repr

/-- Where the model has no move. -/
inductive Refusal where
  /-- An instruction without a meaning. Raised by no arm of `exec`. Safe. -/
  | notModelled (mnemonic : String)
  /-- The host writes IN_MEM or IN_LEN while BUSY = 1: "duty not to do it. The model has no such move"
  (R236, R61). Raised by the host's move. Unsafe, as R236 itself says: a real host may write. -/
  | hostWritesWhileBusy
  /-- The host accesses a memory at an index beyond its size: "the model gives the host no such move"
  (R59). Raised by the host's move. Unsafe, as the spec's decision D22 says. -/
  | hostBeyondMemory
deriving DecidableEq, Repr

/-- The machine right after reset (R39, R230): idle, outcome Null, no tile, every register 0. The contents
of the three memories are "unspecified (any value)": draws 0, 1 and 2 of the free value. The
parameters are a DESIGN CHOICE (log entry 2). -/
def State.reset : State where
  cfg := Config.chosen
  mode := 0
  outcome := .null
  faultReason := .none
  inLen := 0
  outLen := 0
  tileCount := 0
  ip := 0
  op := 0
  phase := .idle
  psrc := .inMem
  ptc := 0
  tidx := 0
  inMem := { epoch := 0, cells := [] }
  obuf := { epoch := 1, cells := [] }
  hbuf := { epoch := 2, cells := [] }
  free := 3
  agenda := []
  hostData := 0

end Sys2Proof.Machine
end

