-- ==== Sys2Proof/Machine/Flags.lean ====
section
/-! DEFINITION. The core has no condition flags (R22): "The only status-like state is STATUS". This file is
the register view of STATUS and CTRL: the codes of their fields and their words (R23, R24, R200, R201). -/

namespace Sys2Proof.Machine

/-- STATUS.OUTCOME codes (R200). -/
def JobOutcome.code : JobOutcome → BitVec 3
  | .ok => 0
  | .null => 1
  | .badFile => 2
  | .badDimensions => 3
  | .tooLarge => 4
  | .notGrayscale => 5
  | .badCommand => 6
  | .fault => 7

/-- STATUS.FAULT_REASON codes (R201). -/
def FaultReason.code : FaultReason → BitVec 2
  | .none => 0
  | .underrun => 1
  | .badRef => 2
  | .inLen => 3

/-- STATUS.BUSY: 1 while PHASE != IDLE (R23, R31). -/
def State.busy (s : State) : Bool := s.phase != .idle

/-- The word of STATUS whose OUTCOME field reads `outcome`: OUTCOME in [2:0], BUSY in [3], FAULT_REASON in
[5:4], the rest read 0 (R23). -/
def State.statusWord (outcome : BitVec 3) (s : State) : Word :=
  (s.faultReason.code ++ BitVec.ofBool s.busy ++ outcome : BitVec 6).setWidth 32

/-- The word of CTRL: MODE in [1:0], START and the rest read 0 (R24). -/
def State.ctrlWord (s : State) : Word := s.mode.setWidth 32

/-- CTRL.MODE of a word written to CTRL: `w[1:0]` (R25). -/
def ctrlMode (w : Word) : BitVec 2 := w.extractLsb' 0 2

/-- CTRL.START of a word written to CTRL: `w[2]` (R25). -/
def ctrlStart (w : Word) : Bool := w.getLsbD 2

end Sys2Proof.Machine
end

