-- ==== Sys2Proof/Machine/Operands.lean ====
section
/-! DEFINITION. What operands mean: the source offset of a back-reference (R151), its validity (R152), the
bit reversal (R150) and the hue of a pixel (R182). Offsets are integers: "may be negative" (R10). -/

namespace Sys2Proof.Machine

/-- The bytes a displacement takes in the stream (R76). -/
def dispSize : Disp → Nat
  | .rel _ => 1
  | .abs _ => 2

/-- The source offset, for the write position `p` at the start of the command (R151). -/
def backRef (p : Nat) : Disp → Int
  | .rel d => (p : Int) - (d.toNat : Int) - 1
  | .abs a => (a.toNat : Int)

/-- A Repeat or Flip is valid iff `0 <= off < P` (R152). -/
def forwardValid (p : Nat) (off : Int) : Bool := decide (0 ≤ off) && decide (off < (p : Int))

/-- A Reverse of length `n` is valid iff `0 <= off < P` and `off - (n - 1) >= 0` (R152). -/
def backwardValid (n p : Nat) (off : Int) : Bool :=
  forwardValid p off && decide (0 ≤ off - ((n : Int) - 1))

/-- REV, the contents of the fixed table REVTAB (R33, R150): `REV(v)[i] = v[7 - i]`. No action writes the
table and reset does not change it, so it is a function and not a field of `State` (log entry 16). -/
def bitReverse (v : Byte) : Byte :=
  BitVec.ofBool (v.getLsbD 0) ++ BitVec.ofBool (v.getLsbD 1) ++ BitVec.ofBool (v.getLsbD 2)
    ++ BitVec.ofBool (v.getLsbD 3) ++ BitVec.ofBool (v.getLsbD 4) ++ BitVec.ofBool (v.getLsbD 5)
    ++ BitVec.ofBool (v.getLsbD 6) ++ BitVec.ofBool (v.getLsbD 7)

/-- The hue of pixel `i` of the row `(lo, hi)`: `2*hi[7-i] + lo[7-i]`, pixel 0 leftmost (R182). -/
def pixelHue (lo hi : Byte) (i : Nat) : Hue :=
  BitVec.ofBool (hi.getLsbD (7 - i)) ++ BitVec.ofBool (lo.getLsbD (7 - i))

end Sys2Proof.Machine
end

