-- ==== Sys2Proof/Machine/Ops.lean ====
section
/-! DEFINITION. The operations every meaning is written with: reads and writes of a memory, the contents
becoming "any value", the ways a job ends (R206, R207, R208), the entry of the plane stage (R181),
Fetch (R101), Emit (R134), and the shape of a data command (R100, R106, R108). -/

namespace Sys2Proof.Machine

/-! ### Memories -/

/-- The entry listed at index `a`, if there is one. -/
def cellAt {w : Nat} : List (Nat × BitVec w) → Nat → Option (BitVec w)
  | [], _ => none
  | (k, v) :: rest, a => if k = a then some v else cellAt rest a

/-- List the value `v` at index `a`, in place of what is listed there, keeping indices rising. -/
def putCell {w : Nat} (a : Nat) (v : BitVec w) : List (Nat × BitVec w) → List (Nat × BitVec w)
  | [] => [(a, v)]
  | (k, u) :: rest =>
    if a < k then (a, v) :: (k, u) :: rest
    else if k = a then (a, v) :: rest
    else (k, u) :: putCell a v rest

/-- `MemRead(S, a, 1)` (R11): the value last written at index `a`, or, if the contents became "any value"
since, the free value. -/
def Memory.read {w : Nat} (m : Memory w) (a : Nat) : BitVec w :=
  match cellAt m.cells a with
  | some v => v
  | none => Config.freeValue w m.epoch a

/-- `MemWrite(S, a, 1, v)` (R11). -/
def Memory.write {w : Nat} (m : Memory w) (a : Nat) (v : BitVec w) : Memory w :=
  { m with cells := putCell a v m.cells }

/-- Write the elements of a list at the indices from `a` on, in increasing order. -/
def Memory.writeAll {w : Nat} (m : Memory w) (a : Nat) : List (BitVec w) → Memory w
  | [] => m
  | v :: vs => (m.write a v).writeAll (a + 1) vs

/-- "every OBUF element <- any value" (R207, R208; R20 for a START). -/
def State.releaseObuf (s : State) : State :=
  { s with obuf := { epoch := s.free, cells := [] }, free := s.free + 1 }

/-- "every HBUF element <- any value" (R181). -/
def State.releaseHbuf (s : State) : State :=
  { s with hbuf := { epoch := s.free, cells := [] }, free := s.free + 1 }

/-! ### Ending a job: what takes the place of an exception's entry. There is no handler and "no
return-from-trap operation" (R211): the next job begins with the next START. -/

/-- `Finish(c)` (R206). -/
def finish (c : JobOutcome) (s : State) : State :=
  { s with outcome := c, faultReason := .none, phase := .idle }

/-- `LzFail(c)` (R207): no partial result. -/
def lzFail (c : JobOutcome) (s : State) : State :=
  finish c (State.releaseObuf { s with outLen := 0 })

/-- `raise Fault(r)` (R208). -/
def raiseFault (r : FaultReason) (s : State) : State :=
  { State.releaseObuf { s with outLen := 0 } with
    outcome := .fault, faultReason := r, phase := .idle }

/-! ### Entering the plane stage -/

/-- The release (R13, R181): TILE_COUNT <- 0, and every HBUF element any value. -/
def releaseTileSet (s : State) : State := State.releaseHbuf { s with tileCount := 0 }

/-- `EnterPlane(src, len)` (R181): the release first, the capacity check after it. -/
def enterPlane (src : PlaneSource) (len : Nat) (s : State) : State :=
  if s.cfg.capacityTiles < len / 16 then finish .tooLarge (releaseTileSet s)
  else if len / 16 = 0 then finish .ok (releaseTileSet s)
  else { releaseTileSet s with
    psrc := src, ptc := BitVec.ofNat 32 (len / 16), tidx := 0, phase := .plane }

/-! ### The LZ engine's registers -/

/-- IP after `k` more Fetches (R101). -/
def State.fetched (k : Nat) (s : State) : State := { s with ip := s.ip + BitVec.ofNat 32 k }

/-- `Emit(v)` (R134), "the single write primitive of all seven data commands". -/
def State.emit (v : Byte) (s : State) : State :=
  { s with obuf := s.obuf.write s.op.toNat v, op := s.op + 1 }

/-- Emit the bytes of a list in order. -/
def emitAll : List Byte → State → State
  | [], s => s
  | v :: vs, s => emitAll vs (s.emit v)

/-- Emit `n` times the same byte. -/
def emitSame (v : Byte) : Nat → State → State
  | 0, s => s
  | n + 1, s => emitSame v n (s.emit v)

/-- Emit `n` bytes alternating, `b0` first (R132). -/
def emitAlternate (b0 b1 : Byte) : Nat → State → State
  | 0, s => s
  | n + 1, s => emitAlternate b1 b0 n (s.emit b0)

/-- Emit `n` bytes read from OBUF at `off`, `off + 1`, … through `f`: each read sees every byte emitted
before it, by this command too (R153, R154, R156). -/
def copyForward (f : Byte → Byte) : Nat → Nat → State → State
  | 0, _, s => s
  | n + 1, off, s => copyForward f n (off + 1) (s.emit (f (s.obuf.read off)))

/-- Emit `n` bytes read from OBUF at `off`, `off - 1`, … (R155). -/
def copyBackward : Nat → Nat → State → State
  | 0, _, s => s
  | n + 1, off, s => copyBackward n (off - 1) (s.emit (s.obuf.read off))

/-! ### The shape of a data command -/

/-- A data command whose header (command byte and, in the long form, long-length byte) is `header` bytes
and whose length is `n`: "After the length n is known and before any operand byte is fetched", the
capacity check (R106); then the command's own rule. -/
def dataCommand (header n : Nat) (body : State → State) (s : State) : State :=
  if s.cfg.capBytes < s.op.toNat + n then lzFail .tooLarge (s.fetched header)
  else body (s.fetched header)

/-- Literal (R130), with its data bytes. -/
def literal (header n : Nat) (data : List Byte) (s : State) : State :=
  dataCommand header n (fun t => emitAll data (t.fetched data.length)) s

/-- Iterate (R131), with its fill byte. -/
def iterate (header n : Nat) (v : Byte) (s : State) : State :=
  dataCommand header n (fun t => emitSame v n (t.fetched 1)) s

/-- Alternate (R132), with its two fill bytes. -/
def alternate (header n : Nat) (b0 b1 : Byte) (s : State) : State :=
  dataCommand header n (fun t => emitAlternate b0 b1 n (t.fetched 2)) s

/-- Blank (R133): "Write `length` zero bytes." -/
def blankFill (header n : Nat) (s : State) : State :=
  dataCommand header n (fun t => emitSame 0#8 n t) s

/-- A forward copy through `f`: Repeat with the identity (R153), Flip with REV (R154). The validity check
comes after the displacement is fetched and before the first Emit (R108, R152). -/
def forwardCopy (f : Byte → Byte) (header n : Nat) (disp : Disp) (s : State) : State :=
  dataCommand header n (fun t =>
    let off := backRef t.op.toNat disp
    if forwardValid t.op.toNat off then copyForward f n off.toNat (t.fetched (dispSize disp))
    else raiseFault .badRef (t.fetched (dispSize disp))) s

/-- Reverse (R155). -/
def backwardCopy (header n : Nat) (disp : Disp) (s : State) : State :=
  dataCommand header n (fun t =>
    let off := backRef t.op.toNat disp
    if backwardValid n t.op.toNat off then copyBackward n off.toNat (t.fetched (dispSize disp))
    else raiseFault .badRef (t.fetched (dispSize disp))) s

end Sys2Proof.Machine
end

