-- ==== Sys2Proof/Machine/Backref.lean ====
section
/-! DEFINITION. The back-reference commands: Repeat, Flip, Reverse, short and long
(spec/42_lz_backref.md). A reference outside the bytes the job has written takes `Fault(BADREF)` (R152,
R208): a next state with STATUS.OUTCOME = FAULT (log entry 1). -/

namespace Sys2Proof.Machine

/-- REPEAT (R153). -/
def execRpt (len : BitVec 5) (disp : Disp) (s : State) : Host.Outcome State Fault Refusal :=
  .next (forwardCopy id 1 (shortLen len) disp s)

/-- FLIP (R154). -/
def execFlip (len : BitVec 5) (disp : Disp) (s : State) : Host.Outcome State Fault Refusal :=
  .next (forwardCopy bitReverse 1 (shortLen len) disp s)

/-- REV (R155). -/
def execRev (len : BitVec 5) (disp : Disp) (s : State) : Host.Outcome State Fault Refusal :=
  .next (backwardCopy 1 (shortLen len) disp s)

/-- REPEAT.L (R153, R103). -/
def execRptL (len : BitVec 10) (disp : Disp) (s : State) : Host.Outcome State Fault Refusal :=
  .next (forwardCopy id 2 (longLen len) disp s)

/-- FLIP.L (R154, R103). -/
def execFlipL (len : BitVec 10) (disp : Disp) (s : State) : Host.Outcome State Fault Refusal :=
  .next (forwardCopy bitReverse 2 (longLen len) disp s)

/-- REV.L (R155, R103). -/
def execRevL (len : BitVec 10) (disp : Disp) (s : State) : Host.Outcome State Fault Refusal :=
  .next (backwardCopy 2 (longLen len) disp s)

end Sys2Proof.Machine
end

