-- ==== Sys2Proof/Machine/Control.lean ====
section
/-! DEFINITION. The two command-byte forms that are not data commands: END (R104) and the illegal nested Long
(R105), which ends the job "before any further byte is fetched". -/

namespace Sys2Proof.Machine

/-- END (R104): OUT_LEN <- OP, then EnterPlane(OBUF, OP). -/
def execEndStream (s : State) : Host.Outcome State Fault Refusal :=
  .next (enterPlane .obuf s.op.toNat { s.fetched 1 with outLen := s.op })

/-- ILLEGAL 0xFC (R105): `LzFail(BadCommand)`. -/
def execIllegalFC (s : State) : Host.Outcome State Fault Refusal :=
  .next (lzFail .badCommand (s.fetched 1))

/-- ILLEGAL 0xFD (R105): `LzFail(BadCommand)`. -/
def execIllegalFD (s : State) : Host.Outcome State Fault Refusal :=
  .next (lzFail .badCommand (s.fetched 1))

/-- ILLEGAL 0xFE (R105): `LzFail(BadCommand)`. -/
def execIllegalFE (s : State) : Host.Outcome State Fault Refusal :=
  .next (lzFail .badCommand (s.fetched 1))

end Sys2Proof.Machine
end

