-- ==== Sys2Proof/Machine/Fill.lean ====
section
/-! DEFINITION. The fill commands: Literal, Iterate, Alternate, Blank, short and long (spec/41_lz_fill.md).
"the same rule runs for both forms with the decoded n" (R107). -/

namespace Sys2Proof.Machine

/-- LIT (R130). -/
def execLit (len : BitVec 5) (data : List Byte) (s : State) : Host.Outcome State Fault Refusal :=
  .next (literal 1 (shortLen len) data s)

/-- ITER (R131). -/
def execIter (len : BitVec 5) (v : Byte) (s : State) : Host.Outcome State Fault Refusal :=
  .next (iterate 1 (shortLen len) v s)

/-- ALT (R132). -/
def execAlt (len : BitVec 5) (b0 b1 : Byte) (s : State) : Host.Outcome State Fault Refusal :=
  .next (alternate 1 (shortLen len) b0 b1 s)

/-- BLANK (R133). -/
def execBlank (len : BitVec 5) (s : State) : Host.Outcome State Fault Refusal :=
  .next (blankFill 1 (shortLen len) s)

/-- LIT.L (R130, R103). -/
def execLitL (len : BitVec 10) (data : List Byte) (s : State) : Host.Outcome State Fault Refusal :=
  .next (literal 2 (longLen len) data s)

/-- ITER.L (R131, R103). -/
def execIterL (len : BitVec 10) (v : Byte) (s : State) : Host.Outcome State Fault Refusal :=
  .next (iterate 2 (longLen len) v s)

/-- ALT.L (R132, R103). -/
def execAltL (len : BitVec 10) (b0 b1 : Byte) (s : State) : Host.Outcome State Fault Refusal :=
  .next (alternate 2 (longLen len) b0 b1 s)

/-- BLANK.L (R133, R103). -/
def execBlankL (len : BitVec 10) (s : State) : Host.Outcome State Fault Refusal :=
  .next (blankFill 2 (longLen len) s)

end Sys2Proof.Machine
end

