-- ==== Sys2Proof/Machine/Dispatch.lean ====
section
/-! DEFINITION. One arm per command: each is one direct call of that command's meaning (R107). -/

namespace Sys2Proof.Machine

def exec (i : Instr) (s : State) : Host.Outcome State Fault Refusal :=
  match i with
  | .lit len data => Sys2Proof.Machine.execLit len data s
  | .iter len v => Sys2Proof.Machine.execIter len v s
  | .alt len b0 b1 => Sys2Proof.Machine.execAlt len b0 b1 s
  | .blank len => Sys2Proof.Machine.execBlank len s
  | .rpt len disp => Sys2Proof.Machine.execRpt len disp s
  | .flip len disp => Sys2Proof.Machine.execFlip len disp s
  | .rev len disp => Sys2Proof.Machine.execRev len disp s
  | .litL len data => Sys2Proof.Machine.execLitL len data s
  | .iterL len v => Sys2Proof.Machine.execIterL len v s
  | .altL len b0 b1 => Sys2Proof.Machine.execAltL len b0 b1 s
  | .blankL len => Sys2Proof.Machine.execBlankL len s
  | .rptL len disp => Sys2Proof.Machine.execRptL len disp s
  | .flipL len disp => Sys2Proof.Machine.execFlipL len disp s
  | .revL len disp => Sys2Proof.Machine.execRevL len disp s
  | .endStream => Sys2Proof.Machine.execEndStream s
  | .illegalFC => Sys2Proof.Machine.execIllegalFC s
  | .illegalFD => Sys2Proof.Machine.execIllegalFD s
  | .illegalFE => Sys2Proof.Machine.execIllegalFE s

end Sys2Proof.Machine
end

