-- ==== Sys2Proof/Machine/Plane.lean ====
section
/-! DEFINITION. The plane decoder (spec/43_plane_decoder.md): the raw entry (R180) and one tile per step
(R182). Its entry `EnterPlane` (R181) is in Ops, because END calls it too. -/

namespace Sys2Proof.Machine

/-- `StartRaw()` (R180). -/
def startRaw (s : State) : State :=
  if s.cfg.inCapBytes < s.inLen.toNat then raiseFault .inLen s
  else if s.inLen.toNat % 16 ≠ 0 then finish .badDimensions s
  else enterPlane .inMem s.inLen.toNat s

/-- `MemRead(PSRC, a, 1)` (R182, R32). -/
def State.planeByte (s : State) (a : Nat) : Byte :=
  match s.psrc with
  | .inMem => s.inMem.read a
  | .obuf => s.obuf.read a

/-- The size of the memory PSRC selects (R50, R51). -/
def State.planeSourceSize (s : State) : Nat :=
  match s.psrc with
  | .inMem => s.cfg.inCapBytes
  | .obuf => s.cfg.capBytes

/-- The 64 hues of the tile whose byte `k` is `byte k`, row-major (R182). -/
def tileHues (byte : Nat → Byte) : List Hue :=
  (List.range 8).flatMap fun j =>
    (List.range 8).map fun i => pixelHue (byte (2 * j)) (byte (2 * j + 1)) i

/-- The tile TIDX decoded into HBUF, and TIDX moved to the next (R182). -/
def tileDecoded (s : State) : State :=
  { s with
    hbuf := s.hbuf.writeAll (64 * s.tidx.toNat)
      (tileHues fun k => s.planeByte (16 * s.tidx.toNat + k))
    tidx := s.tidx + 1 }

/-- After a tile: if it was the last, TILE_COUNT <- PTC and `Finish(Ok)` (R182, R183). -/
def afterTile (s : State) : State :=
  if s.tidx = s.ptc then finish .ok { s with tileCount := s.ptc } else s

/-- `PlaneStep()` (R182): decode tile TIDX. An index a memory does not have faults; no state of a job that
started meets it (R182). -/
def planeStep (s : State) : Host.Outcome State Fault Refusal :=
  if 16 * s.tidx.toNat + 16 ≤ s.planeSourceSize ∧ 64 * s.tidx.toNat + 64 ≤ s.cfg.hueCount then
    .next (afterTile (tileDecoded s))
  else .fault .noPlaneElement

end Sys2Proof.Machine
end

