-- ==== Sys2Proof/Machine/HostPort.lean ====
section
/-! DEFINITION. The host's moves: the CTRL write that starts a job (R25), the other writes, the reads (R57,
R61) and the reset event (R230, R231). -/

namespace Sys2Proof.Machine

/-- The first effects of every START: STATUS reads Null with no fault, and OUT_LEN is 0 (R25). -/
def jobBegun (s : State) : State := { s with outcome := .null, faultReason := .none, outLen := 0 }

/-- START: "begin a job" (R25). The contents of OBUF are "unspecified at each START" (R20); the pseudocode
of a reserved MODE says "nothing else changes", so that one leaves OBUF alone. Log entry 8. -/
def startJob (s : State) : State :=
  match s.mode.toNat with
  | 0 => startRaw (jobBegun s).releaseObuf
  | 1 =>
    if s.cfg.inCapBytes < s.inLen.toNat then raiseFault .inLen (jobBegun s).releaseObuf
    else { (jobBegun s).releaseObuf with ip := 0, op := 0, phase := .lz }
  | _ => finish .null (jobBegun s)

/-- A host write `w` to CTRL (R25). -/
def writeCtrl (w : Word) (s : State) : State :=
  if s.busy then s
  else if ctrlStart w then startJob { s with mode := ctrlMode w }
  else { s with mode := ctrlMode w }

/-- A host write to a register. IN_LEN may not be written while BUSY (R61, R236). STATUS, OUT_LEN and
TILE_COUNT are read only (R20): such a write changes nothing, because bits not named "ignore writes" (R20)
and a CTRL write is "the one register write with a side effect" (R57). DEDUCED, log entry 7. -/
def writeReg (r : HostReg) (w : Word) (s : State) : Host.Outcome State Fault Refusal :=
  match r with
  | .ctrl => .next (writeCtrl w s)
  | .inLen => if s.busy then .refused .hostWritesWhileBusy else .next { s with inLen := w }
  | .status => .next s
  | .outLen => .next s
  | .tileCount => .next s

/-- A host write of one byte of IN_MEM, "while the core is idle" (R50, R61, R59). -/
def writeInMem (a : Nat) (v : Byte) (s : State) : Host.Outcome State Fault Refusal :=
  if s.busy then .refused .hostWritesWhileBusy
  else if s.cfg.inCapBytes ≤ a then .refused .hostBeyondMemory
  else .next { s with inMem := s.inMem.write a v }

/-- A host read that returns `v`: no side effect (R57) but on the host's own register. -/
def hostReads (v : Word) (s : State) : State := { s with hostData := v }

/-- A host read that "returns any value" of `w` bits, seen by the host as the word `asWord` of it (R61,
R36). -/
def hostReadsAny (w : Nat) (asWord : BitVec w → Word) (s : State) : State :=
  { s with hostData := asWord (Config.freeValue w s.free 0), free := s.free + 1 }

/-- A host read of a register. While BUSY = 1, STATUS.OUTCOME, OUT_LEN and TILE_COUNT return any value, and
STATUS.BUSY "the true value" (R61, R236). Log entries 13 and 14. -/
def readReg (r : HostReg) (s : State) : State :=
  match r with
  | .ctrl => hostReads s.ctrlWord s
  | .status =>
    if s.busy then hostReadsAny 3 (fun o => s.statusWord o) s
    else hostReads (s.statusWord s.outcome.code) s
  | .inLen => hostReads s.inLen s
  | .outLen => if s.busy then hostReadsAny 32 id s else hostReads s.outLen s
  | .tileCount => if s.busy then hostReadsAny 32 id s else hostReads s.tileCount s

/-- A host read of IN_MEM (R20, R59). -/
def readInMem (a : Nat) (s : State) : Host.Outcome State Fault Refusal :=
  if s.cfg.inCapBytes ≤ a then .refused .hostBeyondMemory
  else .next (hostReads ((s.inMem.read a).setWidth 32) s)

/-- A host read of OBUF: any value while BUSY = 1 (R51, R61, R59). -/
def readObuf (a : Nat) (s : State) : Host.Outcome State Fault Refusal :=
  if s.cfg.capBytes ≤ a then .refused .hostBeyondMemory
  else if s.busy then .next (hostReadsAny 8 (fun v => v.setWidth 32) s)
  else .next (hostReads ((s.obuf.read a).setWidth 32) s)

/-- A host read of HBUF: any value while BUSY = 1 (R61), and at an index at or beyond `64 * TILE_COUNT`,
which is no part of the TileSet (R36). -/
def readHbuf (a : Nat) (s : State) : Host.Outcome State Fault Refusal :=
  if s.cfg.hueCount ≤ a then .refused .hostBeyondMemory
  else if s.busy ∨ 64 * s.tileCount.toNat ≤ a then .next (hostReadsAny 2 (fun v => v.setWidth 32) s)
  else .next (hostReads ((s.hbuf.read a).setWidth 32) s)

/-- Reset: "sets every piece of state to the value" R39 gives, and abandons a running job (R230, R231). The
three memories hold any value. The parameters stay (R233), and so do the turns to come and the host's
own register, which are no part of the core. Log entry 12. -/
def resetCore (s : State) : State :=
  { s with
    mode := 0
    outcome := .null
    faultReason := .none
    inLen := 0
    outLen := 0
    tileCount := 0
    ip := 0
    op := 0
    phase := .idle
    psrc := .inMem
    ptc := 0
    tidx := 0
    inMem := { epoch := s.free, cells := [] }
    obuf := { epoch := s.free + 1, cells := [] }
    hbuf := { epoch := s.free + 2, cells := [] }
    free := s.free + 3 }

/-- One move of the host. -/
def hostTurn (m : HostMove) (s : State) : Host.Outcome State Fault Refusal :=
  match m with
  | .reset => .next (resetCore s)
  | .writeReg r w => writeReg r w s
  | .writeInMem a v => writeInMem a v s
  | .readReg r => .next (readReg r s)
  | .readInMem a => readInMem a s
  | .readObuf a => readObuf a s
  | .readHbuf a => readHbuf a s

end Sys2Proof.Machine
end

