-- ==== Sys2Proof/Machine/Engine.lean ====
section
/-! DEFINITION. The engine's turn (R31): nothing while idle (R213), one command per LZ step (R100), one tile
per plane step (R182). -/

namespace Sys2Proof.Machine

/-- What is left of the stream: the bytes of IN_MEM from IP up to IN_LEN (R29, R101), as far as IN_MEM goes
and no further than the longest command (R70). -/
def State.stream (s : State) : List Byte :=
  (List.range (min maxCommandBytes (min s.inLen.toNat s.cfg.inCapBytes - s.ip.toNat))).map
    fun k => s.inMem.read (s.ip.toNat + k)

/-- The stream ends before the byte a Fetch wants: every byte left has been fetched and `emitted` bytes
have been put out, and the Fetch raises `Fault(UNDERRUN)` (R101). -/
def streamEnded (emitted : Nat) (s : State) : State :=
  raiseFault .underrun { s.fetched s.stream.length with op := s.op + BitVec.ofNat 32 emitted }

/-- The Fetch that finds no byte left (R101). Where it is IN_MEM that ends and not the stream, the byte does
not exist. -/
def underrun (emitted : Nat) (s : State) : Host.Outcome State Fault Refusal :=
  if s.inLen.toNat ≤ s.cfg.inCapBytes then .next (streamEnded emitted s) else .fault .noInMemByte

/-- `LzStep()` (R100), command by command: decode what IP points at and run it. A stream that ends inside a
command's operands meets the capacity check first (R108). Log entry 9; `lzPseudo` is the spec's own
pseudocode, byte by byte. -/
def lzStep (s : State) : Host.Outcome State Fault Refusal :=
  match decode s.stream with
  | .ok i _ => exec i s
  | .noCommandByte => underrun 0 s
  | .noLengthByte => underrun 0 s
  | .noOperandByte header n emitted =>
    if s.cfg.capBytes < s.op.toNat + n then .next (lzFail .tooLarge (s.fetched header))
    else underrun emitted s

/-- The engine's turn. "While idle (PHASE = IDLE) the engine takes no step" (R213). -/
def engineTurn (s : State) : Host.Outcome State Fault Refusal :=
  match s.phase with
  | .idle => .next s
  | .lz => lzStep s
  | .plane => planeStep s

/-- The command the engine's next LZ step runs, taken from the front of `bs`: its own bytes and no more. -/
def commandBytes (bs : List Byte) : List Byte :=
  match decode bs with
  | .ok i _ => encode i
  | .noCommandByte => bs
  | .noLengthByte => bs
  | .noOperandByte _ _ _ => bs

/-- Give the engine, in the LZ phase, the command at the front of `bs` at IP, as the whole rest of the
stream, and the next turn. -/
def placeCommand (bs : List Byte) (s : State) : State :=
  { s with
    phase := .lz
    inMem := s.inMem.writeAll s.ip.toNat (commandBytes bs)
    inLen := s.ip + BitVec.ofNat 32 (commandBytes bs).length
    agenda := .engine :: s.agenda }

end Sys2Proof.Machine
end

