-- ==== Sys2Proof/Machine/Step.lean ====
section
/-! DEFINITION. One step: the turn at the front of the agenda, or the engine's turn when there is none. -/

namespace Sys2Proof.Machine

/-- One step of the machine (R60, R100, R182). Every interleaving of host moves and engine steps is some
agenda; when it is empty the engine has every turn, which is the fairness of R238. Log entries 5
and 17. -/
def step (s : State) : Host.Outcome State Fault Refusal :=
  match s.agenda with
  | [] => engineTurn s
  | .engine :: rest => engineTurn { s with agenda := rest }
  | .host m :: rest => hostTurn m { s with agenda := rest }

/-- `s` with the command of the table word `w` where the engine fetches its next command: at IP, in the LZ
phase, as the whole rest of the stream, with the engine's turn next. Log entry 10 says how a program
comes to run from reset. -/
def State.withFetchWord (s : State) (nbits w : Nat) : State := placeCommand (tableBytes nbits w) s

end Sys2Proof.Machine
end

