-- ==== Sys2Proof/Machine/LzPseudo.lean ====
section
/-! DEFINITION. The spec's pseudocode of the LZ step, written out byte by byte as it stands (R100, R101, R104,
R105, R106, R130 to R134, R151 to R155). The machine does not call it: it is the reference the
machine's decode-then-execute step is to be proved equal to. -/

namespace Sys2Proof.Machine

/-- The result of a piece of pseudocode that yields a value: it goes on with the value, or a `raise` has
ended the step. -/
inductive Flow (α : Type) where
  /-- The step goes on. -/
  | going (v : α) (s : State)
  /-- The step has ended in this state. -/
  | ended (s : State)

/-- `Fetch()` (R101). -/
def fetchByte (s : State) : Flow Byte :=
  if s.inLen.toNat ≤ s.ip.toNat then .ended (raiseFault .underrun s)
  else .going (s.inMem.read s.ip.toNat) { s with ip := s.ip + 1 }

/-- `Literal(n)` (R130). -/
def literalLoop : Nat → State → State
  | 0, s => s
  | n + 1, s =>
    match fetchByte s with
    | .ended t => t
    | .going v t => literalLoop n (t.emit v)

/-- `Iterate(n)` (R131). -/
def iteratePseudo (n : Nat) (s : State) : State :=
  match fetchByte s with
  | .ended t => t
  | .going v t => (List.range n).foldl (fun u _ => u.emit v) t

/-- `Alternate(n)` (R132). -/
def alternatePseudo (n : Nat) (s : State) : State :=
  match fetchByte s with
  | .ended t => t
  | .going b0 t =>
    match fetchByte t with
    | .ended u => u
    | .going b1 u =>
      (List.range n).foldl (fun x k => if k % 2 = 0 then x.emit b0 else x.emit b1) u

/-- `Blank(n)` (R133). -/
def blankPseudo (n : Nat) (s : State) : State :=
  (List.range n).foldl (fun u _ => u.emit 0x00#8) s

/-- `BackRef()` (R151). -/
def backRefPseudo (s : State) : Flow Int :=
  match fetchByte s with
  | .ended t => .ended t
  | .going d t =>
    if d.getLsbD 7 then .going ((s.op.toNat : Int) - ((d.extractLsb' 0 7).toNat : Int) - 1) t
    else
      match fetchByte t with
      | .ended u => .ended u
      | .going e u => .going ((d.toNat : Int) * 256 + (e.toNat : Int)) u

/-- `Repeat(n)` (R153). -/
def repeatPseudo (n : Nat) (s : State) : State :=
  match backRefPseudo s with
  | .ended t => t
  | .going off t =>
    if ¬ (0 ≤ off ∧ off < (s.op.toNat : Int)) then raiseFault .badRef t
    else (List.range n).foldl (fun u (k : Nat) => u.emit (u.obuf.read (off + (k : Int)).toNat)) t

/-- `Flip(n)` (R154). -/
def flipPseudo (n : Nat) (s : State) : State :=
  match backRefPseudo s with
  | .ended t => t
  | .going off t =>
    if ¬ (0 ≤ off ∧ off < (s.op.toNat : Int)) then raiseFault .badRef t
    else (List.range n).foldl
      (fun u (k : Nat) => u.emit (bitReverse (u.obuf.read (off + (k : Int)).toNat))) t

/-- `Reverse(n)` (R155). -/
def reversePseudo (n : Nat) (s : State) : State :=
  match backRefPseudo s with
  | .ended t => t
  | .going off t =>
    if ¬ (0 ≤ off ∧ off < (s.op.toNat : Int) ∧ 0 ≤ off - ((n : Int) - 1)) then raiseFault .badRef t
    else (List.range n).foldl (fun u (k : Nat) => u.emit (u.obuf.read (off - (k : Int)).toNat)) t

/-- `End()` (R104). -/
def endPseudo (s : State) : State := enterPlane .obuf s.op.toNat { s with outLen := s.op }

/-- The capacity check and the dispatch at the end of `LzStep` (R100, R106, R107). -/
def dispatchPseudo (code n : Nat) (s : State) : State :=
  if s.op.toNat + n > s.cfg.capBytes then lzFail .tooLarge s
  else
    match code with
    | 0 => literalLoop n s
    | 1 => iteratePseudo n s
    | 2 => alternatePseudo n s
    | 3 => blankPseudo n s
    | 4 => repeatPseudo n s
    | 5 => flipPseudo n s
    | _ => reversePseudo n s

/-- `LzStep()` (R100). -/
def lzPseudo (s : State) : State :=
  match fetchByte s with
  | .ended t => t
  | .going b t =>
    if b = 0xFF#8 then endPseudo t
    else if b.extractLsb' 5 3 = 7#3 then
      if b.extractLsb' 2 3 = 7#3 then lzFail .badCommand t
      else
        match fetchByte t with
        | .ended u => u
        | .going l u =>
          dispatchPseudo (b.extractLsb' 2 3).toNat ((b.extractLsb' 0 2).toNat * 256 + l.toNat + 1) u
    else dispatchPseudo (b.extractLsb' 5 3).toNat ((b.extractLsb' 0 5).toNat + 1) t

end Sys2Proof.Machine
end

