-- ==== Sys2Proof/Safety.lean ====
section
/-! DEFINITION. What claims mean by a good state and a good end. "A model should treat a FAULT outcome as a
fault: it is never a final, successful state" (R208). -/

namespace Sys2Proof.Machine

/-- A job has ended in FAULT (R208). -/
abbrev State.faulted (s : State) : Prop := s.phase = .idle ∧ s.outcome = .fault

/-- A job has ended successfully: only outcome Ok is success. -/
abbrev State.succeeded (s : State) : Prop := s.phase = .idle ∧ s.outcome = .ok

/-- A data command's header size in bytes and its length `n` (R77, R73, R74); END and ILLEGAL have none. -/
def dataForm : Instr → Option (Nat × Nat)
  | .lit len _ => some (1, shortLen len)
  | .iter len _ => some (1, shortLen len)
  | .alt len _ _ => some (1, shortLen len)
  | .blank len => some (1, shortLen len)
  | .rpt len _ => some (1, shortLen len)
  | .flip len _ => some (1, shortLen len)
  | .rev len _ => some (1, shortLen len)
  | .litL len _ => some (2, longLen len)
  | .iterL len _ => some (2, longLen len)
  | .altL len _ _ => some (2, longLen len)
  | .blankL len => some (2, longLen len)
  | .rptL len _ => some (2, longLen len)
  | .flipL len _ => some (2, longLen len)
  | .revL len _ => some (2, longLen len)
  | .endStream => none
  | .illegalFC => none
  | .illegalFD => none
  | .illegalFE => none

/-- From `s` to `t` a command has fetched `bytes` bytes and put out `n` bytes, byte `k` of them `out k`, at the
write position on (R134); NOTHING else has changed: every other field, and every other byte of OBUF. -/
def State.writesRun (s t : State) (bytes n : Nat) (out : Nat → Byte) : Prop :=
  t = { s with
    ip := s.ip + BitVec.ofNat 32 bytes, op := s.op + BitVec.ofNat 32 n, obuf := t.obuf }
    ∧ t.op.toNat = s.op.toNat + n
    ∧ (∀ k, k < n → t.obuf.read (s.op.toNat + k) = out k)
    ∧ (∀ a, a < s.op.toNat ∨ s.op.toNat + n ≤ a → t.obuf.read a = s.obuf.read a)

/-- From `s` to `t` a command has fetched `bytes` bytes and the job has failed: STATUS holds `c` and `r`, the
core is idle, OUT_LEN is 0 and every OBUF element is any value, a fresh draw (R207, R208). NOTHING else
has changed: TILE_COUNT and HBUF are as before (R209). -/
def State.failsWith (s t : State) (bytes : Nat) (c : JobOutcome) (r : FaultReason) : Prop :=
  t = { s with
    ip := s.ip + BitVec.ofNat 32 bytes, outcome := c, faultReason := r, phase := .idle, outLen := 0,
    obuf := { epoch := s.free, cells := [] }, free := t.free }
    ∧ s.free < t.free

/-- The same core behind another bus: REG_MAP and HBUF_PACKING replaced (R9). -/
def State.onBus (m : RegMap) (p : HbufPacking) (s : State) : State :=
  { s with cfg := { s.cfg with regMap := m, hbufPacking := p } }

/-- The engine has the next turn. -/
abbrev State.engineNext (s : State) : Prop := s.agenda = [] ∨ s.agenda.head? = some .engine

/-- The engine, in the LZ phase and with the next turn, stands before a command whose header bytes are
`header` and whose length is `n`, which fits the capacity, and `rest` is what is left of the stream
(as far as the longest command). -/
def State.atCommand (s : State) (header : List Byte) (n : Nat) (rest : List Byte) : Prop :=
  s.phase = .lz ∧ s.engineNext ∧ s.inLen.toNat ≤ s.cfg.inCapBytes
    ∧ s.op.toNat + n ≤ s.cfg.capBytes ∧ s.stream = header ++ rest

/-- The next step ends the job with FAULT and reason UNDERRUN (R101, R208). -/
def State.underruns (s : State) : Prop :=
  ∃ t, step s = .next t ∧ t.faulted ∧ t.faultReason = .underrun

/-- Every listed index of the memory lies below its size. -/
abbrev Memory.within {w : Nat} (m : Memory w) (size : Nat) : Prop := ∀ c ∈ m.cells, c.1 < size

/-- The registers of a running job, and STATUS, are as the spec says they are (R25, R30, R31, R101, R182,
R201). -/
def State.jobInv (s : State) : Prop :=
  match s.phase with
  | .idle => (s.faultReason ≠ .none ↔ s.outcome = .fault)
  | .lz =>
    s.outcome = .null ∧ s.faultReason = .none ∧ s.outLen = 0
      ∧ s.inLen.toNat ≤ s.cfg.inCapBytes ∧ s.ip.toNat ≤ s.inLen.toNat
  | .plane =>
    s.outcome = .null ∧ s.faultReason = .none ∧ s.tileCount = 0
      ∧ s.tidx.toNat < s.ptc.toNat ∧ s.ptc.toNat ≤ s.cfg.capacityTiles
      ∧ 16 * s.ptc.toNat ≤ (match s.psrc with
          | .inMem => min s.inLen.toNat s.cfg.inCapBytes
          | .obuf => s.outLen.toNat)

/-- The invariant of the machine: the parameters meet their constraints (R7, R9), TILE_COUNT, OP and OUT_LEN
stay within the capacity (R28, R30, R27), the core never reports BadFile or NotGrayscale (R203), the
memories keep their canonical form and their bounds (R50 to R52), every draw made lies below the
counter, and the job's registers are as `jobInv` says. -/
structure State.Inv (s : State) : Prop where
  /-- The parameters (R7, R9). -/
  cfgWf : s.cfg.wf
  /-- `TILE_COUNT <= CAPACITY_TILES` (R28). -/
  tileCountLe : s.tileCount.toNat ≤ s.cfg.capacityTiles
  /-- `0 <= OP <= CAP_BYTES` (R30). -/
  opLe : s.op.toNat ≤ s.cfg.capBytes
  /-- OUT_LEN is 0 or an OP (R27). -/
  outLenLe : s.outLen.toNat ≤ s.cfg.capBytes
  /-- Never BadFile (R203). -/
  notBadFile : s.outcome ≠ .badFile
  /-- Never NotGrayscale (R203). -/
  notNotGrayscale : s.outcome ≠ .notGrayscale
  /-- IN_MEM: canonical form. -/
  inMemWf : s.inMem.wf
  /-- OBUF: canonical form. -/
  obufWf : s.obuf.wf
  /-- HBUF: canonical form. -/
  hbufWf : s.hbuf.wf
  /-- IN_MEM lists only indices it has (R50). -/
  inMemWithin : s.inMem.within s.cfg.inCapBytes
  /-- OBUF lists only indices it has (R51). -/
  obufWithin : s.obuf.within s.cfg.capBytes
  /-- HBUF lists only indices it has (R52). -/
  hbufWithin : s.hbuf.within s.cfg.hueCount
  /-- The draws of the three memories are below the counter. -/
  epochsLt : s.inMem.epoch < s.free ∧ s.obuf.epoch < s.free ∧ s.hbuf.epoch < s.free
  /-- The job's registers and STATUS. -/
  job : s.jobInv

end Sys2Proof.Machine
end

