-- ==== Sys2Proof/Certificates/Slice0/Obligations.lean ====
section
/-! DEFINITION. The statements for the provers, from the numbered rules of spec/. Every one holds for every
choice of the parameters (R7, R9) and of the free value. -/

open Sys2Proof Sys2Proof.Machine

namespace Sys2Proof.Machine

/-- The size in bytes of a command, as the table of R77 gives it. -/
def tableSize : Instr → Nat
  | .lit len _ => 1 + shortLen len
  | .iter _ _ => 2
  | .alt _ _ _ => 3
  | .blank _ => 1
  | .rpt _ (.rel _) => 2
  | .rpt _ (.abs _) => 3
  | .flip _ (.rel _) => 2
  | .flip _ (.abs _) => 3
  | .rev _ (.rel _) => 2
  | .rev _ (.abs _) => 3
  | .litL len _ => 2 + longLen len
  | .iterL _ _ => 3
  | .altL _ _ _ => 4
  | .blankL _ => 2
  | .rptL _ (.rel _) => 3
  | .rptL _ (.abs _) => 4
  | .flipL _ (.rel _) => 3
  | .flipL _ (.abs _) => 4
  | .revL _ (.rel _) => 3
  | .revL _ (.abs _) => 4
  | .endStream => 1
  | .illegalFC => 1
  | .illegalFD => 1
  | .illegalFE => 1

/-- The mnemonic the opcode map gives a command byte (R78). -/
def mapMnemonic (b : Nat) : String :=
  if b ≤ 0x1F then "LIT" else if b ≤ 0x3F then "ITER" else if b ≤ 0x5F then "ALT"
  else if b ≤ 0x7F then "BLANK" else if b ≤ 0x9F then "REPEAT" else if b ≤ 0xBF then "FLIP"
  else if b ≤ 0xDF then "REV" else if b ≤ 0xE3 then "LIT.L" else if b ≤ 0xE7 then "ITER.L"
  else if b ≤ 0xEB then "ALT.L" else if b ≤ 0xEF then "BLANK.L" else if b ≤ 0xF3 then "REPEAT.L"
  else if b ≤ 0xF7 then "FLIP.L" else if b ≤ 0xFB then "REV.L" else if b ≤ 0xFE then "ILLEGAL"
  else "END"

/-- The length the opcode map gives a command byte followed by the byte `next` (R78). -/
def mapLength (b next : Nat) : Option Nat :=
  if b ≤ 0xDF then some (b % 32 + 1) else if b ≤ 0xFB then some (b % 4 * 256 + next + 1) else none

/-- The three ILLEGAL commands (R80). -/
abbrev nestedLongs : List Instr := [.illegalFC, .illegalFD, .illegalFE]

/-- The code the table of R200 gives an outcome. -/
def tableOutcomeCode : JobOutcome → Nat
  | .ok => 0
  | .null => 1
  | .badFile => 2
  | .badDimensions => 3
  | .tooLarge => 4
  | .notGrayscale => 5
  | .badCommand => 6
  | .fault => 7

/-- The code the table of R201 gives a fault reason. -/
def tableReasonCode : FaultReason → Nat
  | .none => 0
  | .underrun => 1
  | .badRef => 2
  | .inLen => 3

/-- Every register of the core holds its reset value, and no element of a memory holds a known one (R39). -/
def State.atResetValues (s : State) : Prop :=
  s.mode = 0 ∧ s.outcome = .null ∧ s.faultReason = .none ∧ s.phase = .idle ∧ s.inLen = 0 ∧ s.outLen = 0
    ∧ s.tileCount = 0 ∧ s.ip = 0 ∧ s.op = 0 ∧ s.psrc = .inMem ∧ s.ptc = 0 ∧ s.tidx = 0
    ∧ s.inMem.cells = [] ∧ s.obuf.cells = [] ∧ s.hbuf.cells = []
    ∧ s.inMem.epoch ≠ s.obuf.epoch ∧ s.inMem.epoch ≠ s.hbuf.epoch ∧ s.obuf.epoch ≠ s.hbuf.epoch

/-- Two ends of a job look the same to the host: STATUS and OUT_LEN agree, and after Ok so do TILE_COUNT, the
valid hues and the output bytes (R37). -/
def sameResult (s t : State) : Prop :=
  s.phase = t.phase ∧ s.outcome = t.outcome ∧ s.faultReason = t.faultReason ∧ s.outLen = t.outLen
    ∧ (s.phase = .idle → s.outcome = .ok →
      s.tileCount = t.tileCount
        ∧ (∀ a, a < 64 * s.tileCount.toNat → s.hbuf.read a = t.hbuf.read a)
        ∧ (∀ a, a < s.outLen.toNat → s.obuf.read a = t.obuf.read a))

end Sys2Proof.Machine

/-! ### Encoding -/

/-- Command bytes written out from the spec's encodings decode to the commands they stand for
(R71, R72, R76, R79, R80; the bytes are those of the spec's own examples). -/
def Obligations.SpecCommandBytesDecode : Prop :=
  decode [0x02#8, 0xAA#8, 0xBB#8, 0xCC#8, 0xFF#8] = .ok (.lit 2#5 [0xAA#8, 0xBB#8, 0xCC#8]) [0xFF#8]
    ∧ decode [0x25#8, 0x07#8] = .ok (.iter 5#5 0x07#8) []
    ∧ decode [0x42#8, 0x12#8, 0x34#8] = .ok (.alt 2#5 0x12#8 0x34#8) []
    ∧ decode [0x62#8] = .ok (.blank 2#5) []
    ∧ decode [0x81#8, 0x81#8] = .ok (.rpt 1#5 (.rel 1#7)) []
    ∧ decode [0x82#8, 0x00#8, 0x01#8] = .ok (.rpt 2#5 (.abs 1#15)) []
    ∧ decode [0xA0#8, 0x80#8] = .ok (.flip 0#5 (.rel 0#7)) []
    ∧ decode [0xC2#8, 0x80#8] = .ok (.rev 2#5 (.rel 0#7)) []
    ∧ decode [0xE0#8, 0x00#8, 0x5A#8] = .ok (.litL 0#10 [0x5A#8]) []
    ∧ decode [0xE5#8, 0x2B#8, 0x07#8] = .ok (.iterL 0x12B#10 0x07#8) []
    ∧ decode [0xED#8, 0x00#8] = .ok (.blankL 0x100#10) []
    ∧ decode [0xF8#8, 0x02#8, 0x82#8] = .ok (.revL 2#10 (.rel 2#7)) []
    ∧ decode [0xFF#8] = .ok .endStream []
    ∧ decode [0xFD#8] = .ok .illegalFD []

/-- Decode and encode agree: the bytes of every well-formed command, with every operand at every value,
decode to that command and leave the bytes after it (R70 to R76, R79, R80). -/
def Obligations.DecodeOfEncode : Prop :=
  ∀ (i : Instr) (rest : List Byte), i.wellFormed = true → decode (encode i ++ rest) = .ok i rest

/-- Encode and decode agree: whatever decodes to a command IS that command's bytes, and the command is
well formed; no byte string has two readings and no bit of it is dropped (R78, R81). -/
def Obligations.EncodeOfDecode : Prop :=
  ∀ (bs : List Byte) (i : Instr) (rest : List Byte),
    decode bs = .ok i rest → i.wellFormed = true ∧ encode i ++ rest = bs

/-- The opcode map (R78): followed by enough bytes, every one of the 256 command bytes decodes to the row
the table gives it, with the length the table gives; and the long-form bytes for command `c` with
length `n` are `0xE0 | (c << 2) | ((n-1) >> 8)` and `(n-1) & 0xFF`. -/
def Obligations.OpcodeMapDecodes : Prop :=
  (∀ (b next : Byte) (rest : List Byte), 1024 ≤ rest.length →
    ∃ i after, decode (b :: next :: rest) = .ok i after
      ∧ i.mnemonic = mapMnemonic b.toNat
      ∧ (dataForm i).map Prod.snd = mapLength b.toNat next.toNat)
  ∧ ∀ (c : BitVec 3) (len : BitVec 10),
      longBytes c len
        = [BitVec.ofNat 8 (0xE0 ||| (c.toNat <<< 2) ||| ((longLen len - 1) >>> 8)),
           BitVec.ofNat 8 ((longLen len - 1) &&& 0xFF)]

/-- The size of every command in bytes is what the table of R77 gives. -/
def Obligations.CommandSizes : Prop :=
  ∀ i : Instr, i.wellFormed = true → (encode i).length = tableSize i

/-- 0xFC, 0xFD and 0xFE in command position are illegal long escapes with LCODE = 7, whatever follows, and
raise BadCommand; every other command byte is a valid command (R80). -/
def Obligations.OnlyNestedLongIsIllegal : Prop :=
  (∀ (b : Byte) (rest : List Byte), b = 0xFC#8 ∨ b = 0xFD#8 ∨ b = 0xFE#8 →
    codeField b = 7#3 ∧ longCodeField b = 7#3 ∧ ∃ i ∈ nestedLongs, decode (b :: rest) = .ok i rest)
  ∧ (∀ (i : Instr) (s : State), i ∈ nestedLongs →
    ∃ t, exec i s = .next t ∧ s.failsWith t 1 .badCommand .none)
  ∧ (∀ (b : Byte) (rest : List Byte), b ≠ 0xFC#8 → b ≠ 0xFD#8 → b ≠ 0xFE#8 → 1025 ≤ rest.length →
    ∃ i after, decode (b :: rest) = .ok i after ∧ i ∉ nestedLongs)

/-- Lengths 1 to 32 have both forms; short and long forms of one length have identical effect (the long one has one more byte fetched), and
so have a relative and an absolute reference that yield the same offset (R82). -/
def Obligations.RedundantFormsAgree : Prop :=
  (∀ l : BitVec 5, ∃ L : BitVec 10, longLen L = shortLen l)
  ∧ (∀ (s : State) (l : BitVec 5) (L : BitVec 10), longLen L = shortLen l →
    (∀ data, exec (.litL L data) s = exec (.lit l data) (s.fetched 1))
    ∧ (∀ v, exec (.iterL L v) s = exec (.iter l v) (s.fetched 1))
    ∧ (∀ b0 b1, exec (.altL L b0 b1) s = exec (.alt l b0 b1) (s.fetched 1))
    ∧ exec (.blankL L) s = exec (.blank l) (s.fetched 1)
    ∧ (∀ d, exec (.rptL L d) s = exec (.rpt l d) (s.fetched 1))
    ∧ (∀ d, exec (.flipL L d) s = exec (.flip l d) (s.fetched 1))
    ∧ (∀ d, exec (.revL L d) s = exec (.rev l d) (s.fetched 1)))
  ∧ (∀ (s : State) (l : BitVec 5) (L : BitVec 10) (d : BitVec 7) (a : BitVec 15),
    backRef s.op.toNat (.rel d) = backRef s.op.toNat (.abs a) →
    s.op.toNat + longLen L ≤ s.cfg.capBytes → s.op.toNat + shortLen l ≤ s.cfg.capBytes →
    exec (.rpt l (.abs a)) s = exec (.rpt l (.rel d)) (s.fetched 1)
    ∧ exec (.flip l (.abs a)) s = exec (.flip l (.rel d)) (s.fetched 1)
    ∧ exec (.rev l (.abs a)) s = exec (.rev l (.rel d)) (s.fetched 1)
    ∧ exec (.rptL L (.abs a)) s = exec (.rptL L (.rel d)) (s.fetched 1)
    ∧ exec (.flipL L (.abs a)) s = exec (.flipL L (.rel d)) (s.fetched 1)
    ∧ exec (.revL L (.abs a)) s = exec (.revL L (.rel d)) (s.fetched 1))

/-! ### The LZ step -/

/-- A step runs the decoded command: in the LZ phase, when what is left of the stream decodes to `i` and the
turn is the engine's, the step is `exec i`, with that turn taken off the agenda (R100). -/
def Obligations.StepRunsDecodedCommand : Prop :=
  ∀ (s : State) (i : Instr) (rest : List Byte),
    s.phase = .lz → s.engineNext → decode s.stream = .ok i rest →
    step s = exec i { s with agenda := s.agenda.tail }

/-- The bytes of a well-formed command standing in IN_MEM at IP, below IN_LEN, make the next step run that
command, whatever stands behind them (R100, R101). -/
def Obligations.CommandAtInputPointerRuns : Prop :=
  ∀ (s : State) (i : Instr), s.phase = .lz → s.engineNext → i.wellFormed = true →
    s.inLen.toNat ≤ s.cfg.inCapBytes → s.ip.toNat + (encode i).length ≤ s.inLen.toNat →
    (∀ k (h : k < (encode i).length), s.inMem.read (s.ip.toNat + k) = (encode i)[k]) →
    step s = exec i { s with agenda := s.agenda.tail }

/-- The machine's LZ step, which decodes a whole command and then executes it, is the spec's `LzStep()`
pseudocode, byte by byte, in every state and on every stream: same checks in the same order, same
registers, same memory (R100, with R101, R103 to R106, R108, R130 to R134, R151 to R155). -/
def Obligations.LzStepIsThePseudocode : Prop :=
  ∀ s : State, s.phase = .lz → s.agenda = [] → s.inLen.toNat ≤ s.cfg.inCapBytes →
    step s = .next (lzPseudo s)

/-- A Fetch at `IP >= IN_LEN` raises UNDERRUN and nothing else happens: with no byte left, the LZ step ends
the job with FAULT, the TileSet as it was (R101, R201, R208). -/
def Obligations.EmptyStreamUnderruns : Prop :=
  ∀ s : State, s.phase = .lz → s.agenda = [] → s.inLen.toNat ≤ s.cfg.inCapBytes →
    s.inLen.toNat ≤ s.ip.toNat →
    ∃ t, step s = .next t ∧ s.failsWith t 0 .fault .underrun

/-- The capacity check (R106): over the capacity, every data command ends with TooLarge after its header
alone is fetched, even where the stream has not all its operand bytes; one that fits, exactly or with
room, does not; and `OP <= CAP_BYTES` holds after every command. -/
def Obligations.CapacityCheckComesFirst : Prop :=
  (∀ (s : State) (i : Instr) (header n : Nat), dataForm i = some (header, n) →
    s.cfg.capBytes < s.op.toNat + n →
    ∃ t, exec i s = .next t ∧ s.failsWith t header .tooLarge .none)
  ∧ (∀ (s : State) (header n emitted : Nat), s.phase = .lz → s.agenda = [] →
    decode s.stream = .noOperandByte header n emitted → s.cfg.capBytes < s.op.toNat + n →
    ∃ t, step s = .next t ∧ s.failsWith t header .tooLarge .none)
  ∧ (∀ (s : State) (i : Instr) (header n : Nat), dataForm i = some (header, n) →
    s.op.toNat + n ≤ s.cfg.capBytes → s.outcome ≠ .tooLarge →
    ∃ t, exec i s = .next t ∧ t.outcome ≠ .tooLarge)
  ∧ (∀ (s t : State) (i : Instr), s.cfg.wf → i.wellFormed = true → s.op.toNat ≤ s.cfg.capBytes →
    exec i s = .next t → t.op.toNat ≤ t.cfg.capBytes)

/-- END (R104, with R181 and R184): it completes in every state whose OP is within the capacity, OUT_LEN
becomes OP, the TileSet is released, and the plane stage is entered on OBUF with OP div 16 tiles, or,
with no whole tile, the job ends at once with Ok. The capacity branch is never taken. -/
def Obligations.EndEntersPlaneStage : Prop :=
  ∀ s : State, s.cfg.wf → s.op.toNat ≤ s.cfg.capBytes →
    ∃ t, exec .endStream s = .next t
      ∧ t = { s with
          ip := s.ip + 1, outLen := s.op, tileCount := 0
          hbuf := { epoch := s.free, cells := [] }, free := s.free + 1
          phase := t.phase, outcome := t.outcome, faultReason := t.faultReason
          psrc := t.psrc, ptc := t.ptc, tidx := t.tidx }
      ∧ (s.op.toNat / 16 = 0 →
          t.phase = .idle ∧ t.outcome = .ok ∧ t.faultReason = .none
            ∧ t.psrc = s.psrc ∧ t.ptc = s.ptc ∧ t.tidx = s.tidx)
      ∧ (0 < s.op.toNat / 16 →
          t.phase = .plane ∧ t.outcome = s.outcome ∧ t.faultReason = s.faultReason
            ∧ t.psrc = .obuf ∧ t.ptc.toNat = s.op.toNat / 16 ∧ t.tidx = 0)

/-! ### The fill commands: each completes wherever it fits, with its exact output and its frame -/

/-- Literal (R130), both forms: its encoding; it copies its data bytes verbatim to the write position; every other byte of OBUF
and every other register stays; with fewer than n bytes left it ends in UNDERRUN. -/
def Obligations.LiteralCopiesItsData : Prop :=
  (∀ (len : BitVec 5) (data : List Byte), encode (.lit len data) = (0b000#3 ++ len : BitVec 8) :: data)
  ∧ (∀ (len : BitVec 10) (data : List Byte),
    encode (.litL len data)
      = (0b111000#6 ++ len.extractLsb' 8 2 : BitVec 8) :: len.extractLsb' 0 8 :: data)
  ∧ (∀ (s : State) (len : BitVec 5) (data : List Byte), s.cfg.wf → data.length = shortLen len →
    s.op.toNat + shortLen len ≤ s.cfg.capBytes →
    ∃ t, exec (.lit len data) s = .next t
      ∧ s.writesRun t (1 + shortLen len) (shortLen len) (fun k => data.getD k 0))
  ∧ (∀ (s : State) (len : BitVec 10) (data : List Byte), s.cfg.wf → data.length = longLen len →
    s.op.toNat + longLen len ≤ s.cfg.capBytes →
    ∃ t, exec (.litL len data) s = .next t
      ∧ s.writesRun t (2 + longLen len) (longLen len) (fun k => data.getD k 0))
  ∧ (∀ (s : State) (len : BitVec 5) (rest : List Byte),
    s.atCommand [shortByte 0#3 len] (shortLen len) rest → rest.length < shortLen len → s.underruns)
  ∧ (∀ (s : State) (len : BitVec 10) (rest : List Byte),
    s.atCommand (longBytes 0#3 len) (longLen len) rest → rest.length < longLen len → s.underruns)

/-- Iterate (R131), both forms: its encoding; it writes its fill byte n times; without the fill byte it ends in UNDERRUN. -/
def Obligations.IterateRepeatsItsByte : Prop :=
  (∀ (len : BitVec 5) (v : Byte), encode (.iter len v) = (0b001#3 ++ len : BitVec 8) :: [v])
  ∧ (∀ (len : BitVec 10) (v : Byte),
    encode (.iterL len v)
      = (0b111001#6 ++ len.extractLsb' 8 2 : BitVec 8) :: len.extractLsb' 0 8 :: [v])
  ∧ (∀ (s : State) (len : BitVec 5) (v : Byte), s.cfg.wf → s.op.toNat + shortLen len ≤ s.cfg.capBytes →
    ∃ t, exec (.iter len v) s = .next t ∧ s.writesRun t 2 (shortLen len) (fun _ => v))
  ∧ (∀ (s : State) (len : BitVec 10) (v : Byte), s.cfg.wf → s.op.toNat + longLen len ≤ s.cfg.capBytes →
    ∃ t, exec (.iterL len v) s = .next t ∧ s.writesRun t 3 (longLen len) (fun _ => v))
  ∧ (∀ (s : State) (len : BitVec 5), s.atCommand [shortByte 1#3 len] (shortLen len) [] → s.underruns)
  ∧ (∀ (s : State) (len : BitVec 10), s.atCommand (longBytes 1#3 len) (longLen len) [] → s.underruns)

/-- Alternate (R132), both forms: its encoding; it writes b0, b1, b0, … for n bytes, and fetches both bytes even when n = 1. -/
def Obligations.AlternateAlternates : Prop :=
  (∀ (len : BitVec 5) (b0 b1 : Byte), encode (.alt len b0 b1) = (0b010#3 ++ len : BitVec 8) :: [b0, b1])
  ∧ (∀ (len : BitVec 10) (b0 b1 : Byte),
    encode (.altL len b0 b1)
      = (0b111010#6 ++ len.extractLsb' 8 2 : BitVec 8) :: len.extractLsb' 0 8 :: [b0, b1])
  ∧ (∀ (s : State) (len : BitVec 5) (b0 b1 : Byte), s.cfg.wf →
    s.op.toNat + shortLen len ≤ s.cfg.capBytes →
    ∃ t, exec (.alt len b0 b1) s = .next t
      ∧ s.writesRun t 3 (shortLen len) (fun k => if k % 2 = 0 then b0 else b1))
  ∧ (∀ (s : State) (len : BitVec 10) (b0 b1 : Byte), s.cfg.wf →
    s.op.toNat + longLen len ≤ s.cfg.capBytes →
    ∃ t, exec (.altL len b0 b1) s = .next t
      ∧ s.writesRun t 4 (longLen len) (fun k => if k % 2 = 0 then b0 else b1))
  ∧ (∀ (s : State) (len : BitVec 5) (rest : List Byte),
    s.atCommand [shortByte 2#3 len] (shortLen len) rest → rest.length < 2 → s.underruns)
  ∧ (∀ (s : State) (len : BitVec 10) (rest : List Byte),
    s.atCommand (longBytes 2#3 len) (longLen len) rest → rest.length < 2 → s.underruns)

/-- Blank (R133), both forms: its encoding; it writes n zero bytes and fetches no operand byte. -/
def Obligations.BlankWritesZeros : Prop :=
  (∀ (len : BitVec 5), encode (.blank len) = (0b011#3 ++ len : BitVec 8) :: [])
  ∧ (∀ (len : BitVec 10),
    encode (.blankL len)
      = (0b111011#6 ++ len.extractLsb' 8 2 : BitVec 8) :: len.extractLsb' 0 8 :: [])
  ∧ (∀ (s : State) (len : BitVec 5), s.cfg.wf → s.op.toNat + shortLen len ≤ s.cfg.capBytes →
    ∃ t, exec (.blank len) s = .next t ∧ s.writesRun t 1 (shortLen len) (fun _ => 0x00#8))
  ∧ (∀ (s : State) (len : BitVec 10), s.cfg.wf → s.op.toNat + longLen len ≤ s.cfg.capBytes →
    ∃ t, exec (.blankL len) s = .next t ∧ s.writesRun t 2 (longLen len) (fun _ => 0x00#8))

/-! ### The back-reference commands -/

/-- Repeat (R153), both forms: its encoding; with a valid offset it completes, and byte k of its output is the byte at
`off + k` of the memory it leaves, bytes it wrote itself included (no byte is written twice, so that is
the byte it read); with an invalid one it ends in BADREF; without its displacement in UNDERRUN. -/
def Obligations.RepeatCopiesForward : Prop :=
  (∀ (len : BitVec 5) (d : Disp), encode (.rpt len d) = (0b100#3 ++ len : BitVec 8) :: dispBytes d)
  ∧ (∀ (len : BitVec 10) (d : Disp),
    encode (.rptL len d)
      = (0b111100#6 ++ len.extractLsb' 8 2 : BitVec 8) :: len.extractLsb' 0 8 :: dispBytes d)
  ∧ (∀ (s : State) (len : BitVec 5) (disp : Disp), s.cfg.wf → s.op.toNat + shortLen len ≤ s.cfg.capBytes →
    0 ≤ backRef s.op.toNat disp → backRef s.op.toNat disp < s.op.toNat →
    ∃ t, exec (.rpt len disp) s = .next t
      ∧ s.writesRun t (1 + dispSize disp) (shortLen len)
          (fun k => t.obuf.read ((backRef s.op.toNat disp).toNat + k)))
  ∧ (∀ (s : State) (len : BitVec 10) (disp : Disp), s.cfg.wf → s.op.toNat + longLen len ≤ s.cfg.capBytes →
    0 ≤ backRef s.op.toNat disp → backRef s.op.toNat disp < s.op.toNat →
    ∃ t, exec (.rptL len disp) s = .next t
      ∧ s.writesRun t (2 + dispSize disp) (longLen len)
          (fun k => t.obuf.read ((backRef s.op.toNat disp).toNat + k)))
  ∧ (∀ (s : State) (l : BitVec 5) (L : BitVec 10) (disp : Disp),
    s.op.toNat + shortLen l ≤ s.cfg.capBytes → s.op.toNat + longLen L ≤ s.cfg.capBytes →
    ¬ (0 ≤ backRef s.op.toNat disp ∧ backRef s.op.toNat disp < s.op.toNat) →
    (∃ t, exec (.rpt l disp) s = .next t ∧ s.failsWith t (1 + dispSize disp) .fault .badRef)
    ∧ ∃ t, exec (.rptL L disp) s = .next t ∧ s.failsWith t (2 + dispSize disp) .fault .badRef)
  ∧ (∀ (s : State) (l : BitVec 5) (L : BitVec 10) (rest : List Byte),
    rest = [] ∨ (∃ d : Byte, rest = [d] ∧ d.toNat < 0x80) →
    (s.atCommand [shortByte 4#3 l] (shortLen l) rest → s.underruns)
    ∧ (s.atCommand (longBytes 4#3 L) (longLen L) rest → s.underruns))

/-- Flip (R154), both forms: its encoding; as Repeat, each byte bit-reversed. -/
def Obligations.FlipCopiesReversedBits : Prop :=
  (∀ (len : BitVec 5) (d : Disp), encode (.flip len d) = (0b101#3 ++ len : BitVec 8) :: dispBytes d)
  ∧ (∀ (len : BitVec 10) (d : Disp),
    encode (.flipL len d)
      = (0b111101#6 ++ len.extractLsb' 8 2 : BitVec 8) :: len.extractLsb' 0 8 :: dispBytes d)
  ∧ (∀ (s : State) (len : BitVec 5) (disp : Disp), s.cfg.wf → s.op.toNat + shortLen len ≤ s.cfg.capBytes →
    0 ≤ backRef s.op.toNat disp → backRef s.op.toNat disp < s.op.toNat →
    ∃ t, exec (.flip len disp) s = .next t
      ∧ s.writesRun t (1 + dispSize disp) (shortLen len)
          (fun k => bitReverse (t.obuf.read ((backRef s.op.toNat disp).toNat + k))))
  ∧ (∀ (s : State) (len : BitVec 10) (disp : Disp), s.cfg.wf → s.op.toNat + longLen len ≤ s.cfg.capBytes →
    0 ≤ backRef s.op.toNat disp → backRef s.op.toNat disp < s.op.toNat →
    ∃ t, exec (.flipL len disp) s = .next t
      ∧ s.writesRun t (2 + dispSize disp) (longLen len)
          (fun k => bitReverse (t.obuf.read ((backRef s.op.toNat disp).toNat + k))))
  ∧ (∀ (s : State) (l : BitVec 5) (L : BitVec 10) (disp : Disp),
    s.op.toNat + shortLen l ≤ s.cfg.capBytes → s.op.toNat + longLen L ≤ s.cfg.capBytes →
    ¬ (0 ≤ backRef s.op.toNat disp ∧ backRef s.op.toNat disp < s.op.toNat) →
    (∃ t, exec (.flip l disp) s = .next t ∧ s.failsWith t (1 + dispSize disp) .fault .badRef)
    ∧ ∃ t, exec (.flipL L disp) s = .next t ∧ s.failsWith t (2 + dispSize disp) .fault .badRef)
  ∧ (∀ (s : State) (l : BitVec 5) (L : BitVec 10) (rest : List Byte),
    rest = [] ∨ (∃ d : Byte, rest = [d] ∧ d.toNat < 0x80) →
    (s.atCommand [shortByte 5#3 l] (shortLen l) rest → s.underruns)
    ∧ (s.atCommand (longBytes 5#3 L) (longLen L) rest → s.underruns))

/-- Reverse (R155), both forms: its encoding; byte k of its output is the byte that stood at `off - k` before it; it never
reads a byte it wrote. -/
def Obligations.ReverseCopiesBackward : Prop :=
  (∀ (len : BitVec 5) (d : Disp), encode (.rev len d) = (0b110#3 ++ len : BitVec 8) :: dispBytes d)
  ∧ (∀ (len : BitVec 10) (d : Disp),
    encode (.revL len d)
      = (0b111110#6 ++ len.extractLsb' 8 2 : BitVec 8) :: len.extractLsb' 0 8 :: dispBytes d)
  ∧ (∀ (s : State) (len : BitVec 5) (disp : Disp), s.cfg.wf → s.op.toNat + shortLen len ≤ s.cfg.capBytes →
    backRef s.op.toNat disp < s.op.toNat → 0 ≤ backRef s.op.toNat disp - ((shortLen len : Int) - 1) →
    ∃ t, exec (.rev len disp) s = .next t
      ∧ s.writesRun t (1 + dispSize disp) (shortLen len)
          (fun k => s.obuf.read ((backRef s.op.toNat disp).toNat - k)))
  ∧ (∀ (s : State) (len : BitVec 10) (disp : Disp), s.cfg.wf → s.op.toNat + longLen len ≤ s.cfg.capBytes →
    backRef s.op.toNat disp < s.op.toNat → 0 ≤ backRef s.op.toNat disp - ((longLen len : Int) - 1) →
    ∃ t, exec (.revL len disp) s = .next t
      ∧ s.writesRun t (2 + dispSize disp) (longLen len)
          (fun k => s.obuf.read ((backRef s.op.toNat disp).toNat - k)))
  ∧ (∀ (s : State) (len : BitVec 5) (disp : Disp), s.op.toNat + shortLen len ≤ s.cfg.capBytes →
    ¬ (0 ≤ backRef s.op.toNat disp ∧ backRef s.op.toNat disp < s.op.toNat
        ∧ 0 ≤ backRef s.op.toNat disp - ((shortLen len : Int) - 1)) →
    ∃ t, exec (.rev len disp) s = .next t ∧ s.failsWith t (1 + dispSize disp) .fault .badRef)
  ∧ (∀ (s : State) (len : BitVec 10) (disp : Disp), s.op.toNat + longLen len ≤ s.cfg.capBytes →
    ¬ (0 ≤ backRef s.op.toNat disp ∧ backRef s.op.toNat disp < s.op.toNat
        ∧ 0 ≤ backRef s.op.toNat disp - ((longLen len : Int) - 1)) →
    ∃ t, exec (.revL len disp) s = .next t ∧ s.failsWith t (2 + dispSize disp) .fault .badRef)
  ∧ (∀ (s : State) (l : BitVec 5) (L : BitVec 10) (rest : List Byte),
    rest = [] ∨ (∃ d : Byte, rest = [d] ∧ d.toNat < 0x80) →
    (s.atCommand [shortByte 6#3 l] (shortLen l) rest → s.underruns)
    ∧ (s.atCommand (longBytes 6#3 L) (longLen L) rest → s.underruns))

/-- Validity (R152): each of the six commands ends in BADREF exactly when SOME read it would make, byte k of
its n, is at an index that is negative or not below the write position at that moment, `P + k`. -/
def Obligations.BadRefIffSomeReadInvalid : Prop :=
  ∀ (s : State) (l : BitVec 5) (L : BitVec 10) (disp : Disp), s.faultReason ≠ .badRef →
    s.op.toNat + shortLen l ≤ s.cfg.capBytes → s.op.toNat + longLen L ≤ s.cfg.capBytes →
    (∀ i ∈ [Instr.rpt l disp, Instr.flip l disp],
      (∃ t, exec i s = .next t ∧ t.faulted ∧ t.faultReason = .badRef)
        ↔ ∃ k : Nat, k < shortLen l ∧ ¬ (0 ≤ backRef s.op.toNat disp + k
            ∧ backRef s.op.toNat disp + k < (s.op.toNat : Int) + k))
    ∧ (∀ i ∈ [Instr.rptL L disp, Instr.flipL L disp],
      (∃ t, exec i s = .next t ∧ t.faulted ∧ t.faultReason = .badRef)
        ↔ ∃ k : Nat, k < longLen L ∧ ¬ (0 ≤ backRef s.op.toNat disp + k
            ∧ backRef s.op.toNat disp + k < (s.op.toNat : Int) + k))
    ∧ ((∃ t, exec (.rev l disp) s = .next t ∧ t.faulted ∧ t.faultReason = .badRef)
        ↔ ∃ k : Nat, k < shortLen l ∧ ¬ (0 ≤ backRef s.op.toNat disp - k
            ∧ backRef s.op.toNat disp - k < (s.op.toNat : Int) + k))
    ∧ ((∃ t, exec (.revL L disp) s = .next t ∧ t.faulted ∧ t.faultReason = .badRef)
        ↔ ∃ k : Nat, k < longLen L ∧ ¬ (0 ≤ backRef s.op.toNat disp - k
            ∧ backRef s.op.toNat disp - k < (s.op.toNat : Int) + k))

/-- The back-reference operand (R151): a first byte of 0x80 or more is relative, `P - (b & 0x7f) - 1`, one
byte; below, it is absolute, `b * 256 + nextByte`, two bytes. The relative form reaches 1 to 128 bytes
behind P, and the absolute form 0 to 0x7FFF. -/
def Obligations.BackReferenceOffset : Prop :=
  (∀ (p header n : Nat) (mk : Disp → Instr) (d : Byte) (rest : List Byte), 0x80 ≤ d.toNat →
    ∃ disp, dispOperand header n mk (d :: rest) = .ok (mk disp) rest
      ∧ backRef p disp = (p : Int) - (d.toNat % 128 : Nat) - 1
      ∧ (p : Int) - 128 ≤ backRef p disp ∧ backRef p disp ≤ (p : Int) - 1)
  ∧ (∀ (p header n : Nat) (mk : Disp → Instr) (d e : Byte) (rest : List Byte), d.toNat < 0x80 →
    ∃ disp, dispOperand header n mk (d :: e :: rest) = .ok (mk disp) rest
      ∧ backRef p disp = (d.toNat * 256 + e.toNat : Nat)
      ∧ 0 ≤ backRef p disp ∧ backRef p disp ≤ 0x7FFF)

/-- REV (R150): bit i of `REV(v)` is bit 7 - i of v; it is its own inverse; and the worked values. -/
def Obligations.BitReversal : Prop :=
  (∀ (v : Byte) (i : Nat), i < 8 → (bitReverse v).getLsbD i = v.getLsbD (7 - i))
  ∧ (∀ v : Byte, bitReverse (bitReverse v) = v)
  ∧ [0x80#8, 0x01#8, 0x0F#8, 0x12#8, 0x55#8, 0x33#8, 0x3C#8, 0xC1#8, 0x96#8, 0x00#8, 0xFF#8].map bitReverse
      = [0x01#8, 0x80#8, 0xF0#8, 0x48#8, 0xAA#8, 0xCC#8, 0x3C#8, 0x83#8, 0x69#8, 0x00#8, 0xFF#8]

/-- Self-overlap (R153, R156, R235): a Repeat from `off = P - d` repeats the last d bytes with period d, however
long it is; and a 1-back Flip alternates REV(v), v, REV(v), … for the last byte v (R154). -/
def Obligations.OverlapRepeatsWithPeriod : Prop :=
  (∀ (s : State) (i : Instr) (n header : Nat) (disp : Disp) (off : Nat), s.cfg.wf →
    (∃ len, i = .rpt len disp) ∨ (∃ len, i = .rptL len disp) → dataForm i = some (header, n) →
    s.op.toNat + n ≤ s.cfg.capBytes → backRef s.op.toNat disp = off → off < s.op.toNat →
    ∃ t, exec i s = .next t
      ∧ ∀ k, k < n → t.obuf.read (s.op.toNat + k) = s.obuf.read (off + k % (s.op.toNat - off)))
  ∧ (∀ (s : State) (i : Instr) (n header : Nat), s.cfg.wf →
    (∃ len, i = .flip len (.rel 0)) ∨ (∃ len, i = .flipL len (.rel 0)) → dataForm i = some (header, n) →
    s.op.toNat + n ≤ s.cfg.capBytes → 0 < s.op.toNat →
    ∃ t, exec i s = .next t
      ∧ ∀ k, k < n → t.obuf.read (s.op.toNat + k)
          = if k % 2 = 0 then bitReverse (s.obuf.read (s.op.toNat - 1)) else s.obuf.read (s.op.toNat - 1))

/-! ### Ends of jobs -/

/-- What a job that fails leaves (R209, R207, R208): after BadCommand, TooLarge or FAULT in the LZ stage the
TileSet is unchanged and OUT_LEN is 0; after a START that ends at once with Null, BadDimensions or FAULT
the TileSet is unchanged; after TooLarge at the plane stage TILE_COUNT is 0 and HBUF holds any value;
and the plane stage writes no OBUF byte. That OBUF is left alone by a plane step is R209's "A RAW-mode
job does not write OBUF"; what the START itself does to OBUF is the model's choice (log entry 8). -/
def Obligations.FailedJobsKeepTheTileSet : Prop :=
  (∀ s t : State, s.Inv → s.phase = .lz → s.agenda = [] → step s = .next t →
    t.outcome = .badCommand ∨ t.outcome = .tooLarge ∨ t.outcome = .fault →
    t.tileCount = s.tileCount ∧ t.hbuf = s.hbuf ∧ t.outLen = 0 ∧ t.phase = .idle)
  ∧ (∀ (s t : State) (w : Word) (rest : List Turn), s.phase = .idle →
    s.agenda = .host (.writeReg .ctrl w) :: rest → ctrlStart w = true → step s = .next t →
    (t.phase = .idle ∧ (t.outcome = .null ∨ t.outcome = .badDimensions ∨ t.outcome = .fault) →
      t.tileCount = s.tileCount ∧ t.hbuf = s.hbuf ∧ t.outLen = 0)
    ∧ (t.outcome = .tooLarge → t.tileCount = 0 ∧ t.hbuf.cells = [] ∧ t.outLen = 0 ∧ t.phase = .idle))
  ∧ (∀ s t : State, s.phase = .plane → s.agenda = [] → step s = .next t → t.obuf = s.obuf)

/-- OUT_LEN (R27): a START sets it to 0; END sets it to OP; a job that fails leaves it 0; and no step gives it
a new value other than 0 but the one that runs END; at reset it is 0. -/
def Obligations.OutLenIsWrittenByStartEndAndFailure : Prop :=
  (∀ (s t : State) (w : Word) (rest : List Turn), s.phase = .idle →
    s.agenda = .host (.writeReg .ctrl w) :: rest → ctrlStart w = true → step s = .next t → t.outLen = 0)
  ∧ (∀ (s t : State) (rest : List Byte), s.phase = .lz → s.engineNext →
    decode s.stream = .ok .endStream rest → step s = .next t → t.outLen = s.op)
  ∧ (∀ s t : State, s.Inv → s.phase ≠ .idle → s.engineNext → step s = .next t →
    t.phase = .idle → t.outcome ≠ .ok → t.outLen = 0)
  ∧ (∀ s t : State, step s = .next t → t.outLen ≠ s.outLen →
    t.outLen = 0 ∨ (s.phase = .lz ∧ s.engineNext ∧ t.outLen = s.op
      ∧ ∃ rest, decode s.stream = .ok .endStream rest))
  ∧ State.reset.outLen = 0

/-- TILE_COUNT (R28): the engine writes it in two places only, 0 at the plane stage's release and the decoded
tile count when the plane stage ends with Ok; of the host's moves only reset and a RAW START (which
enters the plane stage) change it, both to 0. -/
def Obligations.TileCountIsWrittenInTwoPlaces : Prop :=
  ∀ s t : State, step s = .next t → t.tileCount ≠ s.tileCount →
    (s.engineNext ∧ s.phase = .lz ∧ t.tileCount = 0 ∧ ∃ rest, decode s.stream = .ok .endStream rest)
    ∨ (s.engineNext ∧ s.phase = .plane ∧ t.tileCount = s.ptc ∧ t.phase = .idle ∧ t.outcome = .ok)
    ∨ (t.tileCount = 0 ∧ (s.agenda.head? = some (.host .reset)
        ∨ ∃ w, s.agenda.head? = some (.host (.writeReg .ctrl w)) ∧ ctrlStart w = true ∧ ctrlMode w = 0
            ∧ s.phase = .idle))

/-- BadFile and NotGrayscale are never written by the core (R203). -/
def Obligations.NeverBadFileNorNotGrayscale : Prop :=
  ∀ s t : State, step s = .next t →
    (t.outcome = .badFile → s.outcome = .badFile) ∧ (t.outcome = .notGrayscale → s.outcome = .notGrayscale)

/-! ### The plane decoder -/

/-- `PlaneStep` (R182): one tile per step; pixel i of row j of tile TIDX gets hue `2*hi[7-i] + lo[7-i]`, at
index `64t + 8j + i`, from the bytes `16t + 2j` (low) and `16t + 2j + 1` (high) of PSRC; after the last
tile TILE_COUNT becomes PTC and the job ends with Ok; every other hue and register stays. It completes
in every state of a running job. -/
def Obligations.PlaneStepDecodesOneTile : Prop :=
  ∀ s : State, s.Inv → s.phase = .plane → s.agenda = [] →
    ∃ t, step s = .next t
      ∧ (∀ i j, i < 8 → j < 8 →
          (t.hbuf.read (64 * s.tidx.toNat + 8 * j + i)).toNat
            = 2 * ((s.planeByte (16 * s.tidx.toNat + 2 * j + 1)).getLsbD (7 - i)).toNat
              + ((s.planeByte (16 * s.tidx.toNat + 2 * j)).getLsbD (7 - i)).toNat)
      ∧ (∀ a, a < 64 * s.tidx.toNat ∨ 64 * s.tidx.toNat + 64 ≤ a → t.hbuf.read a = s.hbuf.read a)
      ∧ t = { s with
          hbuf := t.hbuf, tidx := s.tidx + 1, tileCount := t.tileCount
          phase := t.phase, outcome := t.outcome, faultReason := t.faultReason }
      ∧ (s.tidx.toNat + 1 = s.ptc.toNat →
          t.tileCount = s.ptc ∧ t.outcome = .ok ∧ t.faultReason = .none ∧ t.phase = .idle)
      ∧ (s.tidx.toNat + 1 ≠ s.ptc.toNat →
          t.tileCount = s.tileCount ∧ t.outcome = s.outcome ∧ t.faultReason = s.faultReason
            ∧ t.phase = .plane)

/-- `EnterPlane` (R181): the release comes first, TILE_COUNT 0 and every hue any value, even where the
capacity check then fails with TooLarge; no whole tile gives Ok at once; otherwise the plane stage starts. -/
def Obligations.EnterPlaneReleasesFirst : Prop :=
  ∀ (src : PlaneSource) (len : Nat) (s : State), s.cfg.wf →
    ∃ t, enterPlane src len s = t
      ∧ t = { s with
          tileCount := 0, hbuf := { epoch := s.free, cells := [] }, free := s.free + 1
          phase := t.phase, outcome := t.outcome, faultReason := t.faultReason
          psrc := t.psrc, ptc := t.ptc, tidx := t.tidx }
      ∧ (s.cfg.capacityTiles < len / 16 →
          t.outcome = .tooLarge ∧ t.faultReason = .none ∧ t.phase = .idle)
      ∧ (len / 16 = 0 → t.outcome = .ok ∧ t.faultReason = .none ∧ t.phase = .idle)
      ∧ (0 < len / 16 → len / 16 ≤ s.cfg.capacityTiles →
          t.psrc = src ∧ t.ptc.toNat = len / 16 ∧ t.tidx = 0 ∧ t.phase = .plane
            ∧ t.outcome = s.outcome ∧ t.faultReason = s.faultReason)

/-- A START with MODE = 0 (R180): INLEN, then BadDimensions, then the plane stage's own checks, in that order;
the prior TileSet is kept in the first two cases. -/
def Obligations.RawStartChecksInOrder : Prop :=
  ∀ (s : State) (w : Word) (rest : List Turn), s.cfg.wf → s.phase = .idle →
    s.agenda = .host (.writeReg .ctrl w) :: rest → ctrlStart w = true → ctrlMode w = 0 →
    ∃ t, step s = .next t
      ∧ t = { s with
          mode := 0, outLen := 0, agenda := rest, tileCount := t.tileCount, hbuf := t.hbuf, obuf := t.obuf
          free := t.free, phase := t.phase, outcome := t.outcome, faultReason := t.faultReason
          psrc := t.psrc, ptc := t.ptc, tidx := t.tidx }
      ∧ (s.cfg.inCapBytes < s.inLen.toNat →
          t.faulted ∧ t.faultReason = .inLen ∧ t.tileCount = s.tileCount ∧ t.hbuf = s.hbuf)
      ∧ (s.inLen.toNat ≤ s.cfg.inCapBytes → s.inLen.toNat % 16 ≠ 0 →
          t.phase = .idle ∧ t.outcome = .badDimensions ∧ t.faultReason = .none
            ∧ t.tileCount = s.tileCount ∧ t.hbuf = s.hbuf)
      ∧ (s.inLen.toNat ≤ s.cfg.inCapBytes → s.inLen.toNat % 16 = 0 →
          t.tileCount = 0 ∧ t.hbuf.cells = [] ∧ t.faultReason = .none
            ∧ (s.cfg.capacityTiles < s.inLen.toNat / 16 → t.phase = .idle ∧ t.outcome = .tooLarge)
            ∧ (s.inLen.toNat = 0 → t.phase = .idle ∧ t.outcome = .ok)
            ∧ (0 < s.inLen.toNat → s.inLen.toNat / 16 ≤ s.cfg.capacityTiles →
                t.phase = .plane ∧ t.psrc = .inMem ∧ t.ptc.toNat = s.inLen.toNat / 16 ∧ t.tidx = 0))

/-- The plane stage (R183): from its first tile, PTC steps end the job with Ok and TILE_COUNT = PTC, and the
hue at index `64t + 8j + i` is that of pixel i of row j of tile t, for every tile. -/
def Obligations.PlaneStageDecodesEveryTile : Prop :=
  ∀ s : State, s.Inv → s.phase = .plane → s.agenda = [] → s.tidx = 0 →
    ∃ t, core.run s.ptc.toNat s = .next t ∧ t.succeeded ∧ t.tileCount = s.ptc
      ∧ ∀ n i j, n < s.ptc.toNat → i < 8 → j < 8 →
          (t.hbuf.read (64 * n + 8 * j + i)).toNat
            = 2 * ((s.planeByte (16 * n + 2 * j + 1)).getLsbD (7 - i)).toNat
              + ((s.planeByte (16 * n + 2 * j)).getLsbD (7 - i)).toNat

/-- A whole RAW job (R180 to R183): a START write with MODE = 0 and a length that is a multiple of 16 within
the capacity ends, after one step for the write and one for each tile, with Ok, `IN_LEN / 16` tiles,
OUT_LEN 0, and every hue as the plane format says. -/
def Obligations.RawJobDecodesItsInput : Prop :=
  ∀ (s : State) (w : Word), s.Inv → s.phase = .idle → s.agenda = [.host (.writeReg .ctrl w)] →
    ctrlStart w = true → ctrlMode w = 0 → s.inLen.toNat ≤ s.cfg.inCapBytes → s.inLen.toNat % 16 = 0 →
    s.inLen.toNat / 16 ≤ s.cfg.capacityTiles →
    ∃ t, core.run (1 + s.inLen.toNat / 16) s = .next t ∧ t.succeeded
      ∧ t.tileCount.toNat = s.inLen.toNat / 16 ∧ t.outLen = 0
      ∧ ∀ n i j, n < s.inLen.toNat / 16 → i < 8 → j < 8 →
          (t.hbuf.read (64 * n + 8 * j + i)).toNat
            = 2 * ((s.inMem.read (16 * n + 2 * j + 1)).getLsbD (7 - i)).toNat
              + ((s.inMem.read (16 * n + 2 * j)).getLsbD (7 - i)).toNat

/-- The compressed entry (R184, R185): from END on, the job always ends with Ok, after one step for END and one
for each whole tile; the last `OP mod 16` bytes are dropped, and OUT_LEN and OBUF still hold them. -/
def Obligations.CompressedEntryTruncates : Prop :=
  ∀ (s : State) (rest : List Byte), s.Inv → s.phase = .lz → s.agenda = [] →
    decode s.stream = .ok .endStream rest →
    ∃ t, core.run (1 + s.op.toNat / 16) s = .next t ∧ t.succeeded
      ∧ t.tileCount.toNat = s.op.toNat / 16 ∧ t.outLen = s.op ∧ t.obuf = s.obuf
      ∧ ∀ n i j, n < s.op.toNat / 16 → i < 8 → j < 8 →
          (t.hbuf.read (64 * n + 8 * j + i)).toNat
            = 2 * ((s.obuf.read (16 * n + 2 * j + 1)).getLsbD (7 - i)).toNat
              + ((s.obuf.read (16 * n + 2 * j)).getLsbD (7 - i)).toNat

/-- What Flip and Reverse do to a whole tile (R154, R155 with R182): bit-reversing its 16 bytes mirrors every
row left to right; reversing their order reverses the rows and exchanges hues 1 and 2. -/
def Obligations.FlipMirrorsAndReverseTurnsATile : Prop :=
  ∀ (byte : Nat → Byte) (i j : Nat), i < 8 → j < 8 →
    (tileHues fun k => bitReverse (byte k))[8 * j + i]? = (tileHues byte)[8 * j + (7 - i)]?
    ∧ (tileHues fun k => byte (15 - k))[8 * j + i]?
        = ((tileHues byte)[8 * (7 - j) + i]?).map fun h => if h = 1 then 2 else if h = 2 then 1 else h

/-! ### The host -/

/-- A host write to CTRL (R25): ignored while a job runs; without START it sets MODE and nothing else; with
START it sets MODE, STATUS reads Null with no fault, OUT_LEN is 0, and: MODE 0 is `StartRaw`, MODE 1
faults with INLEN or enters the LZ phase at IP = OP = 0, MODE 2 and 3 end at once with Null, with
nothing else changed. What a START leaves in OBUF is not said here (log entry 8). -/
def Obligations.CtrlWriteStartsJobs : Prop :=
  ∀ (s : State) (w : Word) (rest : List Turn), s.agenda = .host (.writeReg .ctrl w) :: rest →
    (s.phase ≠ .idle → step s = .next { s with agenda := rest })
    ∧ (s.phase = .idle → ctrlStart w = false →
        step s = .next { s with agenda := rest, mode := w.extractLsb' 0 2 })
    ∧ (s.phase = .idle → ctrlStart w = true → (w.extractLsb' 0 2).toNat = 0 →
        ∃ u, u = { s with
            agenda := rest, mode := 0, outcome := .null, faultReason := .none, outLen := 0
            obuf := u.obuf, free := u.free }
          ∧ step s = .next (startRaw u))
    ∧ (s.phase = .idle → ctrlStart w = true → (w.extractLsb' 0 2).toNat = 1 →
        s.cfg.inCapBytes < s.inLen.toNat →
        ∃ t, step s = .next t
          ∧ t = { s with
              agenda := rest, mode := 1, outcome := .fault, faultReason := .inLen, outLen := 0
              obuf := t.obuf, free := t.free }
          ∧ t.obuf.cells = [])
    ∧ (s.phase = .idle → ctrlStart w = true → (w.extractLsb' 0 2).toNat = 1 →
        s.inLen.toNat ≤ s.cfg.inCapBytes →
        ∃ t, step s = .next t
          ∧ t = { s with
              agenda := rest, mode := 1, outcome := .null, faultReason := .none, outLen := 0
              ip := 0, op := 0, phase := .lz, obuf := t.obuf, free := t.free })
    ∧ (s.phase = .idle → ctrlStart w = true → 2 ≤ (w.extractLsb' 0 2).toNat →
        step s = .next { s with
          agenda := rest, mode := w.extractLsb' 0 2, outcome := .null, faultReason := .none, outLen := 0 })

/-- The host's other writes: while idle, IN_LEN takes any value and a byte of IN_MEM is stored at its index,
with nothing else changed (R26, R50, R57); and a write to STATUS, OUT_LEN or TILE_COUNT, at any time,
changes nothing, which is the model's reading of "read only" (log entry 7). -/
def Obligations.HostWritesItsInput : Prop :=
  (∀ (s : State) (w : Word) (rest : List Turn), s.phase = .idle →
    s.agenda = .host (.writeReg .inLen w) :: rest → step s = .next { s with agenda := rest, inLen := w })
  ∧ (∀ (s : State) (a : Nat) (v : Byte) (rest : List Turn), s.phase = .idle →
    s.agenda = .host (.writeInMem a v) :: rest → a < s.cfg.inCapBytes →
    ∃ t, step s = .next t ∧ t = { s with agenda := rest, inMem := t.inMem }
      ∧ t.inMem.read a = v ∧ ∀ b, b ≠ a → t.inMem.read b = s.inMem.read b)
  ∧ (∀ (s : State) (r : HostReg) (w : Word) (rest : List Turn), r = .status ∨ r = .outLen ∨ r = .tileCount →
    s.agenda = .host (.writeReg r w) :: rest → step s = .next { s with agenda := rest })

/-- No read of any space or register has a side effect (R57): a host read changes what the host has read and
nothing of the core. -/
def Obligations.HostReadsHaveNoSideEffect : Prop :=
  ∀ (s t : State) (m : HostMove) (rest : List Turn),
    (∃ r, m = .readReg r) ∨ (∃ a, m = .readInMem a) ∨ (∃ a, m = .readObuf a) ∨ (∃ a, m = .readHbuf a) →
    s.agenda = .host m :: rest → step s = .next t →
    t = { s with agenda := rest, hostData := t.hostData, free := t.free }

/-- What a host read of STATUS and CTRL returns (R23, R24, R31, R200, R201): OUTCOME in bits 2 to 0 by its code,
while idle; FAULT_REASON in bits 5 to 4 by its code, always; BUSY in bit 3, the true value always (R61,
R236); all other bits 0; CTRL reads MODE in bits 1 to 0 and 0 elsewhere, START included, always. That
FAULT_REASON and MODE read what is held WHILE BUSY too is the model's choice, which no rule says (log
entry 13, DEDUCED, unsafe). -/
def Obligations.StatusAndCtrlReadTheirFields : Prop :=
  (∀ (s : State) (rest : List Turn), s.agenda = .host (.readReg .status) :: rest →
    ∃ t, step s = .next t
      ∧ (t.hostData.getLsbD 3 = true ↔ s.phase ≠ .idle)
      ∧ t.hostData.toNat < 64
      ∧ t.hostData.toNat / 16 = tableReasonCode s.faultReason
      ∧ (s.phase = .idle → t.hostData.toNat % 8 = tableOutcomeCode s.outcome))
  ∧ (∀ (s : State) (rest : List Turn), s.agenda = .host (.readReg .ctrl) :: rest →
    ∃ t, step s = .next t ∧ t.hostData.toNat = s.mode.toNat)

/-- What the other host reads return while the core is idle (R26 to R28, R50 to R52, R61): the register, or the
element at the index, within the memory and, for HBUF, within the TileSet. -/
def Obligations.IdleReadsReturnWhatIsHeld : Prop :=
  ∀ (s : State) (rest : List Turn), s.phase = .idle →
    (s.agenda = .host (.readReg .inLen) :: rest → ∃ t, step s = .next t ∧ t.hostData = s.inLen)
    ∧ (s.agenda = .host (.readReg .outLen) :: rest → ∃ t, step s = .next t ∧ t.hostData = s.outLen)
    ∧ (s.agenda = .host (.readReg .tileCount) :: rest → ∃ t, step s = .next t ∧ t.hostData = s.tileCount)
    ∧ (∀ a, s.agenda = .host (.readInMem a) :: rest → a < s.cfg.inCapBytes →
        ∃ t, step s = .next t ∧ t.hostData.toNat = (s.inMem.read a).toNat)
    ∧ (∀ a, s.agenda = .host (.readObuf a) :: rest → a < s.cfg.capBytes →
        ∃ t, step s = .next t ∧ t.hostData.toNat = (s.obuf.read a).toNat)
    ∧ (∀ a, s.agenda = .host (.readHbuf a) :: rest → a < s.cfg.hueCount → a < 64 * s.tileCount.toNat →
        ∃ t, step s = .next t ∧ t.hostData.toNat = (s.hbuf.read a).toNat)

/-- The moves the model does not give the host (R59, R61, R236): a write of IN_LEN or IN_MEM while BUSY, and
an access beyond a memory's size. -/
def Obligations.ForbiddenHostMovesAreRefused : Prop :=
  ∀ (s : State) (rest : List Turn),
    (∀ w, s.agenda = .host (.writeReg .inLen w) :: rest → s.phase ≠ .idle →
        step s = .refused .hostWritesWhileBusy)
    ∧ (∀ a v, s.agenda = .host (.writeInMem a v) :: rest → s.phase ≠ .idle →
        step s = .refused .hostWritesWhileBusy)
    ∧ (∀ a v, s.agenda = .host (.writeInMem a v) :: rest → s.phase = .idle → s.cfg.inCapBytes ≤ a →
        step s = .refused .hostBeyondMemory)
    ∧ (∀ a, s.agenda = .host (.readInMem a) :: rest → s.cfg.inCapBytes ≤ a →
        step s = .refused .hostBeyondMemory)
    ∧ (∀ a, s.agenda = .host (.readObuf a) :: rest → s.cfg.capBytes ≤ a →
        step s = .refused .hostBeyondMemory)
    ∧ (∀ a, s.agenda = .host (.readHbuf a) :: rest → s.cfg.hueCount ≤ a →
        step s = .refused .hostBeyondMemory)

/-- Reset (R39, R230, R231): the state after power-on has every reset value, and the reset event, in any state,
a running job included, gives every register its reset value, makes each memory any value, a fresh draw
of its own, and keeps the parameters (R233). -/
def Obligations.ResetGivesEveryResetValue : Prop :=
  State.reset.atResetValues
  ∧ ∀ (s : State) (rest : List Turn), s.agenda = .host .reset :: rest →
      ∃ t, step s = .next t ∧ t.atResetValues ∧ t.cfg = s.cfg ∧ t.agenda = rest ∧ t.free = s.free + 3
        ∧ s.free ≤ t.inMem.epoch ∧ s.free ≤ t.obuf.epoch ∧ s.free ≤ t.hbuf.epoch

/-- While idle the engine takes no step, and all state survives (R213). -/
def Obligations.IdleEngineTakesNoStep : Prop :=
  ∀ s : State, s.phase = .idle → s.engineNext → step s = .next { s with agenda := s.agenda.tail }

/-! ### The whole machine -/

/-- The state after reset meets the invariant. -/
def Obligations.ResetMeetsTheInvariant : Prop := State.reset.Inv

/-- Every step, of either agent, keeps the invariant: TILE_COUNT, OP and OUT_LEN within the capacity (R28, R30,
R27), BadFile and NotGrayscale never reported (R203), FAULT_REASON nonzero only with FAULT (R201), the
memories canonical and within their bounds, and a running job's registers as the spec says. -/
def Obligations.EveryStepKeepsTheInvariant : Prop :=
  ∀ s t : State, s.Inv → step s = .next t → t.Inv

/-- A running machine never stops by itself (R182, R109): from a state that meets the invariant no step is a
fault, and the engine's turn always answers a next state: no stream and no data stop it. -/
def Obligations.EngineNeverStops : Prop :=
  ∀ s : State, s.Inv → (∀ r, step s ≠ .fault r) ∧ (s.engineNext → ∃ t, step s = .next t)

/-- CAPACITY_TILES and IN_CAP_BYTES are no registers: software cannot change them (R233). Nor do the two other
arguments of the model change, REG_MAP and HBUF_PACKING (R9), which `cfg` holds beside them. -/
def Obligations.ParametersNeverChange : Prop :=
  ∀ s t : State, step s = .next t → t.cfg = s.cfg

/-- The engine only reads the input (R50, R63): its turn changes neither IN_MEM nor IN_LEN nor CTRL.MODE, so the
command stream of a running job never changes. -/
def Obligations.EngineNeverWritesItsInput : Prop :=
  ∀ s t : State, s.engineNext → step s = .next t →
    t.inMem = s.inMem ∧ t.inLen = s.inLen ∧ t.mode = s.mode

/-- IP (R29, R109): an LZ step never moves it backward and never beyond IN_LEN, and a step after which the job
still runs has moved it forward. -/
def Obligations.InputPointerOnlyAdvances : Prop :=
  ∀ s t : State, s.Inv → s.phase = .lz → s.agenda = [] → step s = .next t →
    s.ip.toNat ≤ t.ip.toNat ∧ t.ip.toNat ≤ s.inLen.toNat ∧ (t.phase ≠ .idle → s.ip.toNat < t.ip.toNat)

/-- Every job ends (R239, R109): from any state of a running job, within IN_LEN + CAPACITY_TILES engine steps
the core is idle. (R109's own count of LZ steps is one short for a stream that ends without END: log
entry 11; the sum holds.) -/
def Obligations.EveryJobEnds : Prop :=
  ∀ s : State, s.Inv → s.agenda = [] →
    ∃ k t, k ≤ s.inLen.toNat + s.cfg.capacityTiles ∧ core.run k s = .next t ∧ t.phase = .idle

/-- A job's result depends only on CTRL.MODE, the input bytes and the parameters (R37, R38): two idle cores that
agree on these, and on nothing else, run the same START to the same result, step by step, whatever the
earlier jobs left in OBUF, HBUF and the registers. -/
def Obligations.ResultDependsOnlyOnTheInput : Prop :=
  ∀ (s t : State) (w : Word), s.Inv → t.Inv → s.phase = .idle → t.phase = .idle →
    s.agenda = [.host (.writeReg .ctrl w)] → t.agenda = [.host (.writeReg .ctrl w)] → ctrlStart w = true →
    s.cfg = t.cfg → s.inLen = t.inLen → (∀ a, a < s.inLen.toNat → s.inMem.read a = t.inMem.read a) →
    ∀ k, ∃ s' t', core.run (k + 1) s = .next s' ∧ core.run (k + 1) t = .next t' ∧ sameResult s' t'

/-- No rule depends on REG_MAP or HBUF_PACKING (R9, R53): behind any other bus map and any other packing a step
does the same, to the same fault or refusal or to the same next state behind that bus. -/
def Obligations.NoRuleDependsOnTheBusMap : Prop :=
  ∀ (s : State) (m : RegMap) (p : HbufPacking),
    (∀ t, step s = .next t → step (s.onBus m p) = .next (t.onBus m p))
    ∧ (∀ r, step s = .fault r → step (s.onBus m p) = .fault r)
    ∧ (∀ r, step s = .refused r → step (s.onBus m p) = .refused r)
end

