-- ==== Sys2Proof/Laws/Decode.lean ====
section
/-! SUPPORT. The pieces of decoding and encoding: the fields of the header bytes that the encoder makes, the
operands, and the lengths. -/

namespace Sys2Proof

/-! ### Header bytes -/

@[simp] theorem codeField_shortByte (c : BitVec 3) (len : BitVec 5) : codeField (shortByte c len) = c := by
  revert c len; decide

@[simp] theorem lenField_shortByte (c : BitVec 3) (len : BitVec 5) : lenField (shortByte c len) = len := by
  revert c len; decide

/-- A command byte is its CODE and its LEN5 (R71). -/
theorem shortByte_fields (b : Byte) : shortByte (codeField b) (lenField b) = b := by
  revert b; decide

theorem shortByte_ne_sentinel {c : BitVec 3} (len : BitVec 5) (h : c ≠ 7#3) : shortByte c len ≠ 0xFF#8 := by
  revert c len; decide

/-- The first byte of the long header (R72). -/
def longByte (c : BitVec 3) (hi : BitVec 2) : Byte := 7#3 ++ c ++ hi

theorem longBytes_eq (c : BitVec 3) (len : BitVec 10) :
    longBytes c len = [longByte c (len.extractLsb' 8 2), len.extractLsb' 0 8] := rfl

theorem codeField_longByte (c : BitVec 3) (hi : BitVec 2) : codeField (longByte c hi) = 7#3 := by
  revert c hi; decide

theorem longCodeField_longByte (c : BitVec 3) (hi : BitVec 2) : longCodeField (longByte c hi) = c := by
  revert c hi; decide

theorem lenHiField_longByte (c : BitVec 3) (hi : BitVec 2) : lenHiField (longByte c hi) = hi := by
  revert c hi; decide

theorem longByte_ne_sentinel {c : BitVec 3} (hi : BitVec 2) (h : c ≠ 7#3) : longByte c hi ≠ 0xFF#8 := by
  revert c hi; decide

/-- A long command byte is the escape, its LCODE and its LENHI (R72). -/
theorem longByte_fields {b : Byte} (h : codeField b = 7#3) : longByte (longCodeField b) (lenHiField b) = b := by
  revert b; decide

/-- Two fields put together, as a number. -/
theorem append_byte_toNat {m : Nat} (x : BitVec m) (y : Byte) : (x ++ y).toNat = x.toNat * 256 + y.toNat := by
  rw [BitVec.toNat_append, Nat.shiftLeft_eq, Nat.mul_comm, ← Nat.two_pow_add_eq_or_of_lt y.isLt]

/-- The ten bits of a long length are its two fields together (R72, R74). -/
theorem long_len_split (len : BitVec 10) : len.extractLsb' 8 2 ++ len.extractLsb' 0 8 = len := by
  ext i hi
  simp only [BitVec.getElem_append, BitVec.getElem_extractLsb']
  split
  · simp [BitVec.getLsbD_eq_getElem, hi]
  · rw [show 8 + (i - 8) = i by omega, BitVec.getLsbD_eq_getElem hi]

theorem long_len_hi (h : BitVec 2) (l : Byte) : (h ++ l : BitVec 10).extractLsb' 8 2 = h := by
  apply BitVec.eq_of_toNat_eq
  have := append_byte_toNat h l
  simp only [BitVec.extractLsb'_toNat, this, Nat.shiftRight_eq_div_pow]
  have := h.isLt; have := l.isLt
  omega

theorem long_len_lo (h : BitVec 2) (l : Byte) : (h ++ l : BitVec 10).extractLsb' 0 8 = l := by
  apply BitVec.eq_of_toNat_eq
  have := append_byte_toNat h l
  simp only [BitVec.extractLsb'_toNat, this, Nat.shiftRight_eq_div_pow]
  have := l.isLt
  omega

/-- The long length as R74 computes it. -/
theorem long_len_toNat (h : BitVec 2) (l : Byte) : (h ++ l : BitVec 10).toNat = h.toNat * 256 + l.toNat :=
  append_byte_toNat h l

theorem shortLen_le (len : BitVec 5) : shortLen len ≤ 32 := by
  have := len.isLt; unfold shortLen; omega

theorem longLen_le (len : BitVec 10) : longLen len ≤ 1024 := by
  have := len.isLt; unfold longLen; omega

/-! ### Decoding by header -/

theorem decode_shortByte {c : BitVec 3} (h : c ≠ 7#3) (len : BitVec 5) (bs : List Byte) :
    decode (shortByte c len :: bs) = decodeShort c len bs := by
  simp [decode, shortByte_ne_sentinel len h, h]

theorem decode_longByte {c : BitVec 3} (h : c ≠ 7#3) (hi : BitVec 2) (l : Byte) (bs : List Byte) :
    decode (longByte c hi :: l :: bs) = decodeLong c (hi ++ l) bs := by
  simp [decode, longByte_ne_sentinel hi h, codeField_longByte, longCodeField_longByte, h, lenHiField_longByte]

theorem decode_longByte_nil {c : BitVec 3} (h : c ≠ 7#3) (hi : BitVec 2) :
    decode [longByte c hi] = .noLengthByte := by
  simp [decode, longByte_ne_sentinel hi h, codeField_longByte, longCodeField_longByte, h]

theorem decode_longBytes {c : BitVec 3} (h : c ≠ 7#3) (len : BitVec 10) (bs : List Byte) :
    decode (longBytes c len ++ bs) = decodeLong c len bs := by
  rw [longBytes_eq]
  simp only [List.cons_append, List.nil_append]
  rw [decode_longByte h, long_len_split]

/-! ### Operands -/

theorem takeData_append (data rest : List Byte) : takeData data.length (data ++ rest) = some (data, rest) := by
  induction data with
  | nil => simp [takeData]
  | cons b data ih => simp [takeData, ih]

theorem takeData_some {n : Nat} {bs data rest : List Byte} (h : takeData n bs = some (data, rest)) :
    data.length = n ∧ data ++ rest = bs := by
  induction n generalizing bs data with
  | zero => simp only [takeData, Option.some.injEq, Prod.mk.injEq] at h; simp [← h.1, h.2]
  | succ n ih =>
    cases bs with
    | nil => simp [takeData] at h
    | cons b bs =>
      simp only [takeData, Option.map_eq_some_iff, Prod.exists, Prod.mk.injEq] at h
      obtain ⟨d, r, hd, rfl, rfl⟩ := h
      obtain ⟨h1, h2⟩ := ih hd
      simp [h1, h2]

theorem takeData_none {n : Nat} {bs : List Byte} (h : bs.length < n) : takeData n bs = none := by
  induction n generalizing bs with
  | zero => omega
  | succ n ih =>
    cases bs with
    | nil => rfl
    | cons b bs => simp only [List.length_cons] at h; simp [takeData, ih (by omega : bs.length < n)]

theorem takeData_isSome {n : Nat} {bs : List Byte} (h : n ≤ bs.length) :
    takeData n bs = some (bs.take n, bs.drop n) := by
  induction n generalizing bs with
  | zero => simp [takeData]
  | succ n ih =>
    cases bs with
    | nil => simp at h
    | cons b bs => simp only [List.length_cons] at h; simp [takeData, ih (by omega : n ≤ bs.length)]

theorem dispByte_rel_bit (d : BitVec 7) : (1#1 ++ d : BitVec 8).getLsbD 7 = true := by revert d; decide

theorem dispByte_rel_field (d : BitVec 7) : (1#1 ++ d : BitVec 8).extractLsb' 0 7 = d := by revert d; decide

theorem dispByte_abs_bit (d : BitVec 7) : (0#1 ++ d : BitVec 8).getLsbD 7 = false := by revert d; decide

theorem dispByte_abs_field (d : BitVec 7) : (0#1 ++ d : BitVec 8).extractLsb' 0 7 = d := by revert d; decide

/-- A displacement byte with bit 7 set is the relative one of its low bits (R76). -/
theorem dispByte_rel {d : Byte} (h : d.getLsbD 7 = true) : (1#1 ++ d.extractLsb' 0 7 : BitVec 8) = d := by
  revert d; decide

/-- A displacement byte with bit 7 clear is the first byte of the absolute form (R76). -/
theorem dispByte_abs {d : Byte} (h : d.getLsbD 7 = false) : (0#1 ++ d.extractLsb' 0 7 : BitVec 8) = d := by
  revert d; decide

theorem abs_split (a : BitVec 15) : a.extractLsb' 8 7 ++ a.extractLsb' 0 8 = a := by
  ext i hi
  simp only [BitVec.getElem_append, BitVec.getElem_extractLsb']
  split
  · simp [BitVec.getLsbD_eq_getElem, hi]
  · rw [show 8 + (i - 8) = i by omega, BitVec.getLsbD_eq_getElem hi]

theorem abs_hi (h : BitVec 7) (l : Byte) : (h ++ l : BitVec 15).extractLsb' 8 7 = h := by
  apply BitVec.eq_of_toNat_eq
  have := append_byte_toNat h l
  simp only [BitVec.extractLsb'_toNat, this, Nat.shiftRight_eq_div_pow]
  have := h.isLt; have := l.isLt
  omega

theorem abs_lo (h : BitVec 7) (l : Byte) : (h ++ l : BitVec 15).extractLsb' 0 8 = l := by
  apply BitVec.eq_of_toNat_eq
  have := append_byte_toNat h l
  simp only [BitVec.extractLsb'_toNat, this, Nat.shiftRight_eq_div_pow]
  have := l.isLt
  omega

/-- The absolute offset as R151 computes it: `b * 256 + nextByte`. -/
theorem abs_toNat {d : Byte} (h : d.getLsbD 7 = false) (e : Byte) :
    (d.extractLsb' 0 7 ++ e : BitVec 15).toNat = d.toNat * 256 + e.toNat := by
  have hd : (d.extractLsb' 0 7).toNat = d.toNat := by revert d; decide
  exact (append_byte_toNat _ e).trans (by rw [hd])

theorem dispOperand_dispBytes (header n : Nat) (mk : Disp → Instr) (disp : Disp) (rest : List Byte) :
    dispOperand header n mk (dispBytes disp ++ rest) = .ok (mk disp) rest := by
  cases disp with
  | rel d => simp [dispBytes, dispOperand, dispByte_rel_bit, dispByte_rel_field]
  | abs a =>
    simp only [dispBytes, dispOperand, List.cons_append, List.nil_append, dispByte_abs_bit, dispByte_abs_field,
      abs_split]
    rfl

theorem literalOperands_append (header : Nat) (mk : List Byte → Instr) (data rest : List Byte) :
    literalOperands header data.length mk (data ++ rest) = .ok (mk data) rest := by
  simp [literalOperands, takeData_append]

/-- Everything `dispOperand` can answer. -/
theorem dispOperand_cases (header n : Nat) (mk : Disp → Instr) (bs : List Byte) :
    (∃ disp rest, bs = dispBytes disp ++ rest ∧ dispOperand header n mk bs = .ok (mk disp) rest) ∨
    (bs.length < 2 ∧ dispOperand header n mk bs = .noOperandByte header n 0) := by
  cases bs with
  | nil => exact .inr ⟨by simp, rfl⟩
  | cons d bs =>
    by_cases h : d.getLsbD 7 = true
    · refine .inl ⟨.rel (d.extractLsb' 0 7), bs, ?_, ?_⟩
      · rw [dispBytes, dispByte_rel h]; rfl
      · simp only [dispOperand, h, if_true]
    · have h0 : d.getLsbD 7 = false := by simpa using h
      cases bs with
      | nil => exact .inr ⟨by simp, by simp only [dispOperand, h0]; rfl⟩
      | cons e rest =>
        refine .inl ⟨.abs (d.extractLsb' 0 7 ++ e), rest, ?_, ?_⟩
        · rw [dispBytes, abs_hi, abs_lo, dispByte_abs h0]; rfl
        · simp only [dispOperand, h0]; rfl

end Sys2Proof
end

