-- ==== Sys2Proof/Laws/Memory.lean ====
section
/-! SUPPORT. The laws of the memories: read after write, and that every operation keeps the canonical form
and the bounds. -/

namespace Sys2Proof.Machine

variable {w : Nat}

theorem cellAt_putCell_same (l : List (Nat × BitVec w)) (a : Nat) (v : BitVec w) :
    cellAt (putCell a v l) a = some v := by
  induction l with
  | nil => simp [putCell, cellAt]
  | cons c rest ih =>
    obtain ⟨k, u⟩ := c
    simp only [putCell]
    split
    · simp [cellAt]
    · split
      · simp [cellAt]
      · rename_i h; simp [cellAt, h, ih]

theorem cellAt_putCell_other (l : List (Nat × BitVec w)) {a b : Nat} (v : BitVec w) (h : b ≠ a) :
    cellAt (putCell a v l) b = cellAt l b := by
  induction l with
  | nil => simp [putCell, cellAt, Ne.symm h]
  | cons c rest ih =>
    obtain ⟨k, u⟩ := c
    simp only [putCell]
    split
    · simp [cellAt, Ne.symm h]
    · split
      · rename_i hk; subst hk; simp [cellAt, Ne.symm h]
      · simp [cellAt, ih]

/-- A read gives the value last written at its index (R60). -/
@[simp] theorem read_write_same (m : Memory w) (a : Nat) (v : BitVec w) : (m.write a v).read a = v := by
  simp [Memory.read, Memory.write, cellAt_putCell_same]

/-- A write leaves every other element alone. -/
theorem read_write_other (m : Memory w) {a b : Nat} (v : BitVec w) (h : b ≠ a) :
    (m.write a v).read b = m.read b := by
  simp [Memory.read, Memory.write, cellAt_putCell_other _ v h]

theorem read_write (m : Memory w) (a b : Nat) (v : BitVec w) :
    (m.write a v).read b = if b = a then v else m.read b := by
  split
  · rename_i h; subst h; simp
  · rename_i h; exact read_write_other m v h

/-- What a run of writes does: the elements of the list stand at its indices, all others are as before. -/
theorem read_writeAll (vs : List (BitVec w)) (m : Memory w) (a b : Nat) :
    (m.writeAll a vs).read b = if h : a ≤ b ∧ b < a + vs.length then vs[b - a]'(by omega) else m.read b := by
  induction vs generalizing m a with
  | nil => simp only [Memory.writeAll]; split
           · rename_i h; simp at h; omega
           · rfl
  | cons v vs ih =>
    simp only [Memory.writeAll, ih, List.length_cons]
    by_cases hb : b = a
    · subst hb
      have : ¬ (b + 1 ≤ b ∧ b < b + 1 + vs.length) := by omega
      have h2 : b ≤ b ∧ b < b + (vs.length + 1) := by omega
      simp [h2]
    · by_cases h : a + 1 ≤ b ∧ b < a + 1 + vs.length
      · have h2 : a ≤ b ∧ b < a + (vs.length + 1) := by omega
        rw [dif_pos h, dif_pos h2]
        rw [List.getElem_cons, dif_neg (by omega)]
        congr 1
      · have h2 : ¬ (a ≤ b ∧ b < a + (vs.length + 1)) := by omega
        rw [dif_neg h, dif_neg h2, read_write_other m v hb]

theorem read_writeAll_outside (vs : List (BitVec w)) (m : Memory w) {a b : Nat}
    (h : b < a ∨ a + vs.length ≤ b) : (m.writeAll a vs).read b = m.read b := by
  rw [read_writeAll, dif_neg (by omega)]

theorem read_writeAll_inside (vs : List (BitVec w)) (m : Memory w) {a k : Nat} (h : k < vs.length) :
    (m.writeAll a vs).read (a + k) = vs[k] := by
  rw [read_writeAll, dif_pos (by omega)]
  congr 1
  omega

@[simp] theorem write_epoch (m : Memory w) (a : Nat) (v : BitVec w) : (m.write a v).epoch = m.epoch := rfl

@[simp] theorem writeAll_epoch (vs : List (BitVec w)) (m : Memory w) (a : Nat) :
    (m.writeAll a vs).epoch = m.epoch := by
  induction vs generalizing m a with
  | nil => rfl
  | cons v vs ih => simp [Memory.writeAll, ih]

theorem mem_putCell {l : List (Nat × BitVec w)} {a : Nat} {v : BitVec w} {c : Nat × BitVec w}
    (h : c ∈ putCell a v l) : c = (a, v) ∨ c ∈ l := by
  induction l with
  | nil => simpa [putCell] using h
  | cons d rest ih =>
    obtain ⟨k, u⟩ := d
    simp only [putCell] at h
    split at h
    · simp only [List.mem_cons] at h ⊢; tauto
    · split at h
      · simp only [List.mem_cons] at h ⊢; tauto
      · simp only [List.mem_cons] at h ⊢
        rcases h with h | h
        · exact .inr (.inl h)
        · exact (ih h).imp id .inr

/-- A write keeps the canonical form. -/
theorem write_wf {m : Memory w} (h : m.wf) (a : Nat) (v : BitVec w) : (m.write a v).wf := by
  obtain ⟨e, l⟩ := m
  simp only [Memory.wf, Memory.write, List.pairwise_map] at h ⊢
  induction l with
  | nil => simp [putCell]
  | cons d rest ih =>
    obtain ⟨k, u⟩ := d
    rw [List.pairwise_cons] at h
    simp only [putCell]
    split
    · rename_i hak
      refine List.pairwise_cons.2 ⟨fun c hc => ?_, List.pairwise_cons.2 h⟩
      rcases List.mem_cons.1 hc with hc | hc
      · subst hc; exact hak
      · exact Nat.lt_trans hak (h.1 c hc)
    · split
      · rename_i hk; subst hk; exact List.pairwise_cons.2 ⟨h.1, h.2⟩
      · refine List.pairwise_cons.2 ⟨fun c hc => ?_, ih h.2⟩
        rcases mem_putCell hc with hc | hc
        · subst hc; simp only; omega
        · exact h.1 c hc

theorem writeAll_wf {m : Memory w} (h : m.wf) (a : Nat) (vs : List (BitVec w)) : (m.writeAll a vs).wf := by
  induction vs generalizing m a with
  | nil => exact h
  | cons v vs ih => exact ih (write_wf h a v) (a + 1)

/-- A released memory, which lists nothing, has the canonical form. -/
theorem released_wf (e : Nat) : ({ epoch := e, cells := [] } : Memory w).wf := by simp [Memory.wf]

/-- The memories after reset have the canonical form (R39). -/
theorem reset_memories_wf : State.reset.inMem.wf ∧ State.reset.obuf.wf ∧ State.reset.hbuf.wf :=
  ⟨released_wf _, released_wf _, released_wf _⟩

theorem write_within {m : Memory w} {size a : Nat} (h : m.within size) (ha : a < size) (v : BitVec w) :
    (m.write a v).within size := by
  intro c hc
  rcases mem_putCell hc with hc | hc
  · subst hc; exact ha
  · exact h c hc

theorem writeAll_within {m : Memory w} {size a : Nat} (vs : List (BitVec w)) (h : m.within size)
    (ha : a + vs.length ≤ size) : (m.writeAll a vs).within size := by
  induction vs generalizing m a with
  | nil => exact h
  | cons v vs ih =>
    simp only [List.length_cons] at ha
    exact ih (write_within h (by omega) v) (by omega)

theorem released_within (e size : Nat) : ({ epoch := e, cells := [] } : Memory w).within size := by
  simp [Memory.within]

end Sys2Proof.Machine
end

