-- ==== Sys2Proof/Laws/State.lean ====
section
/-! SUPPORT. What each update of the state does to each field: one lemma per field per update, so that no later
proof unfolds a record update. -/

namespace Sys2Proof.Machine

/-! ### OBUF becomes any value (R207, R208) -/

@[simp] theorem releaseObuf_cfg (s : State) : s.releaseObuf.cfg = s.cfg := rfl
@[simp] theorem releaseObuf_mode (s : State) : s.releaseObuf.mode = s.mode := rfl
@[simp] theorem releaseObuf_outcome (s : State) : s.releaseObuf.outcome = s.outcome := rfl
@[simp] theorem releaseObuf_faultReason (s : State) : s.releaseObuf.faultReason = s.faultReason := rfl
@[simp] theorem releaseObuf_inLen (s : State) : s.releaseObuf.inLen = s.inLen := rfl
@[simp] theorem releaseObuf_outLen (s : State) : s.releaseObuf.outLen = s.outLen := rfl
@[simp] theorem releaseObuf_tileCount (s : State) : s.releaseObuf.tileCount = s.tileCount := rfl
@[simp] theorem releaseObuf_ip (s : State) : s.releaseObuf.ip = s.ip := rfl
@[simp] theorem releaseObuf_op (s : State) : s.releaseObuf.op = s.op := rfl
@[simp] theorem releaseObuf_phase (s : State) : s.releaseObuf.phase = s.phase := rfl
@[simp] theorem releaseObuf_psrc (s : State) : s.releaseObuf.psrc = s.psrc := rfl
@[simp] theorem releaseObuf_ptc (s : State) : s.releaseObuf.ptc = s.ptc := rfl
@[simp] theorem releaseObuf_tidx (s : State) : s.releaseObuf.tidx = s.tidx := rfl
@[simp] theorem releaseObuf_inMem (s : State) : s.releaseObuf.inMem = s.inMem := rfl
@[simp] theorem releaseObuf_obuf (s : State) : s.releaseObuf.obuf = { epoch := s.free, cells := [] } := rfl
@[simp] theorem releaseObuf_hbuf (s : State) : s.releaseObuf.hbuf = s.hbuf := rfl
@[simp] theorem releaseObuf_free (s : State) : s.releaseObuf.free = s.free + 1 := rfl
@[simp] theorem releaseObuf_agenda (s : State) : s.releaseObuf.agenda = s.agenda := rfl
@[simp] theorem releaseObuf_hostData (s : State) : s.releaseObuf.hostData = s.hostData := rfl

/-! ### HBUF becomes any value (R181) -/

@[simp] theorem releaseHbuf_cfg (s : State) : s.releaseHbuf.cfg = s.cfg := rfl
@[simp] theorem releaseHbuf_mode (s : State) : s.releaseHbuf.mode = s.mode := rfl
@[simp] theorem releaseHbuf_outcome (s : State) : s.releaseHbuf.outcome = s.outcome := rfl
@[simp] theorem releaseHbuf_faultReason (s : State) : s.releaseHbuf.faultReason = s.faultReason := rfl
@[simp] theorem releaseHbuf_inLen (s : State) : s.releaseHbuf.inLen = s.inLen := rfl
@[simp] theorem releaseHbuf_outLen (s : State) : s.releaseHbuf.outLen = s.outLen := rfl
@[simp] theorem releaseHbuf_tileCount (s : State) : s.releaseHbuf.tileCount = s.tileCount := rfl
@[simp] theorem releaseHbuf_ip (s : State) : s.releaseHbuf.ip = s.ip := rfl
@[simp] theorem releaseHbuf_op (s : State) : s.releaseHbuf.op = s.op := rfl
@[simp] theorem releaseHbuf_phase (s : State) : s.releaseHbuf.phase = s.phase := rfl
@[simp] theorem releaseHbuf_psrc (s : State) : s.releaseHbuf.psrc = s.psrc := rfl
@[simp] theorem releaseHbuf_ptc (s : State) : s.releaseHbuf.ptc = s.ptc := rfl
@[simp] theorem releaseHbuf_tidx (s : State) : s.releaseHbuf.tidx = s.tidx := rfl
@[simp] theorem releaseHbuf_inMem (s : State) : s.releaseHbuf.inMem = s.inMem := rfl
@[simp] theorem releaseHbuf_obuf (s : State) : s.releaseHbuf.obuf = s.obuf := rfl
@[simp] theorem releaseHbuf_hbuf (s : State) : s.releaseHbuf.hbuf = { epoch := s.free, cells := [] } := rfl
@[simp] theorem releaseHbuf_free (s : State) : s.releaseHbuf.free = s.free + 1 := rfl
@[simp] theorem releaseHbuf_agenda (s : State) : s.releaseHbuf.agenda = s.agenda := rfl
@[simp] theorem releaseHbuf_hostData (s : State) : s.releaseHbuf.hostData = s.hostData := rfl

/-! ### the release (R181) -/

@[simp] theorem releaseTileSet_cfg (s : State) : (releaseTileSet s).cfg = s.cfg := rfl
@[simp] theorem releaseTileSet_mode (s : State) : (releaseTileSet s).mode = s.mode := rfl
@[simp] theorem releaseTileSet_outcome (s : State) : (releaseTileSet s).outcome = s.outcome := rfl
@[simp] theorem releaseTileSet_faultReason (s : State) :
    (releaseTileSet s).faultReason = s.faultReason := rfl
@[simp] theorem releaseTileSet_inLen (s : State) : (releaseTileSet s).inLen = s.inLen := rfl
@[simp] theorem releaseTileSet_outLen (s : State) : (releaseTileSet s).outLen = s.outLen := rfl
@[simp] theorem releaseTileSet_tileCount (s : State) : (releaseTileSet s).tileCount = 0 := rfl
@[simp] theorem releaseTileSet_ip (s : State) : (releaseTileSet s).ip = s.ip := rfl
@[simp] theorem releaseTileSet_op (s : State) : (releaseTileSet s).op = s.op := rfl
@[simp] theorem releaseTileSet_phase (s : State) : (releaseTileSet s).phase = s.phase := rfl
@[simp] theorem releaseTileSet_psrc (s : State) : (releaseTileSet s).psrc = s.psrc := rfl
@[simp] theorem releaseTileSet_ptc (s : State) : (releaseTileSet s).ptc = s.ptc := rfl
@[simp] theorem releaseTileSet_tidx (s : State) : (releaseTileSet s).tidx = s.tidx := rfl
@[simp] theorem releaseTileSet_inMem (s : State) : (releaseTileSet s).inMem = s.inMem := rfl
@[simp] theorem releaseTileSet_obuf (s : State) : (releaseTileSet s).obuf = s.obuf := rfl
@[simp] theorem releaseTileSet_hbuf (s : State) :
    (releaseTileSet s).hbuf = { epoch := s.free, cells := [] } := rfl
@[simp] theorem releaseTileSet_free (s : State) : (releaseTileSet s).free = s.free + 1 := rfl
@[simp] theorem releaseTileSet_agenda (s : State) : (releaseTileSet s).agenda = s.agenda := rfl
@[simp] theorem releaseTileSet_hostData (s : State) : (releaseTileSet s).hostData = s.hostData := rfl

/-! ### `Finish(c)` (R206) -/

@[simp] theorem finish_cfg (c : JobOutcome) (s : State) : (finish c s).cfg = s.cfg := rfl
@[simp] theorem finish_mode (c : JobOutcome) (s : State) : (finish c s).mode = s.mode := rfl
@[simp] theorem finish_outcome (c : JobOutcome) (s : State) : (finish c s).outcome = c := rfl
@[simp] theorem finish_faultReason (c : JobOutcome) (s : State) : (finish c s).faultReason = .none := rfl
@[simp] theorem finish_inLen (c : JobOutcome) (s : State) : (finish c s).inLen = s.inLen := rfl
@[simp] theorem finish_outLen (c : JobOutcome) (s : State) : (finish c s).outLen = s.outLen := rfl
@[simp] theorem finish_tileCount (c : JobOutcome) (s : State) : (finish c s).tileCount = s.tileCount := rfl
@[simp] theorem finish_ip (c : JobOutcome) (s : State) : (finish c s).ip = s.ip := rfl
@[simp] theorem finish_op (c : JobOutcome) (s : State) : (finish c s).op = s.op := rfl
@[simp] theorem finish_phase (c : JobOutcome) (s : State) : (finish c s).phase = .idle := rfl
@[simp] theorem finish_psrc (c : JobOutcome) (s : State) : (finish c s).psrc = s.psrc := rfl
@[simp] theorem finish_ptc (c : JobOutcome) (s : State) : (finish c s).ptc = s.ptc := rfl
@[simp] theorem finish_tidx (c : JobOutcome) (s : State) : (finish c s).tidx = s.tidx := rfl
@[simp] theorem finish_inMem (c : JobOutcome) (s : State) : (finish c s).inMem = s.inMem := rfl
@[simp] theorem finish_obuf (c : JobOutcome) (s : State) : (finish c s).obuf = s.obuf := rfl
@[simp] theorem finish_hbuf (c : JobOutcome) (s : State) : (finish c s).hbuf = s.hbuf := rfl
@[simp] theorem finish_free (c : JobOutcome) (s : State) : (finish c s).free = s.free := rfl
@[simp] theorem finish_agenda (c : JobOutcome) (s : State) : (finish c s).agenda = s.agenda := rfl
@[simp] theorem finish_hostData (c : JobOutcome) (s : State) : (finish c s).hostData = s.hostData := rfl

/-! ### `LzFail(c)` (R207) -/

@[simp] theorem lzFail_cfg (c : JobOutcome) (s : State) : (lzFail c s).cfg = s.cfg := rfl
@[simp] theorem lzFail_mode (c : JobOutcome) (s : State) : (lzFail c s).mode = s.mode := rfl
@[simp] theorem lzFail_outcome (c : JobOutcome) (s : State) : (lzFail c s).outcome = c := rfl
@[simp] theorem lzFail_faultReason (c : JobOutcome) (s : State) : (lzFail c s).faultReason = .none := rfl
@[simp] theorem lzFail_inLen (c : JobOutcome) (s : State) : (lzFail c s).inLen = s.inLen := rfl
@[simp] theorem lzFail_outLen (c : JobOutcome) (s : State) : (lzFail c s).outLen = 0 := rfl
@[simp] theorem lzFail_tileCount (c : JobOutcome) (s : State) : (lzFail c s).tileCount = s.tileCount := rfl
@[simp] theorem lzFail_ip (c : JobOutcome) (s : State) : (lzFail c s).ip = s.ip := rfl
@[simp] theorem lzFail_op (c : JobOutcome) (s : State) : (lzFail c s).op = s.op := rfl
@[simp] theorem lzFail_phase (c : JobOutcome) (s : State) : (lzFail c s).phase = .idle := rfl
@[simp] theorem lzFail_psrc (c : JobOutcome) (s : State) : (lzFail c s).psrc = s.psrc := rfl
@[simp] theorem lzFail_ptc (c : JobOutcome) (s : State) : (lzFail c s).ptc = s.ptc := rfl
@[simp] theorem lzFail_tidx (c : JobOutcome) (s : State) : (lzFail c s).tidx = s.tidx := rfl
@[simp] theorem lzFail_inMem (c : JobOutcome) (s : State) : (lzFail c s).inMem = s.inMem := rfl
@[simp] theorem lzFail_obuf (c : JobOutcome) (s : State) :
    (lzFail c s).obuf = { epoch := s.free, cells := [] } := rfl
@[simp] theorem lzFail_hbuf (c : JobOutcome) (s : State) : (lzFail c s).hbuf = s.hbuf := rfl
@[simp] theorem lzFail_free (c : JobOutcome) (s : State) : (lzFail c s).free = s.free + 1 := rfl
@[simp] theorem lzFail_agenda (c : JobOutcome) (s : State) : (lzFail c s).agenda = s.agenda := rfl
@[simp] theorem lzFail_hostData (c : JobOutcome) (s : State) : (lzFail c s).hostData = s.hostData := rfl

/-! ### `raise Fault(r)` (R208) -/

@[simp] theorem raiseFault_cfg (r : FaultReason) (s : State) : (raiseFault r s).cfg = s.cfg := rfl
@[simp] theorem raiseFault_mode (r : FaultReason) (s : State) : (raiseFault r s).mode = s.mode := rfl
@[simp] theorem raiseFault_outcome (r : FaultReason) (s : State) : (raiseFault r s).outcome = .fault := rfl
@[simp] theorem raiseFault_faultReason (r : FaultReason) (s : State) :
    (raiseFault r s).faultReason = r := rfl
@[simp] theorem raiseFault_inLen (r : FaultReason) (s : State) : (raiseFault r s).inLen = s.inLen := rfl
@[simp] theorem raiseFault_outLen (r : FaultReason) (s : State) : (raiseFault r s).outLen = 0 := rfl
@[simp] theorem raiseFault_tileCount (r : FaultReason) (s : State) :
    (raiseFault r s).tileCount = s.tileCount := rfl
@[simp] theorem raiseFault_ip (r : FaultReason) (s : State) : (raiseFault r s).ip = s.ip := rfl
@[simp] theorem raiseFault_op (r : FaultReason) (s : State) : (raiseFault r s).op = s.op := rfl
@[simp] theorem raiseFault_phase (r : FaultReason) (s : State) : (raiseFault r s).phase = .idle := rfl
@[simp] theorem raiseFault_psrc (r : FaultReason) (s : State) : (raiseFault r s).psrc = s.psrc := rfl
@[simp] theorem raiseFault_ptc (r : FaultReason) (s : State) : (raiseFault r s).ptc = s.ptc := rfl
@[simp] theorem raiseFault_tidx (r : FaultReason) (s : State) : (raiseFault r s).tidx = s.tidx := rfl
@[simp] theorem raiseFault_inMem (r : FaultReason) (s : State) : (raiseFault r s).inMem = s.inMem := rfl
@[simp] theorem raiseFault_obuf (r : FaultReason) (s : State) :
    (raiseFault r s).obuf = { epoch := s.free, cells := [] } := rfl
@[simp] theorem raiseFault_hbuf (r : FaultReason) (s : State) : (raiseFault r s).hbuf = s.hbuf := rfl
@[simp] theorem raiseFault_free (r : FaultReason) (s : State) : (raiseFault r s).free = s.free + 1 := rfl
@[simp] theorem raiseFault_agenda (r : FaultReason) (s : State) : (raiseFault r s).agenda = s.agenda := rfl
@[simp] theorem raiseFault_hostData (r : FaultReason) (s : State) :
    (raiseFault r s).hostData = s.hostData := rfl

/-! ### `k` Fetches (R101) -/

@[simp] theorem fetched_cfg (k : Nat) (s : State) : (s.fetched k).cfg = s.cfg := rfl
@[simp] theorem fetched_mode (k : Nat) (s : State) : (s.fetched k).mode = s.mode := rfl
@[simp] theorem fetched_outcome (k : Nat) (s : State) : (s.fetched k).outcome = s.outcome := rfl
@[simp] theorem fetched_faultReason (k : Nat) (s : State) : (s.fetched k).faultReason = s.faultReason := rfl
@[simp] theorem fetched_inLen (k : Nat) (s : State) : (s.fetched k).inLen = s.inLen := rfl
@[simp] theorem fetched_outLen (k : Nat) (s : State) : (s.fetched k).outLen = s.outLen := rfl
@[simp] theorem fetched_tileCount (k : Nat) (s : State) : (s.fetched k).tileCount = s.tileCount := rfl
@[simp] theorem fetched_ip (k : Nat) (s : State) : (s.fetched k).ip = s.ip + BitVec.ofNat 32 k := rfl
@[simp] theorem fetched_op (k : Nat) (s : State) : (s.fetched k).op = s.op := rfl
@[simp] theorem fetched_phase (k : Nat) (s : State) : (s.fetched k).phase = s.phase := rfl
@[simp] theorem fetched_psrc (k : Nat) (s : State) : (s.fetched k).psrc = s.psrc := rfl
@[simp] theorem fetched_ptc (k : Nat) (s : State) : (s.fetched k).ptc = s.ptc := rfl
@[simp] theorem fetched_tidx (k : Nat) (s : State) : (s.fetched k).tidx = s.tidx := rfl
@[simp] theorem fetched_inMem (k : Nat) (s : State) : (s.fetched k).inMem = s.inMem := rfl
@[simp] theorem fetched_obuf (k : Nat) (s : State) : (s.fetched k).obuf = s.obuf := rfl
@[simp] theorem fetched_hbuf (k : Nat) (s : State) : (s.fetched k).hbuf = s.hbuf := rfl
@[simp] theorem fetched_free (k : Nat) (s : State) : (s.fetched k).free = s.free := rfl
@[simp] theorem fetched_agenda (k : Nat) (s : State) : (s.fetched k).agenda = s.agenda := rfl
@[simp] theorem fetched_hostData (k : Nat) (s : State) : (s.fetched k).hostData = s.hostData := rfl

/-! ### `Emit(v)` (R134) -/

@[simp] theorem emit_cfg (v : Byte) (s : State) : (s.emit v).cfg = s.cfg := rfl
@[simp] theorem emit_mode (v : Byte) (s : State) : (s.emit v).mode = s.mode := rfl
@[simp] theorem emit_outcome (v : Byte) (s : State) : (s.emit v).outcome = s.outcome := rfl
@[simp] theorem emit_faultReason (v : Byte) (s : State) : (s.emit v).faultReason = s.faultReason := rfl
@[simp] theorem emit_inLen (v : Byte) (s : State) : (s.emit v).inLen = s.inLen := rfl
@[simp] theorem emit_outLen (v : Byte) (s : State) : (s.emit v).outLen = s.outLen := rfl
@[simp] theorem emit_tileCount (v : Byte) (s : State) : (s.emit v).tileCount = s.tileCount := rfl
@[simp] theorem emit_ip (v : Byte) (s : State) : (s.emit v).ip = s.ip := rfl
@[simp] theorem emit_op (v : Byte) (s : State) : (s.emit v).op = s.op + 1 := rfl
@[simp] theorem emit_phase (v : Byte) (s : State) : (s.emit v).phase = s.phase := rfl
@[simp] theorem emit_psrc (v : Byte) (s : State) : (s.emit v).psrc = s.psrc := rfl
@[simp] theorem emit_ptc (v : Byte) (s : State) : (s.emit v).ptc = s.ptc := rfl
@[simp] theorem emit_tidx (v : Byte) (s : State) : (s.emit v).tidx = s.tidx := rfl
@[simp] theorem emit_inMem (v : Byte) (s : State) : (s.emit v).inMem = s.inMem := rfl
@[simp] theorem emit_obuf (v : Byte) (s : State) : (s.emit v).obuf = s.obuf.write s.op.toNat v := rfl
@[simp] theorem emit_hbuf (v : Byte) (s : State) : (s.emit v).hbuf = s.hbuf := rfl
@[simp] theorem emit_free (v : Byte) (s : State) : (s.emit v).free = s.free := rfl
@[simp] theorem emit_agenda (v : Byte) (s : State) : (s.emit v).agenda = s.agenda := rfl
@[simp] theorem emit_hostData (v : Byte) (s : State) : (s.emit v).hostData = s.hostData := rfl

/-! ### one tile (R182) -/

@[simp] theorem tileDecoded_cfg (s : State) : (tileDecoded s).cfg = s.cfg := rfl
@[simp] theorem tileDecoded_mode (s : State) : (tileDecoded s).mode = s.mode := rfl
@[simp] theorem tileDecoded_outcome (s : State) : (tileDecoded s).outcome = s.outcome := rfl
@[simp] theorem tileDecoded_faultReason (s : State) : (tileDecoded s).faultReason = s.faultReason := rfl
@[simp] theorem tileDecoded_inLen (s : State) : (tileDecoded s).inLen = s.inLen := rfl
@[simp] theorem tileDecoded_outLen (s : State) : (tileDecoded s).outLen = s.outLen := rfl
@[simp] theorem tileDecoded_tileCount (s : State) : (tileDecoded s).tileCount = s.tileCount := rfl
@[simp] theorem tileDecoded_ip (s : State) : (tileDecoded s).ip = s.ip := rfl
@[simp] theorem tileDecoded_op (s : State) : (tileDecoded s).op = s.op := rfl
@[simp] theorem tileDecoded_phase (s : State) : (tileDecoded s).phase = s.phase := rfl
@[simp] theorem tileDecoded_psrc (s : State) : (tileDecoded s).psrc = s.psrc := rfl
@[simp] theorem tileDecoded_ptc (s : State) : (tileDecoded s).ptc = s.ptc := rfl
@[simp] theorem tileDecoded_tidx (s : State) : (tileDecoded s).tidx = s.tidx + 1 := rfl
@[simp] theorem tileDecoded_inMem (s : State) : (tileDecoded s).inMem = s.inMem := rfl
@[simp] theorem tileDecoded_obuf (s : State) : (tileDecoded s).obuf = s.obuf := rfl
@[simp] theorem tileDecoded_hbuf (s : State) :
    (tileDecoded s).hbuf = s.hbuf.writeAll (64 * s.tidx.toNat) (tileHues fun k => s.planeByte (16 * s.tidx.toNat + k)) := rfl
@[simp] theorem tileDecoded_free (s : State) : (tileDecoded s).free = s.free := rfl
@[simp] theorem tileDecoded_agenda (s : State) : (tileDecoded s).agenda = s.agenda := rfl
@[simp] theorem tileDecoded_hostData (s : State) : (tileDecoded s).hostData = s.hostData := rfl

/-! ### the first effects of a START (R25) -/

@[simp] theorem jobBegun_cfg (s : State) : (jobBegun s).cfg = s.cfg := rfl
@[simp] theorem jobBegun_mode (s : State) : (jobBegun s).mode = s.mode := rfl
@[simp] theorem jobBegun_outcome (s : State) : (jobBegun s).outcome = .null := rfl
@[simp] theorem jobBegun_faultReason (s : State) : (jobBegun s).faultReason = .none := rfl
@[simp] theorem jobBegun_inLen (s : State) : (jobBegun s).inLen = s.inLen := rfl
@[simp] theorem jobBegun_outLen (s : State) : (jobBegun s).outLen = 0 := rfl
@[simp] theorem jobBegun_tileCount (s : State) : (jobBegun s).tileCount = s.tileCount := rfl
@[simp] theorem jobBegun_ip (s : State) : (jobBegun s).ip = s.ip := rfl
@[simp] theorem jobBegun_op (s : State) : (jobBegun s).op = s.op := rfl
@[simp] theorem jobBegun_phase (s : State) : (jobBegun s).phase = s.phase := rfl
@[simp] theorem jobBegun_psrc (s : State) : (jobBegun s).psrc = s.psrc := rfl
@[simp] theorem jobBegun_ptc (s : State) : (jobBegun s).ptc = s.ptc := rfl
@[simp] theorem jobBegun_tidx (s : State) : (jobBegun s).tidx = s.tidx := rfl
@[simp] theorem jobBegun_inMem (s : State) : (jobBegun s).inMem = s.inMem := rfl
@[simp] theorem jobBegun_obuf (s : State) : (jobBegun s).obuf = s.obuf := rfl
@[simp] theorem jobBegun_hbuf (s : State) : (jobBegun s).hbuf = s.hbuf := rfl
@[simp] theorem jobBegun_free (s : State) : (jobBegun s).free = s.free := rfl
@[simp] theorem jobBegun_agenda (s : State) : (jobBegun s).agenda = s.agenda := rfl
@[simp] theorem jobBegun_hostData (s : State) : (jobBegun s).hostData = s.hostData := rfl

/-! ### a host read (R57) -/

@[simp] theorem hostReads_cfg (v : Word) (s : State) : (hostReads v s).cfg = s.cfg := rfl
@[simp] theorem hostReads_mode (v : Word) (s : State) : (hostReads v s).mode = s.mode := rfl
@[simp] theorem hostReads_outcome (v : Word) (s : State) : (hostReads v s).outcome = s.outcome := rfl
@[simp] theorem hostReads_faultReason (v : Word) (s : State) :
    (hostReads v s).faultReason = s.faultReason := rfl
@[simp] theorem hostReads_inLen (v : Word) (s : State) : (hostReads v s).inLen = s.inLen := rfl
@[simp] theorem hostReads_outLen (v : Word) (s : State) : (hostReads v s).outLen = s.outLen := rfl
@[simp] theorem hostReads_tileCount (v : Word) (s : State) : (hostReads v s).tileCount = s.tileCount := rfl
@[simp] theorem hostReads_ip (v : Word) (s : State) : (hostReads v s).ip = s.ip := rfl
@[simp] theorem hostReads_op (v : Word) (s : State) : (hostReads v s).op = s.op := rfl
@[simp] theorem hostReads_phase (v : Word) (s : State) : (hostReads v s).phase = s.phase := rfl
@[simp] theorem hostReads_psrc (v : Word) (s : State) : (hostReads v s).psrc = s.psrc := rfl
@[simp] theorem hostReads_ptc (v : Word) (s : State) : (hostReads v s).ptc = s.ptc := rfl
@[simp] theorem hostReads_tidx (v : Word) (s : State) : (hostReads v s).tidx = s.tidx := rfl
@[simp] theorem hostReads_inMem (v : Word) (s : State) : (hostReads v s).inMem = s.inMem := rfl
@[simp] theorem hostReads_obuf (v : Word) (s : State) : (hostReads v s).obuf = s.obuf := rfl
@[simp] theorem hostReads_hbuf (v : Word) (s : State) : (hostReads v s).hbuf = s.hbuf := rfl
@[simp] theorem hostReads_free (v : Word) (s : State) : (hostReads v s).free = s.free := rfl
@[simp] theorem hostReads_agenda (v : Word) (s : State) : (hostReads v s).agenda = s.agenda := rfl
@[simp] theorem hostReads_hostData (v : Word) (s : State) : (hostReads v s).hostData = v := rfl

/-! ### a host read that returns any value (R61) -/

@[simp] theorem hostReadsAny_cfg (w : Nat) (f : BitVec w → Word) (s : State) :
    (hostReadsAny w f s).cfg = s.cfg := rfl
@[simp] theorem hostReadsAny_mode (w : Nat) (f : BitVec w → Word) (s : State) :
    (hostReadsAny w f s).mode = s.mode := rfl
@[simp] theorem hostReadsAny_outcome (w : Nat) (f : BitVec w → Word) (s : State) :
    (hostReadsAny w f s).outcome = s.outcome := rfl
@[simp] theorem hostReadsAny_faultReason (w : Nat) (f : BitVec w → Word) (s : State) :
    (hostReadsAny w f s).faultReason = s.faultReason := rfl
@[simp] theorem hostReadsAny_inLen (w : Nat) (f : BitVec w → Word) (s : State) :
    (hostReadsAny w f s).inLen = s.inLen := rfl
@[simp] theorem hostReadsAny_outLen (w : Nat) (f : BitVec w → Word) (s : State) :
    (hostReadsAny w f s).outLen = s.outLen := rfl
@[simp] theorem hostReadsAny_tileCount (w : Nat) (f : BitVec w → Word) (s : State) :
    (hostReadsAny w f s).tileCount = s.tileCount := rfl
@[simp] theorem hostReadsAny_ip (w : Nat) (f : BitVec w → Word) (s : State) :
    (hostReadsAny w f s).ip = s.ip := rfl
@[simp] theorem hostReadsAny_op (w : Nat) (f : BitVec w → Word) (s : State) :
    (hostReadsAny w f s).op = s.op := rfl
@[simp] theorem hostReadsAny_phase (w : Nat) (f : BitVec w → Word) (s : State) :
    (hostReadsAny w f s).phase = s.phase := rfl
@[simp] theorem hostReadsAny_psrc (w : Nat) (f : BitVec w → Word) (s : State) :
    (hostReadsAny w f s).psrc = s.psrc := rfl
@[simp] theorem hostReadsAny_ptc (w : Nat) (f : BitVec w → Word) (s : State) :
    (hostReadsAny w f s).ptc = s.ptc := rfl
@[simp] theorem hostReadsAny_tidx (w : Nat) (f : BitVec w → Word) (s : State) :
    (hostReadsAny w f s).tidx = s.tidx := rfl
@[simp] theorem hostReadsAny_inMem (w : Nat) (f : BitVec w → Word) (s : State) :
    (hostReadsAny w f s).inMem = s.inMem := rfl
@[simp] theorem hostReadsAny_obuf (w : Nat) (f : BitVec w → Word) (s : State) :
    (hostReadsAny w f s).obuf = s.obuf := rfl
@[simp] theorem hostReadsAny_hbuf (w : Nat) (f : BitVec w → Word) (s : State) :
    (hostReadsAny w f s).hbuf = s.hbuf := rfl
@[simp] theorem hostReadsAny_free (w : Nat) (f : BitVec w → Word) (s : State) :
    (hostReadsAny w f s).free = s.free + 1 := rfl
@[simp] theorem hostReadsAny_agenda (w : Nat) (f : BitVec w → Word) (s : State) :
    (hostReadsAny w f s).agenda = s.agenda := rfl
@[simp] theorem hostReadsAny_hostData (w : Nat) (f : BitVec w → Word) (s : State) :
    (hostReadsAny w f s).hostData = f (Config.freeValue w s.free 0) := rfl

/-! ### reset (R230) -/

@[simp] theorem resetCore_cfg (s : State) : (resetCore s).cfg = s.cfg := rfl
@[simp] theorem resetCore_mode (s : State) : (resetCore s).mode = 0 := rfl
@[simp] theorem resetCore_outcome (s : State) : (resetCore s).outcome = .null := rfl
@[simp] theorem resetCore_faultReason (s : State) : (resetCore s).faultReason = .none := rfl
@[simp] theorem resetCore_inLen (s : State) : (resetCore s).inLen = 0 := rfl
@[simp] theorem resetCore_outLen (s : State) : (resetCore s).outLen = 0 := rfl
@[simp] theorem resetCore_tileCount (s : State) : (resetCore s).tileCount = 0 := rfl
@[simp] theorem resetCore_ip (s : State) : (resetCore s).ip = 0 := rfl
@[simp] theorem resetCore_op (s : State) : (resetCore s).op = 0 := rfl
@[simp] theorem resetCore_phase (s : State) : (resetCore s).phase = .idle := rfl
@[simp] theorem resetCore_psrc (s : State) : (resetCore s).psrc = .inMem := rfl
@[simp] theorem resetCore_ptc (s : State) : (resetCore s).ptc = 0 := rfl
@[simp] theorem resetCore_tidx (s : State) : (resetCore s).tidx = 0 := rfl
@[simp] theorem resetCore_inMem (s : State) : (resetCore s).inMem = { epoch := s.free, cells := [] } := rfl
@[simp] theorem resetCore_obuf (s : State) :
    (resetCore s).obuf = { epoch := s.free + 1, cells := [] } := rfl
@[simp] theorem resetCore_hbuf (s : State) :
    (resetCore s).hbuf = { epoch := s.free + 2, cells := [] } := rfl
@[simp] theorem resetCore_free (s : State) : (resetCore s).free = s.free + 3 := rfl
@[simp] theorem resetCore_agenda (s : State) : (resetCore s).agenda = s.agenda := rfl
@[simp] theorem resetCore_hostData (s : State) : (resetCore s).hostData = s.hostData := rfl

/-! ### another bus (R9) -/

@[simp] theorem onBus_cfg (m : RegMap) (p : HbufPacking) (s : State) :
    (s.onBus m p).cfg = { s.cfg with regMap := m, hbufPacking := p } := rfl
@[simp] theorem onBus_mode (m : RegMap) (p : HbufPacking) (s : State) : (s.onBus m p).mode = s.mode := rfl
@[simp] theorem onBus_outcome (m : RegMap) (p : HbufPacking) (s : State) :
    (s.onBus m p).outcome = s.outcome := rfl
@[simp] theorem onBus_faultReason (m : RegMap) (p : HbufPacking) (s : State) :
    (s.onBus m p).faultReason = s.faultReason := rfl
@[simp] theorem onBus_inLen (m : RegMap) (p : HbufPacking) (s : State) :
    (s.onBus m p).inLen = s.inLen := rfl
@[simp] theorem onBus_outLen (m : RegMap) (p : HbufPacking) (s : State) :
    (s.onBus m p).outLen = s.outLen := rfl
@[simp] theorem onBus_tileCount (m : RegMap) (p : HbufPacking) (s : State) :
    (s.onBus m p).tileCount = s.tileCount := rfl
@[simp] theorem onBus_ip (m : RegMap) (p : HbufPacking) (s : State) : (s.onBus m p).ip = s.ip := rfl
@[simp] theorem onBus_op (m : RegMap) (p : HbufPacking) (s : State) : (s.onBus m p).op = s.op := rfl
@[simp] theorem onBus_phase (m : RegMap) (p : HbufPacking) (s : State) :
    (s.onBus m p).phase = s.phase := rfl
@[simp] theorem onBus_psrc (m : RegMap) (p : HbufPacking) (s : State) : (s.onBus m p).psrc = s.psrc := rfl
@[simp] theorem onBus_ptc (m : RegMap) (p : HbufPacking) (s : State) : (s.onBus m p).ptc = s.ptc := rfl
@[simp] theorem onBus_tidx (m : RegMap) (p : HbufPacking) (s : State) : (s.onBus m p).tidx = s.tidx := rfl
@[simp] theorem onBus_inMem (m : RegMap) (p : HbufPacking) (s : State) :
    (s.onBus m p).inMem = s.inMem := rfl
@[simp] theorem onBus_obuf (m : RegMap) (p : HbufPacking) (s : State) : (s.onBus m p).obuf = s.obuf := rfl
@[simp] theorem onBus_hbuf (m : RegMap) (p : HbufPacking) (s : State) : (s.onBus m p).hbuf = s.hbuf := rfl
@[simp] theorem onBus_free (m : RegMap) (p : HbufPacking) (s : State) : (s.onBus m p).free = s.free := rfl
@[simp] theorem onBus_agenda (m : RegMap) (p : HbufPacking) (s : State) :
    (s.onBus m p).agenda = s.agenda := rfl
@[simp] theorem onBus_hostData (m : RegMap) (p : HbufPacking) (s : State) :
    (s.onBus m p).hostData = s.hostData := rfl

end Sys2Proof.Machine
end

