-- ==== Sys2Proof/Laws/Ops.lean ====
section
/-! SUPPORT. One lemma for each shared operation, which says once everything it can do. -/

namespace Sys2Proof.Machine

/-! ### Emit and the runs of emitted bytes -/

theorem op_succ {s : State} (h : s.op.toNat + 1 < 2 ^ 32) : (s.op + 1).toNat = s.op.toNat + 1 := by
  rw [BitVec.toNat_add]
  exact Nat.mod_eq_of_lt h

theorem add_ofNat_succ (x : Word) (n : Nat) :
    x + 1#32 + BitVec.ofNat 32 n = x + BitVec.ofNat 32 (n + 1) := by
  rw [BitVec.add_assoc, BitVec.ofNat_add, BitVec.add_comm 1#32]

theorem op_add {s : State} {n : Nat} (h : s.op.toNat + n < 2 ^ 32) :
    (s.op + BitVec.ofNat 32 n).toNat = s.op.toNat + n := by
  rw [BitVec.toNat_add, BitVec.toNat_ofNat]
  omega

/-- Emitting a list writes it at the write position and moves the position past it. -/
theorem emitAll_eq (vs : List Byte) (s : State) (h : s.op.toNat + vs.length < 2 ^ 32) :
    emitAll vs s = { s with
      obuf := s.obuf.writeAll s.op.toNat vs, op := s.op + BitVec.ofNat 32 vs.length } := by
  induction vs generalizing s with
  | nil => simp [emitAll, Memory.writeAll]
  | cons v vs ih =>
    simp only [List.length_cons] at h
    have h1 : (s.emit v).op.toNat = s.op.toNat + 1 := op_succ (by omega)
    rw [emitAll, ih _ (by rw [h1]; omega), h1]
    simp [State.emit, Memory.writeAll, add_ofNat_succ]

theorem emitSame_eq (v : Byte) (n : Nat) (s : State) : emitSame v n s = emitAll (List.replicate n v) s := by
  induction n generalizing s with
  | zero => rfl
  | succ n ih => simp [emitSame, ih, List.replicate_succ, emitAll]

/-- The `n` bytes of an Alternate (R132): `b0` at even places, `b1` at odd ones. -/
def alternating (b0 b1 : Byte) : Nat → List Byte
  | 0 => []
  | n + 1 => b0 :: alternating b1 b0 n

@[simp] theorem alternating_length (b0 b1 : Byte) (n : Nat) : (alternating b0 b1 n).length = n := by
  induction n generalizing b0 b1 with
  | zero => rfl
  | succ n ih => simp [alternating, ih]

theorem alternating_getElem (b0 b1 : Byte) (n k : Nat) (h : k < (alternating b0 b1 n).length) :
    (alternating b0 b1 n)[k] = if k % 2 = 0 then b0 else b1 := by
  induction n generalizing b0 b1 k with
  | zero => simp [alternating] at h
  | succ n ih =>
    cases k with
    | zero => simp [alternating]
    | succ k =>
      simp only [alternating, List.getElem_cons_succ]
      rw [ih]
      by_cases hk : k % 2 = 0
      · rw [if_pos hk, if_neg (by omega)]
      · rw [if_neg hk, if_pos (by omega)]

theorem emitAlternate_eq (b0 b1 : Byte) (n : Nat) (s : State) :
    emitAlternate b0 b1 n s = emitAll (alternating b0 b1 n) s := by
  induction n generalizing b0 b1 s with
  | zero => rfl
  | succ n ih => simp [emitAlternate, ih, alternating, emitAll]

/-- What emitting a list does, as a run of writes. -/
theorem emitAll_writesRun (vs : List Byte) (s : State) (h : s.op.toNat + vs.length < 2 ^ 32)
    (out : Nat → Byte) (hout : ∀ k (hk : k < vs.length), vs[k] = out k) :
    s.writesRun (emitAll vs s) 0 vs.length out := by
  rw [emitAll_eq vs s h]
  refine ⟨by simp, op_add h, fun k hk => ?_, fun a ha => ?_⟩
  · rw [read_writeAll_inside vs s.obuf hk, hout k hk]
  · exact read_writeAll_outside vs s.obuf ha

/-- What a forward copy does: everything R153, R154 and R156 say of it. Byte `k` is read from the memory
AFTER the copy, which is what it was when it was read, since no byte is written twice. -/
theorem copyForward_writesRun (f : Byte → Byte) (n off : Nat) (s : State) (hoff : off < s.op.toNat)
    (h : s.op.toNat + n < 2 ^ 32) :
    s.writesRun (copyForward f n off s) 0 n
      (fun k => f ((copyForward f n off s).obuf.read (off + k))) := by
  induction n generalizing s off with
  | zero => simp [copyForward, State.writesRun]
  | succ n ih =>
    have h1 : (s.emit (f (s.obuf.read off))).op.toNat = s.op.toNat + 1 := op_succ (by omega)
    obtain ⟨heq, hop, hin, hout⟩ := ih (off + 1) (s.emit (f (s.obuf.read off))) (by omega) (by omega)
    rw [h1] at hop hin hout
    simp only [copyForward]
    set t := copyForward f n (off + 1) (s.emit (f (s.obuf.read off))) with ht
    refine ⟨?_, by omega, fun k hk => ?_, fun a ha => ?_⟩
    · rw [heq]
      simp [State.emit, add_ofNat_succ]
    · cases k with
      | zero =>
        simp only [Nat.add_zero]
        rw [hout _ (.inl (by omega)), hout _ (.inl (by omega))]
        simp only [emit_obuf, read_write_same]
        rw [read_write_other _ _ (by omega)]
      | succ k =>
        have hk' := hin k (by omega)
        rw [show s.op.toNat + (k + 1) = s.op.toNat + 1 + k by omega, hk']
        simp only [Nat.add_assoc, Nat.add_comm 1 k]
    · rw [hout a (by omega), emit_obuf, read_write_other _ _ (by omega)]

/-- What a backward copy does (R155): it reads only bytes written before it. -/
theorem copyBackward_writesRun (n off : Nat) (s : State) (hoff : off < s.op.toNat) (hn : n ≤ off + 1)
    (h : s.op.toNat + n < 2 ^ 32) :
    s.writesRun (copyBackward n off s) 0 n (fun k => s.obuf.read (off - k)) := by
  induction n generalizing s off with
  | zero => simp [copyBackward, State.writesRun]
  | succ n ih =>
    have h1 : (s.emit (s.obuf.read off)).op.toNat = s.op.toNat + 1 := op_succ (by omega)
    obtain ⟨heq, hop, hin, hout⟩ := ih (off - 1) (s.emit (s.obuf.read off)) (by omega) (by omega) (by omega)
    rw [h1] at hop hin hout
    simp only [copyBackward]
    refine ⟨?_, by omega, fun k hk => ?_, fun a ha => ?_⟩
    · rw [heq]
      simp [State.emit, add_ofNat_succ]
    · cases k with
      | zero =>
        rw [Nat.add_zero, hout _ (.inl (by omega))]
        simp
      | succ k =>
        rw [show s.op.toNat + (k + 1) = s.op.toNat + 1 + k by omega, hin k (by omega), emit_obuf]
        simp only
        rw [read_write_other _ _ (by omega), Nat.sub_sub, Nat.add_comm 1 k]
    · rw [hout a (by omega), emit_obuf, read_write_other _ _ (by omega)]

/-- Fetching the operands first and running after is one run of writes. -/
theorem writesRun_fetched {s t : State} {j k n : Nat} {out : Nat → Byte}
    (h : (s.fetched j).writesRun t k n out) : s.writesRun t (j + k) n out := by
  obtain ⟨heq, hop, hin, hout⟩ := h
  refine ⟨?_, hop, hin, hout⟩
  rw [heq]
  simp [State.fetched, BitVec.add_assoc, BitVec.ofNat_add]

/-! ### Data commands -/

/-- A data command over the capacity ends with TooLarge before any operand byte is fetched (R106). -/
theorem dataCommand_over {header n : Nat} {body : State → State} {s : State}
    (h : s.cfg.capBytes < s.op.toNat + n) :
    dataCommand header n body s = lzFail .tooLarge (s.fetched header) := if_pos h

/-- A data command that fits runs its own rule (R106, R107). -/
theorem dataCommand_fits {header n : Nat} {body : State → State} {s : State}
    (h : s.op.toNat + n ≤ s.cfg.capBytes) :
    dataCommand header n body s = body (s.fetched header) := if_neg (by omega)

/-! ### Entering the plane stage -/

/-- Everything `EnterPlane` can do (R181). -/
theorem enterPlane_cases (src : PlaneSource) (len : Nat) (s : State) :
    (s.cfg.capacityTiles < len / 16 ∧
      enterPlane src len s = finish .tooLarge (releaseTileSet s)) ∨
    (len / 16 = 0 ∧ enterPlane src len s = finish .ok (releaseTileSet s)) ∨
    (0 < len / 16 ∧ len / 16 ≤ s.cfg.capacityTiles ∧
      enterPlane src len s = { releaseTileSet s with
        psrc := src, ptc := BitVec.ofNat 32 (len / 16), tidx := 0, phase := .plane }) := by
  unfold enterPlane
  by_cases h : s.cfg.capacityTiles < len / 16
  · exact .inl ⟨h, by simp [h]⟩
  · by_cases h0 : len / 16 = 0
    · exact .inr (.inl ⟨h0, by simp [h0]⟩)
    · exact .inr (.inr ⟨by omega, by omega, by simp only [h, h0]; simp⟩)

/-- `StartRaw` as its three cases (R180). -/
theorem startRaw_cases (s : State) :
    (s.cfg.inCapBytes < s.inLen.toNat ∧ startRaw s = raiseFault .inLen s) ∨
    (s.inLen.toNat ≤ s.cfg.inCapBytes ∧ s.inLen.toNat % 16 ≠ 0 ∧ startRaw s = finish .badDimensions s) ∨
    (s.inLen.toNat ≤ s.cfg.inCapBytes ∧ s.inLen.toNat % 16 = 0 ∧
      startRaw s = enterPlane .inMem s.inLen.toNat s) := by
  unfold startRaw
  by_cases h : s.cfg.inCapBytes < s.inLen.toNat
  · exact .inl ⟨h, by simp [h]⟩
  · by_cases h0 : s.inLen.toNat % 16 = 0
    · exact .inr (.inr ⟨by omega, h0, by simp [h, h0]⟩)
    · exact .inr (.inl ⟨by omega, h0, by simp [h, h0]⟩)

/-! ### The plane decoder -/

theorem tileHues_length (byte : Nat → Byte) : (tileHues byte).length = 64 := by
  simp [tileHues, List.range_succ]

/-- Hue `8j + i` of a tile is pixel `i` of row `j` (R182). -/
theorem tileHues_getElem (byte : Nat → Byte) {i j : Nat} (hi : i < 8) (_hj : j < 8)
    (h : 8 * j + i < (tileHues byte).length) :
    (tileHues byte)[8 * j + i] = pixelHue (byte (2 * j)) (byte (2 * j + 1)) i := by
  have hl : tileHues byte =
      (List.range 64).map fun k => pixelHue (byte (2 * (k / 8))) (byte (2 * (k / 8) + 1)) (k % 8) := by
    simp [tileHues, List.range_succ]
  simp only [hl, List.getElem_map, List.getElem_range]
  rw [show (8 * j + i) / 8 = j by omega, show (8 * j + i) % 8 = i by omega]

end Sys2Proof.Machine
end

