-- ==== Sys2Proof/Laws/Exec.lean ====
section
/-! SUPPORT. What each command's own rule does, and the inversion lemma of `exec`: everything a command can do
is a run of writes, a failed job, or the entry of the plane stage. -/

namespace Sys2Proof.Machine

/-! ### `n` Emits in a row -/

/-- `t` is `s` after `n` Emits of some bytes. -/
inductive Emits : State → Nat → State → Prop where
  /-- No byte. -/
  | none (s : State) : Emits s 0 s
  /-- One byte more. -/
  | more {s t : State} {n : Nat} (v : Byte) (h : Emits (s.emit v) n t) : Emits s (n + 1) t

theorem emits_emitAll (vs : List Byte) (s : State) : Emits s vs.length (emitAll vs s) := by
  induction vs generalizing s with
  | nil => exact .none s
  | cons v vs ih => exact .more v (ih _)

theorem emits_emitSame (v : Byte) (n : Nat) (s : State) : Emits s n (emitSame v n s) := by
  induction n generalizing s with
  | zero => exact .none s
  | succ n ih => exact .more v (ih _)

theorem emits_emitAlternate (b0 b1 : Byte) (n : Nat) (s : State) : Emits s n (emitAlternate b0 b1 n s) := by
  induction n generalizing b0 b1 s with
  | zero => exact .none s
  | succ n ih => exact .more b0 (ih _ _ _)

theorem emits_copyForward (f : Byte → Byte) (n off : Nat) (s : State) :
    Emits s n (copyForward f n off s) := by
  induction n generalizing off s with
  | zero => exact .none s
  | succ n ih => exact .more _ (ih _ _)

theorem emits_copyBackward (n off : Nat) (s : State) : Emits s n (copyBackward n off s) := by
  induction n generalizing off s with
  | zero => exact .none s
  | succ n ih => exact .more _ (ih _ _)

/-- Emits change nothing but OP and OBUF. -/
theorem Emits.frame {s t : State} {n : Nat} (h : Emits s n t) :
    t = { s with op := s.op + BitVec.ofNat 32 n, obuf := t.obuf } := by
  induction h with
  | none s => simp
  | more v h ih =>
    rw [ih]
    simp [State.emit, add_ofNat_succ]

/-- Emits keep OBUF's canonical form. -/
theorem Emits.obuf_wf {s t : State} {n : Nat} (h : Emits s n t) (hw : s.obuf.wf) : t.obuf.wf := by
  induction h with
  | none s => exact hw
  | more v h ih => exact ih (write_wf hw _ _)

/-- Emits keep OBUF's draw number. -/
theorem Emits.obuf_epoch {s t : State} {n : Nat} (h : Emits s n t) : t.obuf.epoch = s.obuf.epoch := by
  induction h with
  | none s => rfl
  | more v h ih => simpa using ih

/-- Emits within the size keep OBUF within it. -/
theorem Emits.obuf_within {s t : State} {n size : Nat} (h : Emits s n t) (hs : s.op.toNat + n ≤ size)
    (h32 : s.op.toNat + n < 2 ^ 32) (hw : s.obuf.within size) : t.obuf.within size := by
  induction h with
  | none s => exact hw
  | @more s t n v h ih =>
    have h1 : (s.emit v).op.toNat = s.op.toNat + 1 := op_succ (by omega)
    exact ih (by omega) (by omega) (write_within hw (by omega) v)

/-! ### Each command's own rule -/

theorem fetched_fetched (a b : Nat) (s : State) : (s.fetched a).fetched b = s.fetched (a + b) := by
  simp [State.fetched, BitVec.add_assoc, BitVec.ofNat_add]

/-- Within the capacity OP cannot wrap. -/
theorem op_lt_of_fits {s : State} (h : s.cfg.wf) {n : Nat} (hn : s.op.toNat + n ≤ s.cfg.capBytes) :
    s.op.toNat + n < 2 ^ 32 := by
  have := h.2.1
  omega

theorem literal_writesRun {s : State} {header n : Nat} {data : List Byte} (hw : s.cfg.wf)
    (hl : data.length = n) (hn : s.op.toNat + n ≤ s.cfg.capBytes) :
    s.writesRun (literal header n data s) (header + n) n (fun k => data.getD k 0) := by
  unfold literal
  rw [dataCommand_fits hn]
  subst hl
  refine writesRun_fetched (j := header) (writesRun_fetched (j := data.length) (k := 0) ?_)
  refine emitAll_writesRun data ((s.fetched header).fetched data.length) (op_lt_of_fits (s := s) hw hn) _ ?_
  intro k hk
  simp [List.getD_eq_getElem?_getD, hk]

theorem iterate_writesRun {s : State} {header n : Nat} {v : Byte} (hw : s.cfg.wf)
    (hn : s.op.toNat + n ≤ s.cfg.capBytes) :
    s.writesRun (iterate header n v s) (header + 1) n (fun _ => v) := by
  unfold iterate
  rw [dataCommand_fits hn]
  refine writesRun_fetched (j := header) (writesRun_fetched (j := 1) (k := 0) ?_)
  have h := emitAll_writesRun (List.replicate n v) ((s.fetched header).fetched 1)
    (by simpa using op_lt_of_fits (s := s) hw hn) (fun _ => v) (by intro k hk; simp)
  rwa [List.length_replicate, ← emitSame_eq] at h

theorem blankFill_writesRun {s : State} {header n : Nat} (hw : s.cfg.wf)
    (hn : s.op.toNat + n ≤ s.cfg.capBytes) :
    s.writesRun (blankFill header n s) header n (fun _ => 0#8) := by
  unfold blankFill
  rw [dataCommand_fits hn]
  refine writesRun_fetched (j := header) (k := 0) ?_
  have h := emitAll_writesRun (List.replicate n 0#8) (s.fetched header)
    (by simpa using op_lt_of_fits (s := s) hw hn) (fun _ => 0#8) (by intro k hk; simp)
  rwa [List.length_replicate, ← emitSame_eq] at h

theorem alternate_writesRun {s : State} {header n : Nat} {b0 b1 : Byte} (hw : s.cfg.wf)
    (hn : s.op.toNat + n ≤ s.cfg.capBytes) :
    s.writesRun (alternate header n b0 b1 s) (header + 2) n (fun k => if k % 2 = 0 then b0 else b1) := by
  unfold alternate
  rw [dataCommand_fits hn]
  refine writesRun_fetched (j := header) (writesRun_fetched (j := 2) (k := 0) ?_)
  have h := emitAll_writesRun (alternating b0 b1 n) ((s.fetched header).fetched 2)
    (by simpa using op_lt_of_fits (s := s) hw hn) (fun k => if k % 2 = 0 then b0 else b1)
    (fun k hk => alternating_getElem _ _ _ _ hk)
  rwa [alternating_length, ← emitAlternate_eq] at h

theorem forwardCopy_valid {s : State} {f : Byte → Byte} {header n : Nat} {disp : Disp}
    (hn : s.op.toNat + n ≤ s.cfg.capBytes) (h0 : 0 ≤ backRef s.op.toNat disp)
    (h1 : backRef s.op.toNat disp < s.op.toNat) :
    forwardCopy f header n disp s = copyForward f n (backRef s.op.toNat disp).toNat
      ((s.fetched header).fetched (dispSize disp)) := by
  unfold forwardCopy
  rw [dataCommand_fits hn]
  have hv : forwardValid s.op.toNat (backRef s.op.toNat disp) = true := by simp [forwardValid, h0, h1]
  simp only [fetched_op, hv, if_true]

theorem forwardCopy_writesRun {s : State} {f : Byte → Byte} {header n : Nat} {disp : Disp} (hw : s.cfg.wf)
    (hn : s.op.toNat + n ≤ s.cfg.capBytes) (h0 : 0 ≤ backRef s.op.toNat disp)
    (h1 : backRef s.op.toNat disp < s.op.toNat) :
    s.writesRun (forwardCopy f header n disp s) (header + dispSize disp) n
      (fun k => f ((forwardCopy f header n disp s).obuf.read ((backRef s.op.toNat disp).toNat + k))) := by
  rw [forwardCopy_valid hn h0 h1]
  refine writesRun_fetched (j := header) (writesRun_fetched (j := dispSize disp) (k := 0) ?_)
  exact copyForward_writesRun f n _ ((s.fetched header).fetched (dispSize disp))
    (by simp only [fetched_op]; omega) (op_lt_of_fits (s := s) hw hn)

theorem forwardCopy_invalid {s : State} {f : Byte → Byte} {header n : Nat} {disp : Disp}
    (hn : s.op.toNat + n ≤ s.cfg.capBytes)
    (h : ¬ (0 ≤ backRef s.op.toNat disp ∧ backRef s.op.toNat disp < s.op.toNat)) :
    forwardCopy f header n disp s = raiseFault .badRef (s.fetched (header + dispSize disp)) := by
  unfold forwardCopy
  rw [dataCommand_fits hn]
  have hv : forwardValid s.op.toNat (backRef s.op.toNat disp) = false := by
    simp only [forwardValid]; simpa using h
  simp only [fetched_op, hv, fetched_fetched]
  rfl

theorem backwardCopy_valid {s : State} {header n : Nat} {disp : Disp} (hn1 : 1 ≤ n)
    (hn : s.op.toNat + n ≤ s.cfg.capBytes) (h1 : backRef s.op.toNat disp < s.op.toNat)
    (h2 : 0 ≤ backRef s.op.toNat disp - ((n : Int) - 1)) :
    backwardCopy header n disp s = copyBackward n (backRef s.op.toNat disp).toNat
      ((s.fetched header).fetched (dispSize disp)) := by
  unfold backwardCopy
  rw [dataCommand_fits hn]
  have hv : backwardValid n s.op.toNat (backRef s.op.toNat disp) = true := by
    simp [backwardValid, forwardValid, h1]; omega
  simp only [fetched_op, hv, if_true]

theorem backwardCopy_writesRun {s : State} {header n : Nat} {disp : Disp} (hn1 : 1 ≤ n) (hw : s.cfg.wf)
    (hn : s.op.toNat + n ≤ s.cfg.capBytes) (h1 : backRef s.op.toNat disp < s.op.toNat)
    (h2 : 0 ≤ backRef s.op.toNat disp - ((n : Int) - 1)) :
    s.writesRun (backwardCopy header n disp s) (header + dispSize disp) n
      (fun k => s.obuf.read ((backRef s.op.toNat disp).toNat - k)) := by
  rw [backwardCopy_valid hn1 hn h1 h2]
  refine writesRun_fetched (j := header) (writesRun_fetched (j := dispSize disp) (k := 0) ?_)
  exact copyBackward_writesRun n _ ((s.fetched header).fetched (dispSize disp))
    (by simp only [fetched_op]; omega) (by omega) (op_lt_of_fits (s := s) hw hn)

theorem backwardCopy_invalid {s : State} {header n : Nat} {disp : Disp}
    (hn : s.op.toNat + n ≤ s.cfg.capBytes)
    (h : ¬ (0 ≤ backRef s.op.toNat disp ∧ backRef s.op.toNat disp < s.op.toNat
      ∧ 0 ≤ backRef s.op.toNat disp - ((n : Int) - 1))) :
    backwardCopy header n disp s = raiseFault .badRef (s.fetched (header + dispSize disp)) := by
  unfold backwardCopy
  rw [dataCommand_fits hn]
  have hv : backwardValid n s.op.toNat (backRef s.op.toNat disp) = false := by
    simp only [backwardValid, forwardValid]
    by_contra hc
    simp at hc
    exact h (by omega)
  simp only [fetched_op, hv, fetched_fetched]
  rfl

/-! ### The inversion lemma of `exec` -/

/-- A data command's meaning is `dataCommand` with a body of Emits or a BADREF. -/
theorem exec_dataForm {s : State} {i : Instr} {header n : Nat} (hd : dataForm i = some (header, n)) :
    ∃ body, exec i s = .next (dataCommand header n body s) := by
  cases i <;> simp only [dataForm, Option.some.injEq, Prod.mk.injEq, reduceCtorEq] at hd <;>
    obtain ⟨rfl, rfl⟩ := hd <;> exact ⟨_, rfl⟩

/-- A job that fails, as `failsWith` (R207). -/
theorem lzFail_failsWith (c : JobOutcome) (k : Nat) (s : State) :
    s.failsWith (lzFail c (s.fetched k)) k c .none :=
  ⟨rfl, by simp⟩

/-- A job that faults, as `failsWith` (R208). -/
theorem raiseFault_failsWith (r : FaultReason) (k : Nat) (s : State) :
    s.failsWith (raiseFault r (s.fetched k)) k .fault r :=
  ⟨rfl, by simp⟩

/-- Everything a data command can do, at any OP: fetch and emit, or fail. -/
theorem exec_data_cases {s : State} {i : Instr} {header n : Nat} (hd : dataForm i = some (header, n)) :
    (s.cfg.capBytes < s.op.toNat + n ∧ exec i s = .next (lzFail .tooLarge (s.fetched header))) ∨
    (s.op.toNat + n ≤ s.cfg.capBytes ∧
      ((∃ k t m, Emits (s.fetched k) m t ∧ (i.wellFormed = true → m = n ∧ k = (encode i).length)
          ∧ exec i s = .next t) ∨
        (exec i s = .next (raiseFault .badRef (s.fetched (encode i).length))))) := by
  by_cases hc : s.cfg.capBytes < s.op.toNat + n
  · obtain ⟨body, hb⟩ := exec_dataForm (s := s) hd
    exact .inl ⟨hc, by rw [hb, dataCommand_over hc]⟩
  · have hn : s.op.toNat + n ≤ s.cfg.capBytes := by omega
    refine .inr ⟨hn, ?_⟩
    have fwd : ∀ (f : Byte → Byte) (hdr : Nat) (d : Disp) (size : Nat), size = hdr + dispSize d →
        (∃ k t m, Emits (s.fetched k) m t ∧ (m = n ∧ k = size) ∧ forwardCopy f hdr n d s = t) ∨
          forwardCopy f hdr n d s = raiseFault .badRef (s.fetched size) := by
      rintro f hdr d _ rfl
      by_cases hv : 0 ≤ backRef s.op.toNat d ∧ backRef s.op.toNat d < s.op.toNat
      · refine .inl ⟨hdr + dispSize d, _, n, emits_copyForward f n (backRef s.op.toNat d).toNat _, ⟨rfl, rfl⟩, ?_⟩
        rw [forwardCopy_valid hn hv.1 hv.2, fetched_fetched]
      · exact .inr (forwardCopy_invalid hn hv)
    have bwd : ∀ (hdr : Nat) (d : Disp) (size : Nat), 1 ≤ n → size = hdr + dispSize d →
        (∃ k t m, Emits (s.fetched k) m t ∧ (m = n ∧ k = size) ∧ backwardCopy hdr n d s = t) ∨
          backwardCopy hdr n d s = raiseFault .badRef (s.fetched size) := by
      rintro hdr d _ h1 rfl
      by_cases hv : 0 ≤ backRef s.op.toNat d ∧ backRef s.op.toNat d < s.op.toNat
          ∧ 0 ≤ backRef s.op.toNat d - ((n : Int) - 1)
      · refine .inl ⟨hdr + dispSize d, _, n, emits_copyBackward n (backRef s.op.toNat d).toNat _, ⟨rfl, rfl⟩, ?_⟩
        rw [backwardCopy_valid h1 hn hv.2.1 hv.2.2, fetched_fetched]
      · exact .inr (backwardCopy_invalid hn hv)
    have wrap : ∀ {o : State} {size : Nat}, exec i s = .next o → size = (encode i).length →
        ((∃ k t m, Emits (s.fetched k) m t ∧ (m = n ∧ k = size) ∧ o = t) ∨
          o = raiseFault .badRef (s.fetched size)) →
        ((∃ k t m, Emits (s.fetched k) m t ∧ (i.wellFormed = true → m = n ∧ k = (encode i).length)
          ∧ exec i s = .next t) ∨
        (exec i s = .next (raiseFault .badRef (s.fetched (encode i).length)))) := by
      rintro o size ho rfl (⟨k, t, m, he, hk, rfl⟩ | h)
      · exact .inl ⟨k, o, m, he, fun _ => hk, ho⟩
      · exact .inr (by rw [ho, h])
    have size_disp : ∀ d : Disp, (dispBytes d).length = dispSize d := by intro d; cases d <;> rfl
    cases i <;> simp only [dataForm, Option.some.injEq, Prod.mk.injEq, reduceCtorEq] at hd <;>
      obtain ⟨rfl, rfl⟩ := hd
    case lit len data =>
      refine .inl ⟨1 + data.length, _, data.length, emits_emitAll data _, fun h => ?_, ?_⟩
      · have : data.length = len.toNat + 1 := by simpa [Instr.wellFormed] using h
        simp [shortLen, encode]; omega
      · simp only [exec, execLit, literal]; rw [dataCommand_fits hn, fetched_fetched]
    case litL len data =>
      refine .inl ⟨2 + data.length, _, data.length, emits_emitAll data _, fun h => ?_, ?_⟩
      · have : data.length = len.toNat + 1 := by simpa [Instr.wellFormed] using h
        simp [longLen, encode, longBytes]; omega
      · simp only [exec, execLitL, literal]; rw [dataCommand_fits hn, fetched_fetched]
    case iter len v =>
      refine .inl ⟨2, _, _, emits_emitSame v _ _, fun _ => ⟨rfl, rfl⟩, ?_⟩
      simp only [exec, execIter, iterate]; rw [dataCommand_fits hn, fetched_fetched]
    case iterL len v =>
      refine .inl ⟨3, _, _, emits_emitSame v _ _, fun _ => ⟨rfl, rfl⟩, ?_⟩
      simp only [exec, execIterL, iterate]; rw [dataCommand_fits hn, fetched_fetched]
    case alt len b0 b1 =>
      refine .inl ⟨3, _, _, emits_emitAlternate b0 b1 _ _, fun _ => ⟨rfl, rfl⟩, ?_⟩
      simp only [exec, execAlt, alternate]; rw [dataCommand_fits hn, fetched_fetched]
    case altL len b0 b1 =>
      refine .inl ⟨4, _, _, emits_emitAlternate b0 b1 _ _, fun _ => ⟨rfl, rfl⟩, ?_⟩
      simp only [exec, execAltL, alternate]; rw [dataCommand_fits hn, fetched_fetched]
    case blank len =>
      refine .inl ⟨1, _, _, emits_emitSame 0#8 _ _, fun _ => ⟨rfl, rfl⟩, ?_⟩
      simp only [exec, execBlank, blankFill]; rw [dataCommand_fits hn]
    case blankL len =>
      refine .inl ⟨2, _, _, emits_emitSame 0#8 _ _, fun _ => ⟨rfl, rfl⟩, ?_⟩
      simp only [exec, execBlankL, blankFill]; rw [dataCommand_fits hn]
    case rpt len d => exact wrap rfl (by simp [encode, size_disp]; omega) (fwd id 1 d _ rfl)
    case flip len d => exact wrap rfl (by simp [encode, size_disp]; omega) (fwd bitReverse 1 d _ rfl)
    case rev len d => exact wrap rfl (by simp [encode, size_disp]; omega) (bwd 1 d _ (by simp [shortLen]) rfl)
    case rptL len d => exact wrap rfl (by simp [encode, size_disp, longBytes]; omega) (fwd id 2 d _ rfl)
    case flipL len d =>
      exact wrap rfl (by simp [encode, size_disp, longBytes]; omega) (fwd bitReverse 2 d _ rfl)
    case revL len d =>
      exact wrap rfl (by simp [encode, size_disp, longBytes]; omega) (bwd 2 d _ (by simp [longLen]) rfl)

/-- THE INVERSION LEMMA OF `exec`: every command answers a next state, and that state is the state after
Fetches and Emits, or that of a failed job, or that of the plane stage's entry. -/
theorem exec_cases (i : Instr) (s : State) : ∃ t, exec i s = .next t ∧
    ((∃ k m, Emits (s.fetched k) m t ∧ (i.wellFormed = true → k = (encode i).length)
        ∧ (i.wellFormed = true → s.op.toNat + m ≤ s.cfg.capBytes)) ∨
      (∃ k c r, s.failsWith t k c r ∧ 1 ≤ k ∧ (i.wellFormed = true → k ≤ (encode i).length) ∧
        (c = .tooLarge ∧ r = .none ∨ c = .badCommand ∧ r = .none ∨ c = .fault ∧ r = .badRef)) ∨
      (i = .endStream ∧ t = enterPlane .obuf s.op.toNat { s.fetched 1 with outLen := s.op })) := by
  cases hd : dataForm i with
  | some p =>
    obtain ⟨header, n⟩ := p
    have hh : 1 ≤ header ∧ header ≤ (encode i).length := by
      cases i <;> simp only [dataForm, Option.some.injEq, Prod.mk.injEq, reduceCtorEq] at hd <;>
        obtain ⟨rfl, rfl⟩ := hd <;> simp [encode, longBytes]
    rcases exec_data_cases (s := s) hd with ⟨hc, h⟩ | ⟨hn, ⟨k, t, m, he, hk, h⟩ | h⟩
    · exact ⟨_, h, .inr (.inl ⟨header, _, _, lzFail_failsWith _ _ _, hh.1, fun _ => hh.2, .inl ⟨rfl, rfl⟩⟩)⟩
    · exact ⟨t, h, .inl ⟨k, m, he, fun hw => (hk hw).2, fun hw => by rw [(hk hw).1]; exact hn⟩⟩
    · exact ⟨_, h, .inr (.inl ⟨_, _, _, raiseFault_failsWith _ _ _, by omega, fun _ => Nat.le_refl _,
        .inr (.inr ⟨rfl, rfl⟩)⟩)⟩
  | none =>
    cases i <;> simp only [dataForm, reduceCtorEq] at hd
    · exact ⟨_, rfl, .inr (.inr ⟨rfl, rfl⟩)⟩
    all_goals
      exact ⟨_, rfl, .inr (.inl ⟨1, _, _, lzFail_failsWith _ _ _, by omega, fun _ => by simp [encode],
        .inr (.inl ⟨rfl, rfl⟩)⟩)⟩

end Sys2Proof.Machine
end

