-- ==== Sys2Proof/Laws/PerInstr.lean ====
section
/-! SUPPORT. The statements made per command: `EncodeFits`, "A command is 1 to 1026 bytes long" (R70). -/

namespace Sys2Proof.Laws.EncodeFits

/-- A well-formed command's encoding is 1 to 1026 bytes long (R70). -/
def Statement (i : Instr) : Prop :=
  i.wellFormed = true → 1 ≤ (encode i).length ∧ (encode i).length ≤ maxCommandBytes

/-- A displacement is one byte or two (R76). -/
theorem dispBytes_length_le (d : Disp) : (dispBytes d).length ≤ 2 := by
  cases d <;> simp [dispBytes]

theorem lit (len : BitVec 5) (data : List Byte) : Statement (.lit len data) := by
  intro h
  have hl : data.length = len.toNat + 1 := by simpa [Instr.wellFormed] using h
  simp only [encode, List.length_cons, maxCommandBytes]; omega

theorem iter (len : BitVec 5) (v : Byte) : Statement (.iter len v) := by
  intro _; simp [encode, maxCommandBytes]

theorem alt (len : BitVec 5) (b0 b1 : Byte) : Statement (.alt len b0 b1) := by
  intro _; simp [encode, maxCommandBytes]

theorem blank (len : BitVec 5) : Statement (.blank len) := by
  intro _; simp [encode, maxCommandBytes]

theorem rpt (len : BitVec 5) (disp : Disp) : Statement (.rpt len disp) := by
  intro _; have := dispBytes_length_le disp; simp only [encode, List.length_cons, maxCommandBytes]; omega

theorem flip (len : BitVec 5) (disp : Disp) : Statement (.flip len disp) := by
  intro _; have := dispBytes_length_le disp; simp only [encode, List.length_cons, maxCommandBytes]; omega

theorem rev (len : BitVec 5) (disp : Disp) : Statement (.rev len disp) := by
  intro _; have := dispBytes_length_le disp; simp only [encode, List.length_cons, maxCommandBytes]; omega

theorem litL (len : BitVec 10) (data : List Byte) : Statement (.litL len data) := by
  intro h
  have hl : data.length = len.toNat + 1 := by simpa [Instr.wellFormed] using h
  simp only [encode, longBytes, List.length_append, List.length_cons, List.length_nil, maxCommandBytes]; omega

theorem iterL (len : BitVec 10) (v : Byte) : Statement (.iterL len v) := by
  intro _; simp [encode, longBytes, maxCommandBytes]

theorem altL (len : BitVec 10) (b0 b1 : Byte) : Statement (.altL len b0 b1) := by
  intro _; simp [encode, longBytes, maxCommandBytes]

theorem blankL (len : BitVec 10) : Statement (.blankL len) := by
  intro _; simp [encode, longBytes, maxCommandBytes]

theorem rptL (len : BitVec 10) (disp : Disp) : Statement (.rptL len disp) := by
  intro _; have := dispBytes_length_le disp
  simp only [encode, longBytes, List.length_append, List.length_cons, List.length_nil, maxCommandBytes]; omega

theorem flipL (len : BitVec 10) (disp : Disp) : Statement (.flipL len disp) := by
  intro _; have := dispBytes_length_le disp
  simp only [encode, longBytes, List.length_append, List.length_cons, List.length_nil, maxCommandBytes]; omega

theorem revL (len : BitVec 10) (disp : Disp) : Statement (.revL len disp) := by
  intro _; have := dispBytes_length_le disp
  simp only [encode, longBytes, List.length_append, List.length_cons, List.length_nil, maxCommandBytes]; omega

theorem endStream : Statement .endStream := by intro _; simp [encode, maxCommandBytes]

theorem illegalFC : Statement .illegalFC := by intro _; simp [encode, maxCommandBytes]

theorem illegalFD : Statement .illegalFD := by intro _; simp [encode, maxCommandBytes]

theorem illegalFE : Statement .illegalFE := by intro _; simp [encode, maxCommandBytes]

end Sys2Proof.Laws.EncodeFits
end

