-- ==== Sys2Proof/Laws/Step.lean ====
section
/-! SUPPORT. The inversion lemmas of the step: whose turn it is, and everything the engine's and the host's
turns can do. -/

namespace Sys2Proof.Machine

/-! ### Turns -/

/-- The agenda is no part of what is left of the stream. -/
@[simp] theorem stream_agenda (s : State) (a : List Turn) :
    State.stream { s with agenda := a } = s.stream := rfl

/-- When the engine has the next turn, a step is the engine's turn. -/
theorem step_engineNext {s : State} (h : s.engineNext) :
    step s = engineTurn { s with agenda := s.agenda.tail } := by
  unfold step
  rcases h with h | h
  · rw [h]
    cases s
    simp only at h
    subst h
    rfl
  · cases ha : s.agenda with
    | nil => rw [ha] at h; simp at h
    | cons t r =>
      rw [ha] at h
      simp only [List.head?_cons, Option.some.injEq] at h
      subst h
      rfl

/-- When the host has the next turn, a step is its move. -/
theorem step_hostNext {s : State} {m : HostMove} {rest : List Turn} (h : s.agenda = .host m :: rest) :
    step s = hostTurn m { s with agenda := rest } := by
  unfold step
  rw [h]

/-- Either the engine or the host has the next turn. -/
theorem engineNext_or_host (s : State) : s.engineNext ∨ ∃ m rest, s.agenda = .host m :: rest := by
  cases h : s.agenda with
  | nil => exact .inl (.inl h)
  | cons t rest =>
    cases t with
    | engine => exact .inl (.inr (by rw [h]; rfl))
    | host m => exact .inr ⟨m, rest, rfl⟩

theorem engineTurn_idle {s : State} (h : s.phase = .idle) : engineTurn s = .next s := by
  unfold engineTurn; rw [h]

theorem engineTurn_lz {s : State} (h : s.phase = .lz) : engineTurn s = lzStep s := by
  unfold engineTurn; rw [h]

theorem engineTurn_plane {s : State} (h : s.phase = .plane) : engineTurn s = planeStep s := by
  unfold engineTurn; rw [h]

/-- Taking a turn off an empty agenda changes nothing. -/
theorem agenda_tail_nil {s : State} (h : s.agenda = []) :
    ({ s with agenda := s.agenda.tail } : State) = s := by
  cases s
  simp only at h
  subst h
  rfl

/-! ### The LZ step -/

theorem stream_length (s : State) :
    s.stream.length = min maxCommandBytes (min s.inLen.toNat s.cfg.inCapBytes - s.ip.toNat) := by
  simp [State.stream]

theorem stream_getElem (s : State) (k : Nat) (h : k < s.stream.length) :
    s.stream[k] = s.inMem.read (s.ip.toNat + k) := by
  simp [State.stream]

theorem lzStep_ok {s : State} {i : Instr} {rest : List Byte} (h : decode s.stream = .ok i rest) :
    lzStep s = exec i s := by
  unfold lzStep; rw [h]

/-- What is read before an operand byte is missing: the header at least, and fewer bytes than the length. -/
theorem decode_noOperandByte {bs : List Byte} {header n emitted : Nat}
    (h : decode bs = .noOperandByte header n emitted) :
    1 ≤ header ∧ header ≤ bs.length ∧ emitted < n := by
  have lit : ∀ (hd k : Nat) (mk : List Byte → Instr) (cs : List Byte),
      literalOperands hd k mk cs = .noOperandByte header n emitted → hd = header ∧ emitted < n := by
    intro hd k mk cs hl
    unfold literalOperands at hl
    split at hl
    · simp at hl
    · rename_i hnone
      simp only [Decoded.noOperandByte.injEq] at hl
      obtain ⟨rfl, rfl, rfl⟩ := hl
      refine ⟨rfl, ?_⟩
      by_contra hc
      rw [takeData_isSome (by omega)] at hnone
      simp at hnone
  have one : ∀ (hd k : Nat) (mk : Byte → Instr) (cs : List Byte), 1 ≤ k →
      oneOperand hd k mk cs = .noOperandByte header n emitted → hd = header ∧ emitted < n := by
    intro hd k mk cs hk hl
    unfold oneOperand at hl
    split at hl <;> simp at hl
    omega
  have two : ∀ (hd k : Nat) (mk : Byte → Byte → Instr) (cs : List Byte), 1 ≤ k →
      twoOperands hd k mk cs = .noOperandByte header n emitted → hd = header ∧ emitted < n := by
    intro hd k mk cs hk hl
    unfold twoOperands at hl
    split at hl <;> simp at hl
    omega
  have disp : ∀ (hd k : Nat) (mk : Disp → Instr) (cs : List Byte), 1 ≤ k →
      dispOperand hd k mk cs = .noOperandByte header n emitted → hd = header ∧ emitted < n := by
    intro hd k mk cs hk hl
    rcases dispOperand_cases hd k mk cs with ⟨d, r, -, e⟩ | ⟨-, e⟩ <;> rw [e] at hl <;> simp at hl
    omega
  have short : ∀ (c : BitVec 3) (len : BitVec 5) (cs : List Byte),
      decodeShort c len cs = .noOperandByte header n emitted → 1 = header ∧ emitted < n := by
    intro c len cs hl
    have hk : 1 ≤ shortLen len := by simp [shortLen]
    unfold decodeShort at hl
    split at hl
    · exact lit _ _ _ _ hl
    · exact one _ _ _ _ hk hl
    · exact two _ _ _ _ hk hl
    · simp at hl
    · exact disp _ _ _ _ hk hl
    · exact disp _ _ _ _ hk hl
    · exact disp _ _ _ _ hk hl
  have long : ∀ (c : BitVec 3) (len : BitVec 10) (cs : List Byte),
      decodeLong c len cs = .noOperandByte header n emitted → 2 = header ∧ emitted < n := by
    intro c len cs hl
    have hk : 1 ≤ longLen len := by simp [longLen]
    unfold decodeLong at hl
    split at hl
    · exact lit _ _ _ _ hl
    · exact one _ _ _ _ hk hl
    · exact two _ _ _ _ hk hl
    · simp at hl
    · exact disp _ _ _ _ hk hl
    · exact disp _ _ _ _ hk hl
    · exact disp _ _ _ _ hk hl
  cases bs with
  | nil => simp [decode] at h
  | cons b bs =>
    simp only [decode] at h
    split at h
    · simp at h
    · split at h
      · split at h
        · simp at h
        · cases bs with
          | nil => simp at h
          | cons l bs =>
            obtain ⟨rfl, he⟩ := long _ _ _ h
            simp [he]
      · obtain ⟨rfl, he⟩ := short _ _ _ h
        simp [he]

/-- Everything an LZ step can do. -/
theorem lzStep_cases (s : State) :
    (s.cfg.inCapBytes < s.inLen.toNat ∧ lzStep s = .fault .noInMemByte) ∨
    ∃ t, lzStep s = .next t ∧
      ((∃ i rest, decode s.stream = .ok i rest ∧ exec i s = .next t) ∨
        (∃ header n emitted, decode s.stream = .noOperandByte header n emitted ∧
          s.cfg.capBytes < s.op.toNat + n ∧ t = lzFail .tooLarge (s.fetched header)) ∨
        (∃ emitted, s.inLen.toNat ≤ s.cfg.inCapBytes ∧ t = streamEnded emitted s ∧
          (emitted = 0 ∨ s.op.toNat + emitted ≤ s.cfg.capBytes))) := by
  have ends : ∀ e, lzStep s = underrun e s → (e = 0 ∨ s.op.toNat + e ≤ s.cfg.capBytes) →
      (s.cfg.inCapBytes < s.inLen.toNat ∧ lzStep s = .fault .noInMemByte) ∨
      ∃ t, lzStep s = .next t ∧
        ((∃ i rest, decode s.stream = .ok i rest ∧ exec i s = .next t) ∨
          (∃ header n emitted, decode s.stream = .noOperandByte header n emitted ∧
            s.cfg.capBytes < s.op.toNat + n ∧ t = lzFail .tooLarge (s.fetched header)) ∨
          (∃ emitted, s.inLen.toNat ≤ s.cfg.inCapBytes ∧ t = streamEnded emitted s ∧
            (emitted = 0 ∨ s.op.toNat + emitted ≤ s.cfg.capBytes))) := by
    intro e he hop
    by_cases hc : s.inLen.toNat ≤ s.cfg.inCapBytes
    · exact .inr ⟨_, by rw [he, underrun, if_pos hc], .inr (.inr ⟨e, hc, rfl, hop⟩)⟩
    · exact .inl ⟨by omega, by rw [he, underrun, if_neg hc]⟩
  cases hd : decode s.stream with
  | ok i rest =>
    obtain ⟨t, ht, -⟩ := exec_cases i s
    exact .inr ⟨t, by rw [lzStep_ok hd, ht], .inl ⟨i, rest, rfl, ht⟩⟩
  | noCommandByte => rw [← hd]; exact ends 0 (by unfold lzStep; rw [hd]) (.inl rfl)
  | noLengthByte => rw [← hd]; exact ends 0 (by unfold lzStep; rw [hd]) (.inl rfl)
  | noOperandByte header n emitted =>
    by_cases hc : s.cfg.capBytes < s.op.toNat + n
    · exact .inr ⟨_, by unfold lzStep; rw [hd]; simp only; rw [if_pos hc],
        .inr (.inl ⟨header, n, emitted, rfl, hc, rfl⟩)⟩
    · have := (decode_noOperandByte hd).2.2
      rw [← hd]
      exact ends emitted (by unfold lzStep; rw [hd]; simp only; rw [if_neg hc]) (.inr (by omega))

/-! ### The plane step -/

/-- Everything a plane step can do. -/
theorem planeStep_cases (s : State) :
    (¬ (16 * s.tidx.toNat + 16 ≤ s.planeSourceSize ∧ 64 * s.tidx.toNat + 64 ≤ s.cfg.hueCount) ∧
      planeStep s = .fault .noPlaneElement) ∨
    (16 * s.tidx.toNat + 16 ≤ s.planeSourceSize ∧ 64 * s.tidx.toNat + 64 ≤ s.cfg.hueCount ∧
      ∃ t, planeStep s = .next t
        ∧ t.hbuf = s.hbuf.writeAll (64 * s.tidx.toNat)
            (tileHues fun k => s.planeByte (16 * s.tidx.toNat + k))
        ∧ t = { s with
            hbuf := t.hbuf, tidx := s.tidx + 1, tileCount := t.tileCount
            phase := t.phase, outcome := t.outcome, faultReason := t.faultReason }
        ∧ (s.tidx + 1 = s.ptc ∧ t.tileCount = s.ptc ∧ t.phase = .idle ∧ t.outcome = .ok
              ∧ t.faultReason = .none ∨
            s.tidx + 1 ≠ s.ptc ∧ t.tileCount = s.tileCount ∧ t.phase = s.phase ∧ t.outcome = s.outcome
              ∧ t.faultReason = s.faultReason)) := by
  by_cases hb : 16 * s.tidx.toNat + 16 ≤ s.planeSourceSize ∧ 64 * s.tidx.toNat + 64 ≤ s.cfg.hueCount
  · refine .inr ⟨hb.1, hb.2, afterTile (tileDecoded s), if_pos hb, ?_⟩
    by_cases hl : s.tidx + 1 = s.ptc
    · have e : afterTile (tileDecoded s) = finish .ok { tileDecoded s with tileCount := s.ptc } := if_pos hl
      rw [e]
      exact ⟨rfl, rfl, .inl ⟨hl, rfl, rfl, rfl, rfl⟩⟩
    · have e : afterTile (tileDecoded s) = tileDecoded s := if_neg hl
      rw [e]
      exact ⟨rfl, rfl, .inr ⟨hl, rfl, rfl, rfl, rfl⟩⟩
  · exact .inl ⟨hb, if_neg hb⟩

/-! ### The host's moves -/

theorem busy_eq_false {s : State} : s.busy = false ↔ s.phase = .idle := by
  unfold State.busy
  cases s.phase <;> decide

theorem busy_eq_true {s : State} : s.busy = true ↔ s.phase ≠ .idle := by
  unfold State.busy
  cases s.phase <;> decide

/-- A START, by its MODE (R25). -/
theorem startJob_cases (s : State) :
    (s.mode = 0 ∧ startJob s = startRaw
        (jobBegun s).releaseObuf) ∨
    (s.mode = 1 ∧ s.cfg.inCapBytes < s.inLen.toNat ∧ startJob s = raiseFault .inLen
        (jobBegun s).releaseObuf) ∨
    (s.mode = 1 ∧ s.inLen.toNat ≤ s.cfg.inCapBytes ∧ startJob s =
        { (jobBegun s).releaseObuf with
          ip := 0, op := 0, phase := .lz }) ∨
    (2 ≤ s.mode.toNat ∧ startJob s =
        finish .null (jobBegun s)) := by
  have hm : s.mode = 0 ∨ s.mode = 1 ∨ 2 ≤ s.mode.toNat := by
    generalize s.mode = m; revert m; decide
  rcases hm with h | h | h
  · exact .inl ⟨h, by unfold startJob; rw [h]; rfl⟩
  · have e : startJob s = if s.cfg.inCapBytes < s.inLen.toNat then raiseFault .inLen (jobBegun s).releaseObuf
        else { (jobBegun s).releaseObuf with ip := 0, op := 0, phase := .lz } := by
      unfold startJob; rw [h]; rfl
    by_cases hc : s.cfg.inCapBytes < s.inLen.toNat
    · exact .inr (.inl ⟨h, hc, by rw [e, if_pos hc]⟩)
    · exact .inr (.inr (.inl ⟨h, by omega, by rw [e, if_neg hc]⟩))
  · refine .inr (.inr (.inr ⟨h, ?_⟩))
    unfold startJob
    split
    · omega
    · omega
    · rfl

/-- A write to CTRL (R25). -/
theorem writeCtrl_cases (w : Word) (s : State) :
    (s.phase ≠ .idle ∧ writeCtrl w s = s) ∨
    (s.phase = .idle ∧ ctrlStart w = false ∧ writeCtrl w s = { s with mode := ctrlMode w }) ∨
    (s.phase = .idle ∧ ctrlStart w = true ∧ writeCtrl w s = startJob { s with mode := ctrlMode w }) := by
  by_cases hp : s.phase = .idle
  · have hb : s.busy = false := busy_eq_false.2 hp
    cases hs : ctrlStart w
    · exact .inr (.inl ⟨hp, rfl, by simp [writeCtrl, hb, hs]⟩)
    · exact .inr (.inr ⟨hp, rfl, by simp [writeCtrl, hb, hs]⟩)
  · exact .inl ⟨hp, by simp [writeCtrl, busy_eq_true.2 hp]⟩

/-- A register read changes only what the host has read (R57). -/
theorem readReg_frame (r : HostReg) (s : State) :
    readReg r s = { s with hostData := (readReg r s).hostData, free := (readReg r s).free }
      ∧ s.free ≤ (readReg r s).free := by
  cases r <;> simp only [readReg] <;> (try split) <;> simp [hostReads, hostReadsAny]

/-- Everything a host move can do, when it is admitted: the CTRL write, reset, a write of the input while
idle, or a change of nothing but what the host has read (a write to a read-only register changes not even
that). -/
theorem hostTurn_cases {m : HostMove} {s t : State} (h : hostTurn m s = .next t) :
    (∃ w, m = .writeReg .ctrl w ∧ t = writeCtrl w s) ∨
    (m = .reset ∧ t = resetCore s) ∨
    (∃ w, m = .writeReg .inLen w ∧ s.phase = .idle ∧ t = { s with inLen := w }) ∨
    (∃ a v, m = .writeInMem a v ∧ s.phase = .idle ∧ a < s.cfg.inCapBytes
      ∧ t = { s with inMem := s.inMem.write a v }) ∨
    (((∃ r, m = .readReg r) ∨ (∃ a, m = .readInMem a) ∨ (∃ a, m = .readObuf a) ∨ (∃ a, m = .readHbuf a)
        ∨ ∃ r w, m = .writeReg r w ∧ r ≠ .ctrl ∧ r ≠ .inLen)
      ∧ t = { s with hostData := t.hostData, free := t.free } ∧ s.free ≤ t.free) := by
  cases m with
  | reset =>
    simp only [hostTurn, Host.Outcome.next.injEq] at h
    exact .inr (.inl ⟨rfl, h.symm⟩)
  | writeReg r w =>
    have ro : ∀ r : HostReg, r ≠ .ctrl → r ≠ .inLen → s = t →
        ((((∃ r', HostMove.writeReg r w = .readReg r') ∨ (∃ a, HostMove.writeReg r w = .readInMem a)
          ∨ (∃ a, HostMove.writeReg r w = .readObuf a) ∨ (∃ a, HostMove.writeReg r w = .readHbuf a)
          ∨ ∃ r' w', HostMove.writeReg r w = .writeReg r' w' ∧ r' ≠ .ctrl ∧ r' ≠ .inLen)
        ∧ t = { s with hostData := t.hostData, free := t.free } ∧ s.free ≤ t.free)) := by
      rintro r h1 h2 rfl
      exact ⟨.inr (.inr (.inr (.inr ⟨r, w, rfl, h1, h2⟩))), rfl, Nat.le_refl _⟩
    cases r <;> simp only [hostTurn, writeReg, Host.Outcome.next.injEq] at h
    · exact .inl ⟨w, rfl, h.symm⟩
    · exact .inr (.inr (.inr (.inr (ro _ (by simp) (by simp) h))))
    · by_cases hb : s.busy = true
      · simp [hb] at h
      · rw [if_neg hb, Host.Outcome.next.injEq] at h
        exact .inr (.inr (.inl ⟨w, rfl, busy_eq_false.1 (by simpa using hb), h.symm⟩))
    · exact .inr (.inr (.inr (.inr (ro _ (by simp) (by simp) h))))
    · exact .inr (.inr (.inr (.inr (ro _ (by simp) (by simp) h))))
  | writeInMem a v =>
    simp only [hostTurn, writeInMem] at h
    by_cases hb : s.busy = true
    · simp [hb] at h
    · by_cases ha : s.cfg.inCapBytes ≤ a
      · simp [hb, ha] at h
      · rw [if_neg hb, if_neg ha, Host.Outcome.next.injEq] at h
        exact .inr (.inr (.inr (.inl ⟨a, v, rfl, busy_eq_false.1 (by simpa using hb), by omega, h.symm⟩)))
  | readReg r =>
    simp only [hostTurn, Host.Outcome.next.injEq] at h
    subst h
    exact .inr (.inr (.inr (.inr ⟨.inl ⟨r, rfl⟩, (readReg_frame r s).1, (readReg_frame r s).2⟩)))
  | readInMem a =>
    simp only [hostTurn, readInMem] at h
    split at h
    · simp at h
    · simp only [Host.Outcome.next.injEq] at h
      subst h
      exact .inr (.inr (.inr (.inr ⟨.inr (.inl ⟨a, rfl⟩), rfl, Nat.le_refl _⟩)))
  | readObuf a =>
    simp only [hostTurn, readObuf] at h
    split at h
    · simp at h
    · split at h <;> simp only [Host.Outcome.next.injEq] at h <;> subst h <;>
        exact .inr (.inr (.inr (.inr ⟨.inr (.inr (.inl ⟨a, rfl⟩)), rfl, by simp⟩)))
  | readHbuf a =>
    simp only [hostTurn, readHbuf] at h
    split at h
    · simp at h
    · split at h <;> simp only [Host.Outcome.next.injEq] at h <;> subst h <;>
        exact .inr (.inr (.inr (.inr ⟨.inr (.inr (.inr (.inl ⟨a, rfl⟩))), rfl, by simp⟩)))

/-- No host move is a fault. -/
theorem hostTurn_no_fault (m : HostMove) (s : State) (r : Fault) : hostTurn m s ≠ .fault r := by
  cases m with
  | reset => simp [hostTurn]
  | writeReg r w =>
    cases r <;> simp only [hostTurn, writeReg] <;> (try split) <;> simp
  | writeInMem a v => simp only [hostTurn, writeInMem]; repeat (first | split | simp)
  | readReg r => simp [hostTurn]
  | readInMem a => simp only [hostTurn, readInMem]; split <;> simp
  | readObuf a => simp only [hostTurn, readObuf]; repeat (first | split | simp)
  | readHbuf a => simp only [hostTurn, readHbuf]; repeat (first | split | simp)

end Sys2Proof.Machine
end

