-- ==== Sys2Proof/Tests/Slice0.lean ====
section
/-! SUPPORT. The model's own tests: ill-formed terms refused, words written out bit by bit from the spec's
encodings, one step of every command against the vectors of spec/95_test_vectors.md, and for every
obligation with hypotheses a named witness that meets them. -/

open Sys2Proof Sys2Proof.Machine

namespace Sys2Proof.Tests

/-! ### Small states: two tiles, 64 bytes of input -/

/-- The parameters of the small states: CAP_BYTES is 32. -/
def small : Config := { Config.chosen with capacityTiles := 2, inCapBytes := 64 }

/-- An empty memory. -/
def noBytes (e : Nat) : Memory 8 := { epoch := e, cells := [] }

/-- A running LZ job: `bytes` is the stream, `out` what the job has written. -/
def lzState (bytes out : List Byte) : State :=
  { State.reset with
    cfg := small
    phase := .lz
    inMem := (noBytes 0).writeAll 0 bytes
    inLen := BitVec.ofNat 32 bytes.length
    obuf := (noBytes 1).writeAll 0 out
    op := BitVec.ofNat 32 out.length }

/-- A plane stage on IN_MEM, at tile `t` of `n`. -/
def planeState (bytes : List Byte) (t n : Nat) : State :=
  { lzState bytes [] with phase := .plane, ptc := BitVec.ofNat 32 n, tidx := BitVec.ofNat 32 t }

/-- An idle core that holds an input, two tiles and an OUT_LEN, and the host's move `m` to come. -/
def idleState (bytes : List Byte) (m : HostMove) : State :=
  { lzState bytes [] with phase := .idle, outcome := .ok, tileCount := 2, outLen := 3, agenda := [.host m] }

/-- The same, while a job runs. -/
def busyState (m : HostMove) : State := { lzState [0xFF#8] [] with agenda := [.host m] }

/-- A write to CTRL. -/
def ctrlWrite (w : Word) : HostMove := .writeReg .ctrl w

/-- What `f` sees of the state after one step. -/
def after {α : Type} (s : State) (f : State → α) : Option α :=
  match step s with
  | .next t => some (f t)
  | .fault _ => none
  | .refused _ => none

/-- IP, OP and the bytes OBUF lists. -/
def output (t : State) : Nat × Nat × List (Nat × Byte) := (t.ip.toNat, t.op.toNat, t.obuf.cells)

/-- How a job ended: PHASE, outcome, reason and OUT_LEN. -/
def ending (t : State) : Phase × JobOutcome × FaultReason × Nat :=
  (t.phase, t.outcome, t.faultReason, t.outLen.toNat)

/-! ### WellFormed refuses a Literal whose data is not as long as its length says -/

theorem test_lit_short_data_is_ill_formed : (Instr.lit 2#5 [0xAA#8, 0xBB#8]).wellFormed = false := by decide
theorem test_litL_long_data_is_ill_formed : (Instr.litL 0#10 [0xAA#8, 0xBB#8]).wellFormed = false := by decide

/-! ### Decoding: words written out bit by bit from R71, R72, R75, R76, R79 and R80 -/

theorem test_decode_lit : decode [0b00000001#8, 0xFF#8, 0xFE#8] = .ok (.lit 1#5 [0xFF#8, 0xFE#8]) [] := by
  decide
theorem test_decode_iter : decode [0b00111111#8, 0xFF#8] = .ok (.iter 31#5 0xFF#8) [] := by decide
theorem test_decode_alt : decode [0b01000000#8, 0x12#8, 0x34#8] = .ok (.alt 0#5 0x12#8 0x34#8) [] := by decide
theorem test_decode_blank : decode [0b01111111#8, 0x01#8] = .ok (.blank 31#5) [0x01#8] := by decide
theorem test_decode_repeat_relative : decode [0b10000001#8, 0b11111111#8] = .ok (.rpt 1#5 (.rel 127#7)) [] := by
  decide
theorem test_decode_repeat_absolute :
    decode [0b10000010#8, 0b01111111#8, 0b11111110#8] = .ok (.rpt 2#5 (.abs 0x7FFE#15)) [] := by decide
theorem test_decode_flip : decode [0b10100011#8, 0b10000010#8] = .ok (.flip 3#5 (.rel 2#7)) [] := by decide
theorem test_decode_rev : decode [0b11000010#8, 0b00000001#8, 0b00000010#8] = .ok (.rev 2#5 (.abs 0x102#15)) [] := by
  decide
theorem test_decode_litL :
    decode [0b11100000#8, 0b00000001#8, 0xAB#8, 0xCD#8] = .ok (.litL 1#10 [0xAB#8, 0xCD#8]) [] := by decide
theorem test_decode_iterL : decode [0b11100101#8, 0b00101011#8, 0x07#8] = .ok (.iterL 299#10 0x07#8) [] := by
  decide
theorem test_decode_altL :
    decode [0b11101011#8, 0b11111111#8, 0x12#8, 0x34#8] = .ok (.altL 1023#10 0x12#8 0x34#8) [] := by decide
theorem test_decode_blankL : decode [0b11101110#8, 0b00000000#8] = .ok (.blankL 512#10) [] := by decide
theorem test_decode_repeatL :
    decode [0b11110001#8, 0b00000000#8, 0b10000000#8] = .ok (.rptL 256#10 (.rel 0#7)) [] := by decide
theorem test_decode_flipL :
    decode [0b11110100#8, 0b00000001#8, 0b00000010#8, 0b00000011#8] = .ok (.flipL 1#10 (.abs 0x203#15)) [] := by
  decide
theorem test_decode_revL : decode [0b11111011#8, 0b00000010#8, 0b10000010#8] = .ok (.revL 770#10 (.rel 2#7)) [] := by
  decide
theorem test_decode_end : decode [0b11111111#8, 0x00#8] = .ok .endStream [0x00#8] := by decide
theorem test_decode_illegal :
    [[0b11111100#8], [0b11111101#8], [0b11111110#8]].map decode
      = [.ok .illegalFC [], .ok .illegalFD [], .ok .illegalFE []] := by decide
theorem test_decode_missing_bytes :
    decode [] = .noCommandByte ∧ decode [0xE3#8] = .noLengthByte
      ∧ decode [0x02#8, 0xAA#8, 0xBB#8] = .noOperandByte 1 3 2
      ∧ decode [0x40#8, 0x12#8] = .noOperandByte 1 1 0
      ∧ decode [0xF0#8, 0x00#8, 0x00#8] = .noOperandByte 2 1 0 := by decide

/-! ### One step of every command (spec/95_test_vectors.md, sections 1 and 2.1 to 2.8) -/

theorem test_lit : after (lzState [0x02#8, 0xAA#8, 0xBB#8, 0xCC#8, 0xFF#8] []) output
    = some (4, 3, [(0, 0xAA#8), (1, 0xBB#8), (2, 0xCC#8)]) := by decide
theorem test_lit_underrun : after (lzState [0x02#8, 0xAA#8, 0xBB#8] []) (fun t => (ending t, t.ip.toNat, t.op.toNat))
    = some ((.idle, .fault, .underrun, 0), 3, 2) := by decide
theorem test_iter : after (lzState [0x25#8, 0x07#8, 0xFF#8] []) output
    = some (2, 6, (List.range 6).map fun k => (k, 0x07#8)) := by decide
theorem test_iter_capacity : after (lzState [0x25#8] (List.replicate 27 0x01#8)) ending
    = some (.idle, .tooLarge, .none, 0) := by decide
theorem test_alt : after (lzState [0x42#8, 0x12#8, 0x34#8, 0xFF#8] []) output
    = some (3, 3, [(0, 0x12#8), (1, 0x34#8), (2, 0x12#8)]) := by decide
theorem test_alt_underrun : after (lzState [0x40#8, 0x12#8] []) ending = some (.idle, .fault, .underrun, 0) := by
  decide
theorem test_blank : after (lzState [0x62#8, 0xFF#8] []) output = some (1, 3, [(0, 0x00#8), (1, 0x00#8), (2, 0x00#8)]) := by
  decide
theorem test_repeat : after (lzState [0x82#8, 0x00#8, 0x01#8, 0xFF#8] [0x01#8, 0x02#8, 0x03#8]) output
    = some (3, 6, [(0, 0x01#8), (1, 0x02#8), (2, 0x03#8), (3, 0x02#8), (4, 0x03#8), (5, 0x02#8)]) := by decide
theorem test_repeat_badRef : after (lzState [0x80#8, 0x00#8, 0x01#8, 0xFF#8] [0xAA#8]) ending
    = some (.idle, .fault, .badRef, 0) := by decide
theorem test_flip : after (lzState [0xA3#8, 0x80#8, 0xFF#8] [0x12#8]) output
    = some (2, 5, [(0, 0x12#8), (1, 0x48#8), (2, 0x12#8), (3, 0x48#8), (4, 0x12#8)]) := by decide
theorem test_rev : after (lzState [0xC1#8, 0x00#8, 0x01#8, 0xFF#8] [0x01#8, 0x02#8, 0x03#8]) output
    = some (3, 5, [(0, 0x01#8), (1, 0x02#8), (2, 0x03#8), (3, 0x02#8), (4, 0x01#8)]) := by decide
theorem test_rev_badRef : after (lzState [0xC2#8, 0x80#8, 0xFF#8] [0x01#8, 0x02#8]) ending
    = some (.idle, .fault, .badRef, 0) := by decide
theorem test_litL : after (lzState [0xE0#8, 0x00#8, 0x5A#8, 0xFF#8] []) output = some (3, 1, [(0, 0x5A#8)]) := by decide
theorem test_litL_capacity : after (lzState [0xE3#8, 0xFF#8] []) ending = some (.idle, .tooLarge, .none, 0) := by decide
theorem test_iterL : after (lzState [0xE4#8, 0x00#8, 0xAB#8, 0xFF#8] []) output = some (3, 1, [(0, 0xAB#8)]) := by decide
theorem test_altL : after (lzState [0xE8#8, 0x01#8, 0xFF#8, 0x00#8] []) output
    = some (4, 2, [(0, 0xFF#8), (1, 0x00#8)]) := by decide
theorem test_blankL : after (lzState [0xEC#8, 0x00#8, 0xFF#8] []) output = some (2, 1, [(0, 0x00#8)]) := by decide
theorem test_repeatL : after (lzState [0xF0#8, 0x00#8, 0x80#8, 0xFF#8] [0x07#8]) output
    = some (3, 2, [(0, 0x07#8), (1, 0x07#8)]) := by decide
theorem test_flipL : after (lzState [0xF4#8, 0x00#8, 0x80#8, 0xFF#8] [0x80#8]) output
    = some (3, 2, [(0, 0x80#8), (1, 0x01#8)]) := by decide
theorem test_revL : after (lzState [0xF8#8, 0x01#8, 0x80#8] [0x01#8, 0x02#8]) output
    = some (3, 4, [(0, 0x01#8), (1, 0x02#8), (2, 0x02#8), (3, 0x01#8)]) := by decide
theorem test_revL_badRef : after (lzState [0xF8#8, 0x02#8, 0x82#8] [0x01#8, 0x02#8, 0x03#8]) ending
    = some (.idle, .fault, .badRef, 0) := by decide
theorem test_end_first : after (lzState [0xFF#8] []) (fun t => (ending t, t.tileCount.toNat))
    = some ((.idle, .ok, .none, 0), 0) := by decide
theorem test_end_enters_plane : after (lzState [0xFF#8] (List.replicate 31 0x01#8))
      (fun t => (t.phase, t.psrc, t.ptc.toNat, t.outLen.toNat))
    = some (.plane, .obuf, 1, 31) := by decide
theorem test_illegalFC : after (lzState [0xFC#8] [0xAB#8]) ending = some (.idle, .badCommand, .none, 0) := by decide
theorem test_illegalFD : after (lzState [0xFD#8, 0x00#8] []) ending = some (.idle, .badCommand, .none, 0) := by decide
theorem test_illegalFE : after (lzState [0xFE#8, 0x00#8, 0x00#8, 0xFF#8] []) ending
    = some (.idle, .badCommand, .none, 0) := by decide
/-- The capacity check comes before the missing operand byte (section 2.1, `1F AA` with room for 31 bytes). -/
theorem test_capacity_before_underrun : after (lzState [0x1F#8, 0xAA#8] [0x00#8]) ending
    = some (.idle, .tooLarge, .none, 0) := by decide
theorem test_empty_stream : after (lzState [] []) ending = some (.idle, .fault, .underrun, 0) := by decide

/-! ### The plane decoder (section 2.9) and the host (section 2.10) -/

/-- A tile's bytes: the row `0x55, 0x33`, then seven empty rows. -/
def oneTile : List Byte := [0x55#8, 0x33#8] ++ List.replicate 14 0x00#8

theorem test_pixel_rows :
    [(0x55#8, 0x33#8), (0x80#8, 0x01#8), (0xAA#8, 0xCC#8), (0x0F#8, 0xF0#8), (0x3C#8, 0x18#8)].map
        (fun r => (List.range 8).map fun i => (pixelHue r.1 r.2 i).toNat)
      = [[0, 1, 2, 3, 0, 1, 2, 3], [1, 0, 0, 0, 0, 0, 0, 2], [3, 2, 1, 0, 3, 2, 1, 0],
         [2, 2, 2, 2, 1, 1, 1, 1], [0, 0, 1, 3, 3, 1, 0, 0]] := by decide
theorem test_plane_step : after (planeState oneTile 0 1)
      (fun t => (ending t, t.tileCount.toNat, (t.hbuf.cells.take 9).map fun c => c.2.toNat))
    = some ((.idle, .ok, .none, 0), 1, [0, 1, 2, 3, 0, 1, 2, 3, 0]) := by decide
theorem test_start_reserved_mode : after (idleState [] (ctrlWrite 6)) (fun t => (ending t, t.tileCount.toNat))
    = some ((.idle, .null, .none, 0), 2) := by decide
theorem test_start_raw_bad_dimensions :
    after (idleState (List.replicate 15 0#8) (ctrlWrite 4)) (fun t => (ending t, t.tileCount.toNat))
      = some ((.idle, .badDimensions, .none, 0), 2) := by decide
theorem test_start_raw_too_large :
    after (idleState (List.replicate 48 0#8) (ctrlWrite 4)) (fun t => (ending t, t.tileCount.toNat))
      = some ((.idle, .tooLarge, .none, 0), 0) := by decide
theorem test_start_inLen :
    after { idleState [] (ctrlWrite 5) with inLen := 65 } (fun t => (ending t, t.tileCount.toNat))
      = some ((.idle, .fault, .inLen, 0), 2) := by decide
theorem test_start_lz : after { idleState [0xFF#8] (ctrlWrite 5) with ip := 9, op := 7 }
      (fun t => (t.phase, t.ip.toNat, t.op.toNat, t.outLen.toNat, t.mode))
    = some (.lz, 0, 0, 0, 1) := by decide
theorem test_status_word : after (idleState [] (.readReg .status)) (fun t => t.hostData) = some 0#32 := by decide
theorem test_busy_ctrl_write_ignored : after (busyState (ctrlWrite 6)) (fun t => (t.phase, t.mode)) = some (.lz, 0) := by
  decide

/-! ### The packing of hues: sixteen in a 32-bit word, the first lowest (log entry 18) -/

theorem test_hue_place : Config.chosen.hbufPacking.place 17 = some { bit0 := ⟨1, 2⟩, bit1 := ⟨1, 3⟩ } := by decide

/-- Two bit planes on a bus one bit wide: a hue's bits stand in different words. -/
theorem test_hue_place_planes :
    let planes : HbufPacking := { groupWords := 4, places := [⟨⟨0, 0⟩, ⟨2, 0⟩⟩, ⟨⟨1, 0⟩, ⟨3, 0⟩⟩] }
    planes.place 3 = some { bit0 := ⟨5, 0⟩, bit1 := ⟨7, 0⟩ } := by decide

/-! ### A table word is fetched and run -/

theorem test_fetch_word_blank : decodeTableWord 8 0x62 = some (.blank 2#5) := by decide
theorem test_fetch_word_revL : decodeTableWord 16 0x02F8 = some (.revL 2#10 (.abs 0#15)) := by decide
theorem test_fetch_word_runs : after (State.reset.withFetchWord 8 0x62) output
    = some (1, 3, [(0, 0x00#8), (1, 0x00#8), (2, 0x00#8)]) := by decide

/-! ### Witnesses: every obligation's hypotheses are met, clause by clause, at the edges of their ranges -/

/-- A running LZ job meets the invariant. -/
theorem lz_inv : (lzState [0xFC#8, 0x01#8] [0x80#8, 0x02#8]).Inv := by
  constructor <;> first | decide | exact ⟨rfl, rfl, rfl, by decide, by decide⟩

/-- A job at its END, its OBUF full, meets the invariant. -/
theorem end_inv : (lzState [0xFF#8] (List.replicate 32 0x01#8)).Inv := by
  constructor <;> first | decide | exact ⟨rfl, rfl, rfl, by decide, by decide⟩

/-- A plane stage of two tiles meets the invariant, at its first tile and at its last. -/
theorem plane_inv : (planeState (oneTile ++ oneTile) 0 2).Inv ∧ (planeState (oneTile ++ oneTile) 1 2).Inv := by
  constructor <;> constructor <;> first | decide | exact ⟨rfl, rfl, rfl, by decide, by decide, by decide⟩

/-- An idle core with a RAW START to come meets the invariant, with an empty input and with a full one. -/
theorem idle_inv : (idleState [] (ctrlWrite 4)).Inv ∧ (idleState (oneTile ++ oneTile) (ctrlWrite 4)).Inv := by
  constructor <;> constructor <;> first | decide | (show _ ↔ _; decide)

theorem witness_DecodeOfEncode :
    (Instr.lit 31#5 (List.replicate 32 0xFF#8)).wellFormed = true ∧ (Instr.litL 0#10 [0xFF#8]).wellFormed = true
      ∧ (Instr.revL 1023#10 (.abs 0x7FFF#15)).wellFormed = true := by decide

theorem witness_EncodeOfDecode : decode [0xF8#8, 0x02#8, 0x82#8, 0xFF#8] = .ok (.revL 2#10 (.rel 2#7)) [0xFF#8] := by
  decide

theorem witness_OpcodeMapDecodes : 1024 ≤ (List.replicate 1024 0x00#8).length :=
  Nat.le_of_eq (List.length_replicate ..).symm

theorem witness_CommandSizes : (Instr.lit 0#5 [0xFF#8]).wellFormed = true ∧ Instr.endStream.wellFormed = true := by
  decide

theorem witness_OnlyNestedLongIsIllegal :
    Instr.illegalFC ∈ nestedLongs ∧ Instr.illegalFE ∈ nestedLongs
      ∧ 0xFB#8 ≠ 0xFC#8 ∧ 0xFB#8 ≠ 0xFD#8 ∧ 0xFB#8 ≠ 0xFE#8 ∧ 1025 ≤ (List.replicate 1025 0x00#8).length := by
  refine ⟨by decide, by decide, by decide, by decide, by decide, Nat.le_of_eq (List.length_replicate ..).symm⟩

theorem witness_RedundantFormsAgree :
    (longLen 31#10 = shortLen 31#5 ∧ longLen 0#10 = shortLen 0#5)
      ∧ (let s := lzState [] [0x01#8, 0x02#8];
        backRef s.op.toNat (.rel 1#7) = backRef s.op.toNat (.abs 0#15)
          ∧ s.op.toNat + longLen 29#10 ≤ s.cfg.capBytes ∧ s.op.toNat + shortLen 29#5 ≤ s.cfg.capBytes) := by decide

theorem witness_StepRunsDecodedCommand :
    (let s := lzState [0x62#8, 0xFF#8] [];
      s.phase = .lz ∧ s.engineNext ∧ decode s.stream = .ok (.blank 2#5) [0xFF#8])
      ∧ { lzState [0x62#8] [] with agenda := [.engine, .host .reset] }.engineNext := by decide

theorem witness_CommandAtInputPointerRuns :
    let s := lzState [0xE4#8, 0x00#8, 0xAB#8] [];
    let i := Instr.iterL 0#10 0xAB#8;
    s.phase = .lz ∧ s.engineNext ∧ i.wellFormed = true ∧ s.inLen.toNat ≤ s.cfg.inCapBytes
      ∧ s.ip.toNat + (encode i).length ≤ s.inLen.toNat
      ∧ ∀ k (h : k < (encode i).length), s.inMem.read (s.ip.toNat + k) = (encode i)[k] := by decide

theorem witness_LzStepIsThePseudocode :
    let s := lzState (List.replicate 64 0x60#8) [];
    s.phase = .lz ∧ s.agenda = [] ∧ s.inLen.toNat ≤ s.cfg.inCapBytes := by decide

theorem witness_EmptyStreamUnderruns :
    let s := { lzState [0x62#8] [] with ip := 1 };
    s.phase = .lz ∧ s.agenda = [] ∧ s.inLen.toNat ≤ s.cfg.inCapBytes ∧ s.inLen.toNat ≤ s.ip.toNat := by decide

theorem witness_CapacityCheckComesFirst :
    (let s := lzState [] [0x01#8];
      dataForm (.blank 31#5) = some (1, 32) ∧ s.cfg.capBytes < s.op.toNat + 32)
    ∧ (let s := lzState [0x1F#8, 0xAA#8] [0x01#8];
      s.phase = .lz ∧ s.agenda = [] ∧ decode s.stream = .noOperandByte 1 32 1
        ∧ s.cfg.capBytes < s.op.toNat + 32)
    ∧ (let s := lzState [] [];
      dataForm (.blank 31#5) = some (1, 32) ∧ s.op.toNat + 32 ≤ s.cfg.capBytes ∧ s.outcome ≠ .tooLarge)
    ∧ (let s := lzState [] (List.replicate 32 0x01#8);
      s.cfg.wf ∧ Instr.endStream.wellFormed = true ∧ s.op.toNat ≤ s.cfg.capBytes)
    ∧ ∃ t, exec .endStream (lzState [] (List.replicate 32 0x01#8)) = .next t :=
  ⟨by decide, by decide, by decide, by decide, _, rfl⟩

theorem witness_EndEntersPlaneStage :
    (let s := lzState [] (List.replicate 32 0x01#8);
      s.cfg.wf ∧ s.op.toNat ≤ s.cfg.capBytes ∧ 0 < s.op.toNat / 16)
    ∧ (let s := lzState [] (List.replicate 15 0x01#8);
      s.cfg.wf ∧ s.op.toNat ≤ s.cfg.capBytes ∧ s.op.toNat / 16 = 0) := by decide

theorem witness_LiteralCopiesItsData :
    (let s := lzState [] [];
      s.cfg.wf ∧ (List.replicate 32 0xFF#8).length = shortLen 31#5
        ∧ s.op.toNat + shortLen 31#5 ≤ s.cfg.capBytes)
    ∧ (let s := lzState [] [];
      s.cfg.wf ∧ [0xFF#8].length = longLen 0#10 ∧ s.op.toNat + longLen 0#10 ≤ s.cfg.capBytes)
    ∧ (lzState [0x1F#8] []).atCommand [shortByte 0#3 31#5] (shortLen 31#5) []
    ∧ (lzState [0xE0#8, 0x01#8, 0xAA#8] []).atCommand (longBytes 0#3 1#10) (longLen 1#10) [0xAA#8] := by
  simp only [State.atCommand]; decide

theorem witness_IterateRepeatsItsByte :
    (let s := lzState [] [];
      s.cfg.wf ∧ s.op.toNat + shortLen 31#5 ≤ s.cfg.capBytes ∧ s.op.toNat + longLen 31#10 ≤ s.cfg.capBytes)
    ∧ (lzState [0x25#8] []).atCommand [shortByte 1#3 5#5] (shortLen 5#5) []
    ∧ (lzState [0xE4#8, 0x1F#8] []).atCommand (longBytes 1#3 31#10) (longLen 31#10) [] := by
  simp only [State.atCommand]; decide

theorem witness_AlternateAlternates :
    (let s := lzState [] [];
      s.cfg.wf ∧ s.op.toNat + shortLen 0#5 ≤ s.cfg.capBytes ∧ s.op.toNat + longLen 31#10 ≤ s.cfg.capBytes)
    ∧ (lzState [0x40#8, 0x12#8] []).atCommand [shortByte 2#3 0#5] (shortLen 0#5) [0x12#8]
    ∧ (lzState [0xE8#8, 0x00#8] []).atCommand (longBytes 2#3 0#10) (longLen 0#10) [] := by
  simp only [State.atCommand]; decide

theorem witness_BlankWritesZeros :
    let s := lzState [] [0x01#8];
    s.cfg.wf ∧ s.op.toNat + shortLen 30#5 ≤ s.cfg.capBytes ∧ s.op.toNat + longLen 30#10 ≤ s.cfg.capBytes := by decide

/-- The first offset, the last one, and the two that are just outside (R152); and a displacement cut short. -/
theorem witness_RepeatCopiesForward :
    (let s := lzState [] [0x01#8, 0x02#8];
      s.cfg.wf ∧ s.op.toNat + shortLen 29#5 ≤ s.cfg.capBytes ∧ s.op.toNat + longLen 29#10 ≤ s.cfg.capBytes
        ∧ backRef s.op.toNat (.rel 1#7) = 0 ∧ backRef s.op.toNat (.rel 0#7) = 1
        ∧ ¬ 0 ≤ backRef s.op.toNat (.rel 2#7) ∧ ¬ backRef s.op.toNat (.abs 2#15) < s.op.toNat)
    ∧ (lzState [0x80#8, 0x7F#8] []).atCommand [shortByte 4#3 0#5] (shortLen 0#5) [0x7F#8]
    ∧ (lzState [0xF0#8, 0x00#8] []).atCommand (longBytes 4#3 0#10) (longLen 0#10) [] := by
  simp only [State.atCommand]; decide

theorem witness_FlipCopiesReversedBits :
    (let s := lzState [] [0x01#8, 0x02#8];
      s.cfg.wf ∧ s.op.toNat + shortLen 29#5 ≤ s.cfg.capBytes ∧ s.op.toNat + longLen 29#10 ≤ s.cfg.capBytes
        ∧ backRef s.op.toNat (.abs 0#15) = 0 ∧ backRef s.op.toNat (.abs 1#15) = 1
        ∧ ¬ 0 ≤ backRef s.op.toNat (.rel 127#7) ∧ ¬ backRef s.op.toNat (.abs 2#15) < s.op.toNat)
    ∧ (lzState [0xA0#8, 0x00#8] []).atCommand [shortByte 5#3 0#5] (shortLen 0#5) [0x00#8]
    ∧ (lzState [0xF4#8, 0x00#8] []).atCommand (longBytes 5#3 0#10) (longLen 0#10) [] := by
  simp only [State.atCommand]; decide

/-- Reverse: the longest that fits below the offset, one longer, and an offset not yet written. -/
theorem witness_ReverseCopiesBackward :
    (let s := lzState [] [0x01#8, 0x02#8];
      s.cfg.wf ∧ s.op.toNat + shortLen 1#5 ≤ s.cfg.capBytes ∧ s.op.toNat + longLen 1#10 ≤ s.cfg.capBytes
        ∧ backRef s.op.toNat (.rel 0#7) < s.op.toNat
        ∧ 0 ≤ backRef s.op.toNat (.rel 0#7) - ((shortLen 1#5 : Int) - 1)
        ∧ 0 ≤ backRef s.op.toNat (.rel 0#7) - ((longLen 1#10 : Int) - 1)
        ∧ ¬ 0 ≤ backRef s.op.toNat (.rel 0#7) - ((shortLen 2#5 : Int) - 1)
        ∧ ¬ backRef s.op.toNat (.abs 2#15) < s.op.toNat)
    ∧ (lzState [0xC0#8] []).atCommand [shortByte 6#3 0#5] (shortLen 0#5) []
    ∧ (lzState [0xF8#8, 0x00#8, 0x7F#8] []).atCommand (longBytes 6#3 0#10) (longLen 0#10) [0x7F#8] := by
  simp only [State.atCommand]; decide

theorem witness_BadRefIffSomeReadInvalid :
    let s := lzState [] [0x01#8, 0x02#8];
    s.faultReason ≠ .badRef ∧ s.op.toNat + shortLen 29#5 ≤ s.cfg.capBytes
      ∧ s.op.toNat + longLen 29#10 ≤ s.cfg.capBytes := by decide

theorem witness_BackReferenceOffset : 0x80 ≤ (0x80#8).toNat ∧ (0x7F#8).toNat < 0x80 := by decide

theorem witness_OverlapRepeatsWithPeriod :
    (let s := lzState [] [0x01#8, 0x02#8];
      s.cfg.wf ∧ dataForm (.rptL 29#10 (.rel 1#7)) = some (2, 30) ∧ s.op.toNat + 30 ≤ s.cfg.capBytes
        ∧ backRef s.op.toNat (.rel 1#7) = (0 : Nat) ∧ 0 < s.op.toNat)
    ∧ (let s := lzState [] [0x12#8];
      s.cfg.wf ∧ dataForm (.flip 30#5 (.rel 0)) = some (1, 31) ∧ s.op.toNat + 31 ≤ s.cfg.capBytes
        ∧ 0 < s.op.toNat) := by decide

/-- The three failures of the LZ stage, the ends of a START, and a plane step. -/
theorem witness_FailedJobsKeepTheTileSet :
    (lzState [0xFC#8, 0x01#8] [0x80#8, 0x02#8]).Inv
    ∧ after (lzState [0xFC#8, 0x01#8] [0x80#8, 0x02#8]) (fun t => t.outcome) = some .badCommand
    ∧ after (lzState [0x7F#8] [0x01#8]) (fun t => t.outcome) = some .tooLarge
    ∧ after (lzState [] []) (fun t => t.outcome) = some .fault
    ∧ after (idleState [] (ctrlWrite 7)) (fun t => (t.phase, t.outcome)) = some (.idle, .null)
    ∧ after (idleState (List.replicate 48 0#8) (ctrlWrite 4)) (fun t => t.outcome) = some .tooLarge
    ∧ ctrlStart 7 = true ∧ ctrlStart 4 = true
    ∧ (planeState oneTile 0 1).phase = .plane ∧ after (planeState oneTile 0 1) (fun t => t.phase) = some .idle := by
  refine ⟨lz_inv, ?_⟩; decide

theorem witness_OutLenIsWrittenByStartEndAndFailure :
    (let s := idleState [] (ctrlWrite 5);
      s.phase = .idle ∧ ctrlStart 5 = true ∧ after s (fun t => t.outLen.toNat) = some 0)
    ∧ (let s := lzState [0xFF#8] (List.replicate 32 0x01#8);
      s.phase = .lz ∧ s.engineNext ∧ decode s.stream = .ok .endStream [] ∧ s.outLen ≠ s.op
        ∧ after s (fun t => t.outLen.toNat) = some 32)
    ∧ ((lzState [0xFC#8, 0x01#8] [0x80#8, 0x02#8]).Inv
      ∧ after (lzState [0xFC#8, 0x01#8] [0x80#8, 0x02#8]) (fun t => (t.phase, t.outcome))
          = some (.idle, .badCommand)) := by
  refine ⟨by decide, by decide, lz_inv, by decide⟩

theorem witness_TileCountIsWrittenInTwoPlaces :
    (let s := { lzState [0xFF#8] [] with tileCount := 2 };
      after s (fun t => t.tileCount.toNat) = some 0)
    ∧ after (planeState oneTile 0 1) (fun t => t.tileCount.toNat) = some 1
    ∧ after (idleState [] (ctrlWrite 4)) (fun t => t.tileCount.toNat) = some 0
    ∧ after (idleState [] .reset) (fun t => t.tileCount.toNat) = some 0 := by decide

theorem witness_NeverBadFileNorNotGrayscale :
    after { lzState [0x62#8] [] with outcome := .badFile } (fun t => t.outcome) = some .badFile
    ∧ after { lzState [0x62#8] [] with outcome := .notGrayscale } (fun t => t.outcome) = some .notGrayscale := by
  decide

theorem witness_PlaneStepDecodesOneTile :
    (planeState (oneTile ++ oneTile) 0 2).Inv ∧ (planeState (oneTile ++ oneTile) 1 2).Inv
    ∧ (planeState (oneTile ++ oneTile) 0 2).phase = .plane ∧ (planeState (oneTile ++ oneTile) 0 2).agenda = []
    ∧ (planeState (oneTile ++ oneTile) 0 2).tidx.toNat + 1 ≠ (planeState (oneTile ++ oneTile) 0 2).ptc.toNat
    ∧ (planeState (oneTile ++ oneTile) 1 2).tidx.toNat + 1 = (planeState (oneTile ++ oneTile) 1 2).ptc.toNat :=
  ⟨plane_inv.1, plane_inv.2, by decide⟩

/-- One tile too many, no whole tile, and as many tiles as fit. -/
theorem witness_EnterPlaneReleasesFirst :
    let s := lzState [] [];
    s.cfg.wf ∧ s.cfg.capacityTiles < 48 / 16 ∧ 15 / 16 = 0 ∧ 0 < 47 / 16 ∧ 47 / 16 ≤ s.cfg.capacityTiles := by decide

theorem witness_RawStartChecksInOrder :
    ctrlStart 4 = true ∧ ctrlMode 4 = 0
    ∧ (let s := { idleState [] (ctrlWrite 4) with inLen := 65 };
      s.cfg.wf ∧ s.phase = .idle ∧ s.agenda = .host (.writeReg .ctrl 4) :: [] ∧ s.cfg.inCapBytes < s.inLen.toNat)
    ∧ (let s := { idleState [] (ctrlWrite 4) with inLen := 63 };
      s.inLen.toNat ≤ s.cfg.inCapBytes ∧ s.inLen.toNat % 16 ≠ 0)
    ∧ (let s := { idleState [] (ctrlWrite 4) with inLen := 48 };
      s.inLen.toNat ≤ s.cfg.inCapBytes ∧ s.inLen.toNat % 16 = 0 ∧ s.cfg.capacityTiles < s.inLen.toNat / 16)
    ∧ (let s := { idleState [] (ctrlWrite 4) with inLen := 0 };
      s.inLen.toNat ≤ s.cfg.inCapBytes ∧ s.inLen.toNat % 16 = 0 ∧ s.inLen.toNat = 0)
    ∧ (let s := { idleState [] (ctrlWrite 4) with inLen := 32 };
      s.inLen.toNat ≤ s.cfg.inCapBytes ∧ s.inLen.toNat % 16 = 0 ∧ 0 < s.inLen.toNat
        ∧ s.inLen.toNat / 16 ≤ s.cfg.capacityTiles) := by decide

theorem witness_PlaneStageDecodesEveryTile :
    let s := planeState (oneTile ++ oneTile) 0 2;
    s.Inv ∧ s.phase = .plane ∧ s.agenda = [] ∧ s.tidx = 0 := ⟨plane_inv.1, by decide⟩

theorem witness_RawJobDecodesItsInput :
    let s := idleState (oneTile ++ oneTile) (ctrlWrite 4);
    s.Inv ∧ s.phase = .idle ∧ s.agenda = [.host (.writeReg .ctrl 4)] ∧ ctrlStart 4 = true ∧ ctrlMode 4 = 0
      ∧ s.inLen.toNat ≤ s.cfg.inCapBytes ∧ s.inLen.toNat % 16 = 0
      ∧ s.inLen.toNat / 16 ≤ s.cfg.capacityTiles := ⟨idle_inv.2, by decide⟩

theorem witness_CompressedEntryTruncates :
    let s := lzState [0xFF#8] (List.replicate 32 0x01#8);
    s.Inv ∧ s.phase = .lz ∧ s.agenda = [] ∧ decode s.stream = .ok .endStream [] := ⟨end_inv, by decide⟩

theorem witness_FlipMirrorsAndReverseTurnsATile :
    (0 < 8 ∧ 7 < 8) ∧ (tileHues fun k => [0x80#8, 0x00#8].getD k 0x00#8)[8 * 0 + 0]? = some 1 := by decide

/-- Every branch of R25: busy, a mode write, RAW, LZ with too long and with longest input, a reserved MODE. -/
theorem witness_CtrlWriteStartsJobs :
    ((busyState (ctrlWrite 4)).phase ≠ .idle ∧ (busyState (ctrlWrite 4)).agenda = .host (.writeReg .ctrl 4) :: [])
    ∧ ((idleState [] (ctrlWrite 3)).phase = .idle ∧ ctrlStart 3 = false)
    ∧ (ctrlStart 4 = true ∧ (BitVec.extractLsb' 0 2 (4#32)).toNat = 0)
    ∧ (ctrlStart 5 = true ∧ (BitVec.extractLsb' 0 2 (5#32)).toNat = 1
      ∧ { idleState [] (ctrlWrite 5) with inLen := 65 }.cfg.inCapBytes < (65#32).toNat
      ∧ (64#32).toNat ≤ { idleState [] (ctrlWrite 5) with inLen := 64 }.cfg.inCapBytes)
    ∧ (ctrlStart 6 = true ∧ 2 ≤ (BitVec.extractLsb' 0 2 (6#32)).toNat
      ∧ ctrlStart 7 = true ∧ 2 ≤ (BitVec.extractLsb' 0 2 (7#32)).toNat) := by decide

theorem witness_HostWritesItsInput :
    ((idleState [] (.writeReg .inLen 65)).phase = .idle
      ∧ (idleState [] (.writeReg .inLen 65)).agenda = .host (.writeReg .inLen 65) :: [])
    ∧ ((idleState [] (.writeInMem 63 0xFF#8)).phase = .idle ∧ 63 < (idleState [] (.writeInMem 63 0xFF#8)).cfg.inCapBytes)
    ∧ (busyState (.writeReg .status 0)).agenda = .host (.writeReg .status 0) :: [] := by decide

theorem witness_HostReadsHaveNoSideEffect :
    ((idleState [] (.readReg .status)).agenda = .host (.readReg .status) :: []
      ∧ after (idleState [] (.readReg .status)) (fun t => t.phase) = some .idle)
    ∧ after (idleState [0xFF#8] (.readInMem 63)) (fun t => t.phase) = some .idle
    ∧ after (busyState (.readObuf 31)) (fun t => t.phase) = some .lz
    ∧ after (busyState (.readHbuf 127)) (fun t => t.phase) = some .lz := by decide

theorem witness_StatusAndCtrlReadTheirFields :
    (busyState (.readReg .status)).agenda = .host (.readReg .status) :: []
    ∧ (idleState [] (.readReg .status)).phase = .idle
    ∧ (idleState [] (.readReg .ctrl)).agenda = .host (.readReg .ctrl) :: [] := by decide

theorem witness_IdleReadsReturnWhatIsHeld :
    let s := fun m => idleState [0xAB#8] m;
    (s (.readReg .inLen)).phase = .idle
    ∧ (s (.readReg .inLen)).agenda = .host (.readReg .inLen) :: []
    ∧ (s (.readReg .outLen)).agenda = .host (.readReg .outLen) :: []
    ∧ (s (.readReg .tileCount)).agenda = .host (.readReg .tileCount) :: []
    ∧ 63 < (s (.readInMem 63)).cfg.inCapBytes ∧ 31 < (s (.readObuf 31)).cfg.capBytes
    ∧ 127 < (s (.readHbuf 127)).cfg.hueCount ∧ 127 < 64 * (s (.readHbuf 127)).tileCount.toNat := by decide

theorem witness_ForbiddenHostMovesAreRefused :
    (busyState (.writeReg .inLen 0)).phase ≠ .idle ∧ (busyState (.writeInMem 64 0#8)).phase ≠ .idle
    ∧ (idleState [] (.writeInMem 64 0#8)).phase = .idle ∧ (idleState [] (.writeInMem 64 0#8)).cfg.inCapBytes ≤ 64
    ∧ (idleState [] (.readInMem 64)).agenda = .host (.readInMem 64) :: []
    ∧ (idleState [] (.readObuf 32)).cfg.capBytes ≤ 32 ∧ (idleState [] (.readHbuf 128)).cfg.hueCount ≤ 128 := by decide

theorem witness_ResetGivesEveryResetValue : (busyState .reset).agenda = .host .reset :: [] := by decide

theorem witness_IdleEngineTakesNoStep :
    State.reset.phase = .idle ∧ State.reset.engineNext := by decide

theorem witness_EveryStepKeepsTheInvariant :
    (lzState [0xFC#8, 0x01#8] [0x80#8, 0x02#8]).Inv
    ∧ after (lzState [0xFC#8, 0x01#8] [0x80#8, 0x02#8]) (fun t => t.phase) = some .idle := ⟨lz_inv, by decide⟩

theorem witness_EngineNeverStops :
    (planeState (oneTile ++ oneTile) 1 2).Inv ∧ (planeState (oneTile ++ oneTile) 1 2).engineNext :=
  ⟨plane_inv.2, by decide⟩

theorem witness_ParametersNeverChange : after (busyState .reset) (fun t => t.cfg) = some small := by decide

theorem witness_EngineNeverWritesItsInput :
    (lzState [0x62#8] []).engineNext ∧ after (lzState [0x62#8] []) (fun t => t.phase) = some .lz := by decide

theorem witness_InputPointerOnlyAdvances :
    (let s := lzState [0xFC#8, 0x01#8] [0x80#8, 0x02#8];
      s.Inv ∧ s.phase = .lz ∧ s.agenda = [] ∧ after s (fun t => (t.phase, t.ip.toNat)) = some (.idle, 1))
    ∧ (let s := lzState [0xFF#8] (List.replicate 32 0x01#8);
      s.Inv ∧ s.phase = .lz ∧ s.agenda = [] ∧ after s (fun t => (t.phase, t.ip.toNat)) = some (.plane, 1)) :=
  ⟨⟨lz_inv, by decide⟩, ⟨end_inv, by decide⟩⟩

theorem witness_EveryJobEnds :
    (lzState [0xFF#8] (List.replicate 32 0x01#8)).Inv
    ∧ (lzState [0xFF#8] (List.replicate 32 0x01#8)).agenda = [] := ⟨end_inv, by decide⟩

/-- A state with a next state, one that faults and one whose host move is refused. -/
theorem witness_NoRuleDependsOnTheBusMap :
    (∃ t, step (lzState [0x62#8] []) = .next t)
    ∧ step (planeState [] 2 3) = .fault .noPlaneElement
    ∧ step (busyState (.writeReg .inLen 0)) = .refused .hostWritesWhileBusy := ⟨⟨_, rfl⟩, rfl, rfl⟩

/-- Two cores with the same input, one of which has run another job before. -/
theorem witness_ResultDependsOnlyOnTheInput :
    (let s := idleState (oneTile ++ oneTile) (ctrlWrite 4);
      let t := { idleState (oneTile ++ oneTile) (ctrlWrite 4) with
        tileCount := 1, outLen := 7, mode := 1, obuf := (noBytes 1).writeAll 0 [0x55#8] };
      s.phase = .idle ∧ t.phase = .idle ∧ s.agenda = [.host (.writeReg .ctrl 4)]
        ∧ t.agenda = [.host (.writeReg .ctrl 4)] ∧ ctrlStart 4 = true ∧ s.cfg = t.cfg ∧ s.inLen = t.inLen
        ∧ s.obuf ≠ t.obuf ∧ (∀ a, a < s.inLen.toNat → s.inMem.read a = t.inMem.read a))
    ∧ (idleState (oneTile ++ oneTile) (ctrlWrite 4)).Inv
    ∧ State.Inv { idleState (oneTile ++ oneTile) (ctrlWrite 4) with
        tileCount := 1, outLen := 7, mode := 1, obuf := (noBytes 1).writeAll 0 [0x55#8] } := by
  refine ⟨⟨rfl, rfl, rfl, rfl, by decide, rfl, rfl, by decide, fun _ _ => rfl⟩, idle_inv.2, ?_⟩
  constructor <;> first | decide | (show _ ↔ _; decide)

end Sys2Proof.Tests
end

section
/-! No rule reads REG_MAP or HBUF_PACKING (R9): every operation of the machine, from one Emit up to a whole step,
commutes with replacing them (`State.onBus`). The lemmas follow the model's files, bottom up; each is a
rewrite that moves `onBus` outwards. An update without a branch commutes by definition, since it keeps `cfg`;
an operation with a branch does once `apply_ite` has moved `onBus` past it, since its guard reads nothing
of `cfg` but the sizes of the memories. -/

namespace Sys2Proof.Machine

variable (m : RegMap) (p : HbufPacking)

/-- The outcome of a step, seen behind another bus: a fault and a refusal are the same there. -/
def outcomeOnBus : Host.Outcome State Fault Refusal → Host.Outcome State Fault Refusal
  | .next s => .next (s.onBus m p)
  | .fault r => .fault r
  | .refused r => .refused r

@[simp] theorem outcomeOnBus_next (s : State) : outcomeOnBus m p (.next s) = .next (s.onBus m p) := rfl
@[simp] theorem outcomeOnBus_fault (r : Fault) : outcomeOnBus m p (.fault r) = .fault r := rfl
@[simp] theorem outcomeOnBus_refused (r : Refusal) : outcomeOnBus m p (.refused r) = .refused r := rfl

/-! ### What a command reads -/

@[simp] theorem onBus_capBytes (s : State) : (s.onBus m p).cfg.capBytes = s.cfg.capBytes := rfl
@[simp] theorem stream_onBus (s : State) : (s.onBus m p).stream = s.stream := rfl

/-! ### The updates commands share -/

@[simp] theorem lzFail_onBus (c : JobOutcome) (s : State) :
    lzFail c (s.onBus m p) = (lzFail c s).onBus m p := rfl
@[simp] theorem raiseFault_onBus (r : FaultReason) (s : State) :
    raiseFault r (s.onBus m p) = (raiseFault r s).onBus m p := rfl
@[simp] theorem fetched_onBus (k : Nat) (s : State) : (s.onBus m p).fetched k = (s.fetched k).onBus m p := rfl

/-! ### Runs of Emits -/

@[simp] theorem emitAll_onBus (vs : List Byte) (s : State) :
    emitAll vs (s.onBus m p) = (emitAll vs s).onBus m p := by
  induction vs generalizing s with
  | nil => rfl
  | cons v vs ih => exact ih (s.emit v)

@[simp] theorem emitSame_onBus (v : Byte) (n : Nat) (s : State) :
    emitSame v n (s.onBus m p) = (emitSame v n s).onBus m p := by
  simp only [emitSame_eq, emitAll_onBus]

@[simp] theorem emitAlternate_onBus (b0 b1 : Byte) (n : Nat) (s : State) :
    emitAlternate b0 b1 n (s.onBus m p) = (emitAlternate b0 b1 n s).onBus m p := by
  simp only [emitAlternate_eq, emitAll_onBus]

@[simp] theorem copyForward_onBus (f : Byte → Byte) (n off : Nat) (s : State) :
    copyForward f n off (s.onBus m p) = (copyForward f n off s).onBus m p := by
  induction n generalizing off s with
  | zero => rfl
  | succ n ih => exact ih (off + 1) (s.emit (f (s.obuf.read off)))

@[simp] theorem copyBackward_onBus (n off : Nat) (s : State) :
    copyBackward n off (s.onBus m p) = (copyBackward n off s).onBus m p := by
  induction n generalizing off s with
  | zero => rfl
  | succ n ih => exact ih (off - 1) (s.emit (s.obuf.read off))

/-! ### Commands -/

/-- A data command commutes with the bus when its own rule does: the capacity check (R106) reads CAP_BYTES only. -/
theorem dataCommand_onBus (header n : Nat) {body : State → State}
    (hbody : ∀ t, body (t.onBus m p) = (body t).onBus m p) (s : State) :
    dataCommand header n body (s.onBus m p) = (dataCommand header n body s).onBus m p := by
  simp only [dataCommand, onBus_capBytes, onBus_op, fetched_onBus, lzFail_onBus, hbody,
    apply_ite (State.onBus m p)]

@[simp] theorem literal_onBus (header n : Nat) (data : List Byte) (s : State) :
    literal header n data (s.onBus m p) = (literal header n data s).onBus m p :=
  dataCommand_onBus m p header n (fun t => emitAll_onBus m p data (t.fetched data.length)) s

@[simp] theorem iterate_onBus (header n : Nat) (v : Byte) (s : State) :
    iterate header n v (s.onBus m p) = (iterate header n v s).onBus m p :=
  dataCommand_onBus m p header n (fun t => emitSame_onBus m p v n (t.fetched 1)) s

@[simp] theorem alternate_onBus (header n : Nat) (b0 b1 : Byte) (s : State) :
    alternate header n b0 b1 (s.onBus m p) = (alternate header n b0 b1 s).onBus m p :=
  dataCommand_onBus m p header n (fun t => emitAlternate_onBus m p b0 b1 n (t.fetched 2)) s

@[simp] theorem blankFill_onBus (header n : Nat) (s : State) :
    blankFill header n (s.onBus m p) = (blankFill header n s).onBus m p :=
  dataCommand_onBus m p header n (fun t => emitSame_onBus m p 0#8 n t) s

@[simp] theorem forwardCopy_onBus (f : Byte → Byte) (header n : Nat) (disp : Disp) (s : State) :
    forwardCopy f header n disp (s.onBus m p) = (forwardCopy f header n disp s).onBus m p :=
  dataCommand_onBus m p header n (fun t => by
    simp only [onBus_op, fetched_onBus, copyForward_onBus, raiseFault_onBus, apply_ite (State.onBus m p)]) s

@[simp] theorem backwardCopy_onBus (header n : Nat) (disp : Disp) (s : State) :
    backwardCopy header n disp (s.onBus m p) = (backwardCopy header n disp s).onBus m p :=
  dataCommand_onBus m p header n (fun t => by
    simp only [onBus_op, fetched_onBus, copyBackward_onBus, raiseFault_onBus, apply_ite (State.onBus m p)]) s

@[simp] theorem enterPlane_onBus (src : PlaneSource) (len : Nat) (s : State) :
    enterPlane src len (s.onBus m p) = (enterPlane src len s).onBus m p := by
  simp only [enterPlane, apply_ite (State.onBus m p)]
  rfl

@[simp] theorem exec_onBus (i : Instr) (s : State) : exec i (s.onBus m p) = outcomeOnBus m p (exec i s) := by
  cases i with
  | lit len data => exact congrArg Host.Outcome.next (literal_onBus m p ..)
  | iter len v => exact congrArg Host.Outcome.next (iterate_onBus m p ..)
  | alt len b0 b1 => exact congrArg Host.Outcome.next (alternate_onBus m p ..)
  | blank len => exact congrArg Host.Outcome.next (blankFill_onBus m p ..)
  | rpt len disp => exact congrArg Host.Outcome.next (forwardCopy_onBus m p ..)
  | flip len disp => exact congrArg Host.Outcome.next (forwardCopy_onBus m p ..)
  | rev len disp => exact congrArg Host.Outcome.next (backwardCopy_onBus m p ..)
  | litL len data => exact congrArg Host.Outcome.next (literal_onBus m p ..)
  | iterL len v => exact congrArg Host.Outcome.next (iterate_onBus m p ..)
  | altL len b0 b1 => exact congrArg Host.Outcome.next (alternate_onBus m p ..)
  | blankL len => exact congrArg Host.Outcome.next (blankFill_onBus m p ..)
  | rptL len disp => exact congrArg Host.Outcome.next (forwardCopy_onBus m p ..)
  | flipL len disp => exact congrArg Host.Outcome.next (forwardCopy_onBus m p ..)
  | revL len disp => exact congrArg Host.Outcome.next (backwardCopy_onBus m p ..)
  | endStream =>
    exact congrArg Host.Outcome.next (enterPlane_onBus m p .obuf s.op.toNat { s.fetched 1 with outLen := s.op })
  | illegalFC => rfl
  | illegalFD => rfl
  | illegalFE => rfl

/-! ### The engine's turn -/

@[simp] theorem underrun_onBus (n : Nat) (s : State) :
    underrun n (s.onBus m p) = outcomeOnBus m p (underrun n s) := by
  simp only [underrun, apply_ite (outcomeOnBus m p)]
  rfl

@[simp] theorem lzStep_onBus (s : State) : lzStep (s.onBus m p) = outcomeOnBus m p (lzStep s) := by
  simp only [lzStep, stream_onBus]
  cases decode s.stream with
  | ok i rest => exact exec_onBus m p i s
  | noCommandByte => exact underrun_onBus m p 0 s
  | noLengthByte => exact underrun_onBus m p 0 s
  | noOperandByte header n emitted =>
    simp only [underrun_onBus, apply_ite (outcomeOnBus m p)]
    rfl

@[simp] theorem afterTile_onBus (s : State) : afterTile (s.onBus m p) = (afterTile s).onBus m p := by
  simp only [afterTile, apply_ite (State.onBus m p)]
  rfl

@[simp] theorem planeStep_onBus (s : State) : planeStep (s.onBus m p) = outcomeOnBus m p (planeStep s) := by
  simp only [planeStep, apply_ite (outcomeOnBus m p), outcomeOnBus_next, ← afterTile_onBus]
  rfl

@[simp] theorem engineTurn_onBus (s : State) : engineTurn (s.onBus m p) = outcomeOnBus m p (engineTurn s) := by
  cases h : s.phase with
  | idle => rw [engineTurn_idle h, engineTurn_idle (s := s.onBus m p) h, outcomeOnBus_next]
  | lz => rw [engineTurn_lz h, engineTurn_lz (s := s.onBus m p) h, lzStep_onBus]
  | plane => rw [engineTurn_plane h, engineTurn_plane (s := s.onBus m p) h, planeStep_onBus]

/-! ### The host's turn -/

@[simp] theorem startRaw_onBus (s : State) : startRaw (s.onBus m p) = (startRaw s).onBus m p := by
  simp only [startRaw, apply_ite (State.onBus m p), ← enterPlane_onBus]
  rfl

@[simp] theorem startJob_onBus (s : State) : startJob (s.onBus m p) = (startJob s).onBus m p := by
  simp only [startJob, onBus_mode]
  split
  · exact startRaw_onBus m p (jobBegun s).releaseObuf
  · simp only [apply_ite (State.onBus m p)]
    rfl
  · rfl

@[simp] theorem writeCtrl_onBus (w : Word) (s : State) :
    writeCtrl w (s.onBus m p) = (writeCtrl w s).onBus m p := by
  simp only [writeCtrl, apply_ite (State.onBus m p), ← startJob_onBus]
  rfl

@[simp] theorem writeReg_onBus (r : HostReg) (w : Word) (s : State) :
    writeReg r w (s.onBus m p) = outcomeOnBus m p (writeReg r w s) := by
  cases r with
  | ctrl => exact congrArg Host.Outcome.next (writeCtrl_onBus m p w s)
  | inLen =>
    simp only [writeReg, apply_ite (outcomeOnBus m p)]
    rfl
  | status => rfl
  | outLen => rfl
  | tileCount => rfl

@[simp] theorem writeInMem_onBus (a : Nat) (v : Byte) (s : State) :
    writeInMem a v (s.onBus m p) = outcomeOnBus m p (writeInMem a v s) := by
  simp only [writeInMem, apply_ite (outcomeOnBus m p)]
  rfl

@[simp] theorem readReg_onBus (r : HostReg) (s : State) : readReg r (s.onBus m p) = (readReg r s).onBus m p := by
  cases r with
  | ctrl => rfl
  | inLen => rfl
  | status | outLen | tileCount =>
    simp only [readReg, apply_ite (State.onBus m p)]
    rfl

@[simp] theorem readInMem_onBus (a : Nat) (s : State) :
    readInMem a (s.onBus m p) = outcomeOnBus m p (readInMem a s) := by
  simp only [readInMem, apply_ite (outcomeOnBus m p)]
  rfl

@[simp] theorem readObuf_onBus (a : Nat) (s : State) :
    readObuf a (s.onBus m p) = outcomeOnBus m p (readObuf a s) := by
  simp only [readObuf, apply_ite (outcomeOnBus m p)]
  rfl

@[simp] theorem readHbuf_onBus (a : Nat) (s : State) :
    readHbuf a (s.onBus m p) = outcomeOnBus m p (readHbuf a s) := by
  simp only [readHbuf, apply_ite (outcomeOnBus m p)]
  rfl

@[simp] theorem hostTurn_onBus (h : HostMove) (s : State) :
    hostTurn h (s.onBus m p) = outcomeOnBus m p (hostTurn h s) := by
  cases h with
  | reset => rfl
  | writeReg r w => exact writeReg_onBus m p r w s
  | writeInMem a v => exact writeInMem_onBus m p a v s
  | readReg r => exact congrArg Host.Outcome.next (readReg_onBus m p r s)
  | readInMem a => exact readInMem_onBus m p a s
  | readObuf a => exact readObuf_onBus m p a s
  | readHbuf a => exact readHbuf_onBus m p a s

/-! ### The step -/

/-- A step behind another bus ends as the step itself does, seen behind that bus (R9, R53). -/
theorem step_onBus (s : State) : step (s.onBus m p) = outcomeOnBus m p (step s) := by
  rcases engineNext_or_host s with h | ⟨h, rest, ha⟩
  · rw [step_engineNext h, step_engineNext (s := s.onBus m p) h]
    exact engineTurn_onBus m p { s with agenda := s.agenda.tail }
  · rw [step_hostNext ha, step_hostNext (s := s.onBus m p) ha]
    exact hostTurn_onBus m p h { s with agenda := rest }

end Sys2Proof.Machine

namespace Sys2Proof

open Machine

/-- Settles O52: the step commutes with replacing the two parameters, whichever of its three ends it has. -/
theorem noRuleDependsOnTheBusMap : Obligations.NoRuleDependsOnTheBusMap := by
  intro s m p
  refine ⟨fun t h => ?_, fun r h => ?_, fun r h => ?_⟩
  · rw [step_onBus, h, outcomeOnBus_next]
  · rw [step_onBus, h, outcomeOnBus_fault]
  · rw [step_onBus, h, outcomeOnBus_refused]

end Sys2Proof
end

section
/-! The decoder inverted: a command it answers is one the encoding can express (R75), and its bytes are the ones
it took from the front of the stream (R70, R81). -/

namespace Sys2Proof

theorem literalOperands_ok {header n : Nat} {mk : List Byte → Instr} {bs rest : List Byte} {i : Instr}
    (h : literalOperands header n mk bs = .ok i rest) :
    ∃ data, i = mk data ∧ data.length = n ∧ data ++ rest = bs := by
  unfold literalOperands at h
  cases hd : takeData n bs with
  | none => simp [hd] at h
  | some p =>
    obtain ⟨data, r⟩ := p
    simp only [hd, Decoded.ok.injEq] at h
    obtain ⟨rfl, rfl⟩ := h
    exact ⟨data, rfl, takeData_some hd⟩

theorem oneOperand_ok {header n : Nat} {mk : Byte → Instr} {bs rest : List Byte} {i : Instr}
    (h : oneOperand header n mk bs = .ok i rest) : ∃ v, i = mk v ∧ v :: rest = bs := by
  match bs with
  | [] => simp [oneOperand] at h
  | v :: bs =>
    simp only [oneOperand, Decoded.ok.injEq] at h
    exact ⟨v, h.1.symm, by rw [h.2]⟩

theorem twoOperands_ok {header n : Nat} {mk : Byte → Byte → Instr} {bs rest : List Byte} {i : Instr}
    (h : twoOperands header n mk bs = .ok i rest) : ∃ b0 b1, i = mk b0 b1 ∧ b0 :: b1 :: rest = bs := by
  match bs with
  | [] | [_] => simp [twoOperands] at h
  | b0 :: b1 :: bs =>
    simp only [twoOperands, Decoded.ok.injEq] at h
    exact ⟨b0, b1, h.1.symm, by rw [h.2]⟩

theorem dispOperand_ok {header n : Nat} {mk : Disp → Instr} {bs rest : List Byte} {i : Instr}
    (h : dispOperand header n mk bs = .ok i rest) : ∃ disp, i = mk disp ∧ dispBytes disp ++ rest = bs := by
  rcases dispOperand_cases header n mk bs with ⟨disp, r, hbs, e⟩ | ⟨-, e⟩
  · simp only [e, Decoded.ok.injEq] at h
    exact ⟨disp, h.1.symm, by rw [hbs, h.2]⟩
  · simp [e] at h

/-- A CODE or LCODE of a data command is one of the table's seven (R71, R72). -/
theorem dataCode_cases {c : BitVec 3} (h : c ≠ 7#3) :
    c = 0#3 ∨ c = 1#3 ∨ c = 2#3 ∨ c = 3#3 ∨ c = 4#3 ∨ c = 5#3 ∨ c = 6#3 := by
  revert c; decide

theorem decodeShort_ok {c : BitVec 3} (hc : c ≠ 7#3) {len : BitVec 5} {bs rest : List Byte} {i : Instr}
    (h : decodeShort c len bs = .ok i rest) :
    i.wellFormed = true ∧ encode i ++ rest = shortByte c len :: bs := by
  rcases dataCode_cases hc with rfl | rfl | rfl | rfl | rfl | rfl | rfl
  · obtain ⟨data, rfl, hl, rfl⟩ := literalOperands_ok h
    exact ⟨by simpa [Instr.wellFormed, shortLen] using hl, rfl⟩
  · obtain ⟨v, rfl, rfl⟩ := oneOperand_ok h
    exact ⟨rfl, rfl⟩
  · obtain ⟨b0, b1, rfl, rfl⟩ := twoOperands_ok h
    exact ⟨rfl, rfl⟩
  · cases h
    exact ⟨rfl, rfl⟩
  all_goals
    obtain ⟨disp, rfl, rfl⟩ := dispOperand_ok h
    exact ⟨rfl, rfl⟩

theorem decodeLong_ok {c : BitVec 3} (hc : c ≠ 7#3) {len : BitVec 10} {bs rest : List Byte} {i : Instr}
    (h : decodeLong c len bs = .ok i rest) :
    i.wellFormed = true ∧ encode i ++ rest = longBytes c len ++ bs := by
  rcases dataCode_cases hc with rfl | rfl | rfl | rfl | rfl | rfl | rfl
  · obtain ⟨data, rfl, hl, rfl⟩ := literalOperands_ok h
    exact ⟨by simpa [Instr.wellFormed, longLen] using hl, rfl⟩
  · obtain ⟨v, rfl, rfl⟩ := oneOperand_ok h
    exact ⟨rfl, rfl⟩
  · obtain ⟨b0, b1, rfl, rfl⟩ := twoOperands_ok h
    exact ⟨rfl, rfl⟩
  · cases h
    exact ⟨rfl, rfl⟩
  all_goals
    obtain ⟨disp, rfl, rfl⟩ := dispOperand_ok h
    exact ⟨rfl, rfl⟩

/-- A nested Long is its one byte: the escape, LCODE 7 and low bits below 3 (R80). -/
theorem nestedLong_ok {b : Byte} (hs : b ≠ 0xFF#8) (hc : codeField b = 7#3) (hl : longCodeField b = 7#3) :
    (nestedLong (lenHiField b)).wellFormed = true ∧ encode (nestedLong (lenHiField b)) = [b] := by
  revert b; decide

/-- The long header's two bytes, from the bytes the decoder read (R72). -/
theorem longBytes_of_fields {b : Byte} (hc : codeField b = 7#3) (l : Byte) :
    longBytes (longCodeField b) (lenHiField b ++ l) = [b, l] := by
  rw [longBytes_eq, long_len_hi, long_len_lo, longByte_fields hc]

/-- What the decoder answers is well-formed, and stands at the front of the bytes it was given. -/
theorem decode_ok {bs rest : List Byte} {i : Instr} (h : decode bs = .ok i rest) :
    i.wellFormed = true ∧ encode i ++ rest = bs := by
  cases bs with
  | nil => simp [decode] at h
  | cons b bs =>
    simp only [decode] at h
    split at h
    case isTrue hs =>
      cases h
      exact ⟨rfl, by rw [hs]; rfl⟩
    case isFalse hs =>
      split at h
      case isTrue hc =>
        split at h
        case isTrue hl =>
          cases h
          obtain ⟨hw, he⟩ := nestedLong_ok hs hc hl
          exact ⟨hw, by rw [he]; rfl⟩
        case isFalse hl =>
          cases bs with
          | nil => simp at h
          | cons l bs =>
            obtain ⟨hw, he⟩ := decodeLong_ok hl h
            exact ⟨hw, by rw [he, longBytes_of_fields hc]; rfl⟩
      case isFalse hc =>
        obtain ⟨hw, he⟩ := decodeShort_ok hc h
        exact ⟨hw, by rw [he, shortByte_fields]⟩

/-- A decoded command is no longer than the bytes it was decoded from. -/
theorem decode_ok_length {bs rest : List Byte} {i : Instr} (h : decode bs = .ok i rest) :
    (encode i).length ≤ bs.length := by
  rw [← (decode_ok h).2, List.length_append]
  omega

end Sys2Proof
end

section
/-! What each shared operation leaves alone, and everything an engine turn can do: the layer the statements about
the registers and the invariant stand on. -/

namespace Sys2Proof.Machine

/-! ### Frames of the operations that end or begin a job -/

/-- EnterPlane always releases the TileSet, and beyond that writes STATUS, PHASE and the plane registers only
(R181). -/
theorem enterPlane_frame (src : PlaneSource) (len : Nat) (s : State) :
    enterPlane src len s = { releaseTileSet s with
      phase := (enterPlane src len s).phase, outcome := (enterPlane src len s).outcome
      faultReason := (enterPlane src len s).faultReason, psrc := (enterPlane src len s).psrc
      ptc := (enterPlane src len s).ptc, tidx := (enterPlane src len s).tidx } := by
  rcases enterPlane_cases src len s with ⟨-, e⟩ | ⟨-, e⟩ | ⟨-, -, e⟩ <;> rw [e] <;> rfl

@[simp] theorem enterPlane_mode (src : PlaneSource) (len : Nat) (s : State) :
    (enterPlane src len s).mode = s.mode := by rw [enterPlane_frame]; rfl
@[simp] theorem enterPlane_inLen (src : PlaneSource) (len : Nat) (s : State) :
    (enterPlane src len s).inLen = s.inLen := by rw [enterPlane_frame]; rfl
@[simp] theorem enterPlane_outLen (src : PlaneSource) (len : Nat) (s : State) :
    (enterPlane src len s).outLen = s.outLen := by rw [enterPlane_frame]; rfl
@[simp] theorem enterPlane_tileCount (src : PlaneSource) (len : Nat) (s : State) :
    (enterPlane src len s).tileCount = 0 := by rw [enterPlane_frame]; rfl
@[simp] theorem enterPlane_ip (src : PlaneSource) (len : Nat) (s : State) :
    (enterPlane src len s).ip = s.ip := by rw [enterPlane_frame]; rfl
@[simp] theorem enterPlane_inMem (src : PlaneSource) (len : Nat) (s : State) :
    (enterPlane src len s).inMem = s.inMem := by rw [enterPlane_frame]; rfl

/-- Every START leaves OUT_LEN 0 (R27). -/
theorem startJob_outLen (s : State) : (startJob s).outLen = 0 := by
  rcases startJob_cases s with ⟨-, e⟩ | ⟨-, -, e⟩ | ⟨-, -, e⟩ | ⟨-, e⟩ <;> rw [e]
  case inl =>
    rcases startRaw_cases (jobBegun s).releaseObuf with ⟨-, e⟩ | ⟨-, -, e⟩ | ⟨-, -, e⟩ <;> rw [e] <;> simp
  all_goals rfl

/-- A START writes TILE_COUNT only with MODE 0, and then it makes it 0 (R181). -/
theorem startJob_tileCount (s : State) :
    (startJob s).tileCount = s.tileCount ∨ s.mode = 0 ∧ (startJob s).tileCount = 0 := by
  rcases startJob_cases s with ⟨hm, e⟩ | ⟨-, -, e⟩ | ⟨-, -, e⟩ | ⟨-, e⟩ <;> rw [e]
  case inl =>
    rcases startRaw_cases (jobBegun s).releaseObuf with ⟨-, e⟩ | ⟨-, -, e⟩ | ⟨-, -, e⟩ <;> rw [e]
    · exact .inl rfl
    · exact .inl rfl
    · exact .inr ⟨hm, enterPlane_tileCount ..⟩
  all_goals exact .inl rfl

/-! ### The engine's turn -/

/-- A command has at least its command byte (R70). -/
theorem one_le_encode_length (i : Instr) : 1 ≤ (encode i).length := by
  cases i <;> simp [encode, longBytes]

/-- The outcome and the reason a failed LZ job reports (R206 to R208). -/
def lzFailure (c : JobOutcome) (r : FaultReason) : Prop :=
  (c = .tooLarge ∨ c = .badCommand) ∧ r = .none ∨ c = .fault ∧ r ≠ .none

/-- Everything an LZ step that goes on can do: run a data command, `k` bytes fetched and `m` put out; fail,
`k` bytes fetched and `m` of a Literal's put out before; or run END. -/
theorem lzStep_next {s t : State} (h : lzStep s = .next t) :
    (∃ k m, Emits (s.fetched k) m t ∧ 1 ≤ k ∧ k ≤ s.stream.length ∧ s.op.toNat + m ≤ s.cfg.capBytes) ∨
    (∃ k m c r, State.failsWith { s with op := s.op + BitVec.ofNat 32 m } t k c r ∧ lzFailure c r
      ∧ k ≤ s.stream.length ∧ (m = 0 ∨ s.op.toNat + m ≤ s.cfg.capBytes)) ∨
    (∃ rest, decode s.stream = .ok .endStream rest ∧ 1 ≤ s.stream.length
      ∧ t = enterPlane .obuf s.op.toNat { s.fetched 1 with outLen := s.op }) := by
  have op_zero : ({ s with op := s.op + BitVec.ofNat 32 0 } : State) = s := by simp
  rcases lzStep_cases s with ⟨-, hf⟩ | ⟨u, hu, hcases⟩
  · rw [hf] at h; cases h
  obtain rfl : u = t := by rw [hu] at h; exact Host.Outcome.next.inj h
  rcases hcases with ⟨i, rest, hd, hx⟩ | ⟨header, n, emitted, hd, -, rfl⟩ | ⟨emitted, -, rfl, hop⟩
  · obtain ⟨hw, -⟩ := decode_ok hd
    have hlen := decode_ok_length hd
    have h1 := one_le_encode_length i
    obtain ⟨v, hv, hcases⟩ := exec_cases i s
    obtain rfl : v = u := by rw [hv] at hx; exact Host.Outcome.next.inj hx
    rcases hcases with ⟨k, m, he, hk, hm⟩ | ⟨k, c, r, hf, -, hk, hcr⟩ | ⟨rfl, rfl⟩
    · have hk := hk hw
      exact .inl ⟨k, m, he, by omega, by omega, hm hw⟩
    · refine .inr (.inl ⟨k, 0, c, r, by rwa [op_zero], ?_, (hk hw).trans hlen, .inl rfl⟩)
      rcases hcr with ⟨rfl, rfl⟩ | ⟨rfl, rfl⟩ | ⟨rfl, rfl⟩ <;> simp [lzFailure]
    · exact .inr (.inr ⟨rest, hd, h1.trans hlen, rfl⟩)
  · refine .inr (.inl ⟨header, 0, _, _, ?_, .inl ⟨.inl rfl, rfl⟩, (decode_noOperandByte hd).2.1, .inl rfl⟩)
    rw [op_zero]
    exact lzFail_failsWith .tooLarge header s
  · exact .inr (.inl ⟨s.stream.length, emitted, _, _, raiseFault_failsWith .underrun s.stream.length _,
      .inr ⟨rfl, by simp⟩, Nat.le_refl _, hop⟩)

/-- A plane step that goes on decodes its tile (R182). -/
theorem planeStep_next {s t : State} (h : planeStep s = .next t) :
    16 * s.tidx.toNat + 16 ≤ s.planeSourceSize ∧ 64 * s.tidx.toNat + 64 ≤ s.cfg.hueCount
      ∧ t = afterTile (tileDecoded s) := by
  unfold planeStep at h
  split at h
  case isTrue hb => exact ⟨hb.1, hb.2, (Host.Outcome.next.inj h).symm⟩
  case isFalse => cases h

/-- After the last tile the job ends with Ok and TILE_COUNT = PTC (R183). -/
theorem afterTile_last {s : State} (h : s.tidx = s.ptc) :
    afterTile s = finish .ok { s with tileCount := s.ptc } := if_pos h

theorem afterTile_more {s : State} (h : s.tidx ≠ s.ptc) : afterTile s = s := if_neg h

/-- OUT_LEN is not written by the end of a tile. -/
theorem afterTile_outLen (s : State) : (afterTile s).outLen = s.outLen := by
  unfold afterTile; split <;> rfl

end Sys2Proof.Machine
end

section
/-! The invariant (`State.Inv`) is kept by every step of either agent. One lemma for each way a turn can end; a field
of the invariant that speaks of nothing the turn has written carries over as it is. -/

namespace Sys2Proof.Machine

/-! ### The registers of a job, by phase -/

theorem jobInv_idle {s : State} (h : s.phase = .idle) :
    s.jobInv ↔ (s.faultReason ≠ .none ↔ s.outcome = .fault) := by
  unfold State.jobInv; rw [h]

theorem jobInv_lz {s : State} (h : s.phase = .lz) :
    s.jobInv ↔ s.outcome = .null ∧ s.faultReason = .none ∧ s.outLen = 0
      ∧ s.inLen.toNat ≤ s.cfg.inCapBytes ∧ s.ip.toNat ≤ s.inLen.toNat := by
  unfold State.jobInv; rw [h]

/-- How many bytes of its source the plane stage may read: what the raw entry or END gave it (R180, R184). -/
def State.planeInput (s : State) : Nat :=
  match s.psrc with
  | .inMem => min s.inLen.toNat s.cfg.inCapBytes
  | .obuf => s.outLen.toNat

theorem jobInv_plane {s : State} (h : s.phase = .plane) :
    s.jobInv ↔ s.outcome = .null ∧ s.faultReason = .none ∧ s.tileCount = 0
      ∧ s.tidx.toNat < s.ptc.toNat ∧ s.ptc.toNat ≤ s.cfg.capacityTiles
      ∧ 16 * s.ptc.toNat ≤ s.planeInput := by
  unfold State.jobInv; rw [h]; rfl

/-! ### Moves that write little -/

/-- The turns to come are no part of the invariant. -/
theorem State.Inv.withAgenda {s : State} (h : s.Inv) (a : List Turn) : State.Inv { s with agenda := a } :=
  { h with }

/-- Nor are what the host has read and how often it drew the free value. -/
theorem State.Inv.withRead {s : State} (h : s.Inv) (d : Word) {f : Nat} (hf : s.free ≤ f) :
    State.Inv { s with hostData := d, free := f } := by
  obtain ⟨h1, h2, h3⟩ := h.epochsLt
  exact { h with epochsLt := ⟨h1.trans_le hf, h2.trans_le hf, h3.trans_le hf⟩ }

/-- While idle the mode and the input may change (R25, R26, R50). -/
theorem State.Inv.withInput {s : State} (h : s.Inv) (hp : s.phase = .idle) (m : BitVec 2) (l : Word)
    {mem : Memory 8} (hwf : mem.wf) (hin : mem.within s.cfg.inCapBytes) (he : mem.epoch = s.inMem.epoch) :
    State.Inv { s with mode := m, inLen := l, inMem := mem } :=
  { h with
    inMemWf := hwf
    inMemWithin := hin
    epochsLt := ⟨he ▸ h.epochsLt.1, h.epochsLt.2⟩
    job := Iff.mpr (jobInv_idle hp) ((jobInv_idle hp).1 h.job) }

/-- The reset event gives an admitted core every register and memory anew (R39, R230). -/
theorem resetCore_inv {s : State} (h : s.cfg.wf) : (resetCore s).Inv where
  cfgWf := h
  tileCountLe := Nat.zero_le _
  opLe := Nat.zero_le _
  outLenLe := Nat.zero_le _
  notBadFile := by simp
  notNotGrayscale := by simp
  inMemWf := released_wf _
  obufWf := released_wf _
  hbufWf := released_wf _
  inMemWithin := released_within _ _
  obufWithin := released_within _ _
  hbufWithin := released_within _ _
  epochsLt := by simp
  job := (jobInv_idle rfl).2 (by simp)

/-! ### The ends of a job, and its beginnings -/

/-- A job that fails leaves a state that meets the invariant (R207, R208). -/
theorem failsWith_inv {s t : State} {k : Nat} {c : JobOutcome} {r : FaultReason} (h : s.Inv)
    (hf : s.failsWith t k c r) (hc : lzFailure c r) : t.Inv := by
  obtain ⟨ht, hfree⟩ := hf
  obtain ⟨h1, -, h3⟩ := h.epochsLt
  rw [ht]
  exact
    { h with
      outLenLe := Nat.zero_le _
      notBadFile := by rcases hc with ⟨rfl | rfl, -⟩ | ⟨rfl, -⟩ <;> simp
      notNotGrayscale := by rcases hc with ⟨rfl | rfl, -⟩ | ⟨rfl, -⟩ <;> simp
      obufWf := released_wf _
      obufWithin := released_within _ _
      epochsLt := ⟨h1.trans hfree, hfree, h3.trans hfree⟩
      job := (jobInv_idle rfl).2 (by rcases hc with ⟨rfl | rfl, rfl⟩ | ⟨rfl, hr⟩ <;> simp [*]) }

/-- A job may end with any outcome that is not FAULT and that the core produces (R203, R206). -/
theorem finish_inv {s : State} {c : JobOutcome} (h : s.Inv) (hb : c ≠ .badFile) (hg : c ≠ .notGrayscale)
    (hf : c ≠ .fault) : (finish c s).Inv :=
  { h with
    notBadFile := hb
    notNotGrayscale := hg
    job := (jobInv_idle rfl).2 (by simp [hf]) }

/-- A core whose job has just begun, still idle (R25). -/
theorem jobBegun_inv {s : State} (h : s.Inv) (hp : s.phase = .idle) : (jobBegun s).Inv :=
  { h with
    outLenLe := Nat.zero_le _
    notBadFile := by simp
    notNotGrayscale := by simp
    job := Iff.mpr (jobInv_idle hp) (by simp) }

theorem releaseObuf_inv {s : State} (h : s.Inv) : s.releaseObuf.Inv := by
  obtain ⟨h1, -, h3⟩ := h.epochsLt
  exact
    { h with
      obufWf := released_wf _
      obufWithin := released_within _ _
      epochsLt := ⟨h1.trans (Nat.lt_succ_self _), Nat.lt_succ_self _, h3.trans (Nat.lt_succ_self _)⟩ }

/-- The plane stage's entry, from a state whose STATUS reads Null: IP and OUT_LEN may have moved since, as END
moves them (R104, R181). -/
theorem enterPlane_inv {s : State} (h : s.Inv) (hn : s.outcome = .null) (hr : s.faultReason = .none)
    (src : PlaneSource) (len : Nat) (i x : Word) (hx : x.toNat ≤ s.cfg.capBytes)
    (hlen : len ≤ State.planeInput { s with psrc := src, outLen := x }) :
    (enterPlane src len { s with ip := i, outLen := x }).Inv := by
  obtain ⟨h1, h2, -⟩ := h.epochsLt
  have released : ∀ c : JobOutcome, c ≠ .badFile → c ≠ .notGrayscale → c ≠ .fault →
      (finish c (releaseTileSet { s with ip := i, outLen := x })).Inv := fun c hb hg hf =>
    { h with
      tileCountLe := Nat.zero_le _
      outLenLe := hx
      notBadFile := hb
      notNotGrayscale := hg
      hbufWf := released_wf _
      hbufWithin := released_within _ _
      epochsLt := ⟨h1.trans (Nat.lt_succ_self _), h2.trans (Nat.lt_succ_self _), Nat.lt_succ_self _⟩
      job := (jobInv_idle rfl).2 (by simp [hf]) }
  rcases enterPlane_cases src len { s with ip := i, outLen := x } with ⟨-, e⟩ | ⟨-, e⟩ | ⟨h0, hcap, e⟩ <;> rw [e]
  · exact released .tooLarge (by simp) (by simp) (by simp)
  · exact released .ok (by simp) (by simp) (by simp)
  · have hptc : (BitVec.ofNat 32 (len / 16)).toNat = len / 16 := by
      have hwf := h.cfgWf.2.1
      unfold Config.capBytes at hwf
      rw [BitVec.toNat_ofNat]
      exact Nat.mod_eq_of_lt (by change len / 16 ≤ s.cfg.capacityTiles at hcap; omega)
    have hin : 16 * (len / 16) ≤ State.planeInput { s with psrc := src, outLen := x } :=
      (Nat.mul_div_le len 16).trans hlen
    exact
      { h with
        tileCountLe := Nat.zero_le _
        outLenLe := hx
        hbufWf := released_wf _
        hbufWithin := released_within _ _
        epochsLt := ⟨h1.trans (Nat.lt_succ_self _), h2.trans (Nat.lt_succ_self _), Nat.lt_succ_self _⟩
        job := (jobInv_plane rfl).2 ⟨hn, hr, rfl, by rw [hptc]; exact h0, by rw [hptc]; exact hcap,
          by rw [hptc]; exact hin⟩ }

/-- The INLEN fault of a START (R25, R180). -/
theorem startFault_inv {s : State} (h : s.Inv) : (raiseFault .inLen s).Inv := by
  have hf : s.failsWith (raiseFault .inLen s) 0 .fault .inLen := by
    refine ⟨?_, by simp⟩
    simp [raiseFault, State.releaseObuf]
  exact failsWith_inv h hf (.inr ⟨rfl, by simp⟩)

/-- A raw job's START (R180). -/
theorem startRaw_inv {s : State} (h : s.Inv) (hn : s.outcome = .null) (hr : s.faultReason = .none) :
    (startRaw s).Inv := by
  rcases startRaw_cases s with ⟨-, e⟩ | ⟨-, -, e⟩ | ⟨hcap, -, e⟩ <;> rw [e]
  · exact startFault_inv h
  · exact finish_inv h (by simp) (by simp) (by simp)
  · exact enterPlane_inv h hn hr .inMem s.inLen.toNat s.ip s.outLen h.outLenLe (by simp [State.planeInput, hcap])

/-- Every START (R25). -/
theorem startJob_inv {s : State} (h : s.Inv) (hp : s.phase = .idle) : (startJob s).Inv := by
  have hb := releaseObuf_inv (jobBegun_inv h hp)
  rcases startJob_cases s with ⟨-, e⟩ | ⟨-, -, e⟩ | ⟨-, hcap, e⟩ | ⟨-, e⟩ <;> rw [e]
  · exact startRaw_inv hb rfl rfl
  · exact startFault_inv hb
  · exact
      { hb with
        opLe := Nat.zero_le _
        job := (jobInv_lz rfl).2 ⟨rfl, rfl, rfl, hcap, Nat.zero_le _⟩ }
  · exact finish_inv (jobBegun_inv h hp) (by simp) (by simp) (by simp)

theorem writeCtrl_inv {s : State} (h : s.Inv) (w : Word) : (writeCtrl w s).Inv := by
  have withMode : s.phase = .idle → State.Inv { s with mode := ctrlMode w } := fun hp =>
    h.withInput hp (ctrlMode w) s.inLen h.inMemWf h.inMemWithin rfl
  rcases writeCtrl_cases w s with ⟨-, e⟩ | ⟨hp, -, e⟩ | ⟨hp, -, e⟩ <;> rw [e]
  · exact h
  · exact withMode hp
  · exact startJob_inv (withMode hp) hp

/-! ### The two agents -/

theorem hostTurn_inv {m : HostMove} {s t : State} (h : s.Inv) (ht : hostTurn m s = .next t) : t.Inv := by
  rcases hostTurn_cases ht with ⟨w, -, rfl⟩ | ⟨-, rfl⟩ | ⟨w, -, hp, rfl⟩ | ⟨a, v, -, hp, ha, rfl⟩ | ⟨-, e, hf⟩
  · exact writeCtrl_inv h w
  · exact resetCore_inv h.cfgWf
  · exact h.withInput hp s.mode w h.inMemWf h.inMemWithin rfl
  · exact h.withInput hp s.mode s.inLen (write_wf h.inMemWf a v) (write_within h.inMemWithin ha v) rfl
  · rw [e]
    exact h.withRead t.hostData hf

/-- The input pointer within the stream: `k` Fetches of bytes that are left do not wrap, and stay within IN_LEN. -/
theorem fetched_ip_toNat {s : State} {k : Nat} (hip : s.ip.toNat ≤ s.inLen.toNat) (hk : k ≤ s.stream.length) :
    (s.ip + BitVec.ofNat 32 k).toNat = s.ip.toNat + k ∧ s.ip.toNat + k ≤ s.inLen.toNat := by
  have hle : s.ip.toNat + k ≤ s.inLen.toNat := by rw [stream_length] at hk; omega
  have hlt := s.inLen.isLt
  rw [BitVec.toNat_add, BitVec.toNat_ofNat]
  omega

/-- A data command that has run leaves the job running within its bounds. -/
theorem emits_inv {s t : State} {k m : Nat} (h : s.Inv) (hp : s.phase = .lz) (he : Emits (s.fetched k) m t)
    (hk : k ≤ s.stream.length) (hm : s.op.toNat + m ≤ s.cfg.capBytes) : t.Inv := by
  obtain ⟨hn, hr, ho, hcap, hip⟩ := (jobInv_lz hp).1 h.job
  obtain ⟨hip', hle⟩ := fetched_ip_toNat hip hk
  have hlt := op_lt_of_fits h.cfgWf hm
  have hwf := he.obuf_wf h.obufWf
  have hin := he.obuf_within (size := s.cfg.capBytes) hm hlt h.obufWithin
  have hep := he.obuf_epoch
  rw [he.frame]
  exact
    { h with
      opLe := by simpa [op_add hlt] using hm
      obufWf := hwf
      obufWithin := hin
      epochsLt := ⟨h.epochsLt.1, hep ▸ h.epochsLt.2.1, h.epochsLt.2.2⟩
      job := Iff.mpr (jobInv_lz hp) ⟨hn, hr, ho, hcap, by rwa [← hip'] at hle⟩ }

theorem lzStep_inv {s t : State} (h : s.Inv) (hp : s.phase = .lz) (ht : lzStep s = .next t) : t.Inv := by
  obtain ⟨hn, hr, -⟩ := (jobInv_lz hp).1 h.job
  rcases lzStep_next ht with ⟨k, m, he, -, hk, hm⟩ | ⟨k, m, c, r, hf, hc, -, hm⟩ | ⟨rest, -, -, rfl⟩
  · exact emits_inv h hp he hk hm
  · have hop : (s.op + BitVec.ofNat 32 m).toNat ≤ s.cfg.capBytes := by
      rcases hm with rfl | hm
      · simpa using h.opLe
      · rwa [op_add (op_lt_of_fits h.cfgWf hm)]
    exact failsWith_inv (s := { s with op := s.op + BitVec.ofNat 32 m }) { h with opLe := hop } hf hc
  · exact enterPlane_inv h hn hr .obuf s.op.toNat _ s.op h.opLe (Nat.le_refl _)

/-- TIDX does not wrap below PTC. -/
theorem tidx_succ {s : State} (h : s.tidx.toNat < s.ptc.toNat) : (s.tidx + 1).toNat = s.tidx.toNat + 1 := by
  have hlt := s.ptc.isLt
  rw [BitVec.toNat_add]
  exact Nat.mod_eq_of_lt (Nat.lt_of_le_of_lt h hlt)

theorem planeStep_inv {s t : State} (h : s.Inv) (hp : s.phase = .plane) (ht : planeStep s = .next t) :
    t.Inv := by
  obtain ⟨hn, hr, htc, hlt, hcap, hin⟩ := (jobInv_plane hp).1 h.job
  obtain ⟨-, hbound, rfl⟩ := planeStep_next ht
  have hwf := writeAll_wf h.hbufWf (64 * s.tidx.toNat) (tileHues fun k => s.planeByte (16 * s.tidx.toNat + k))
  have hwithin := writeAll_within (a := 64 * s.tidx.toNat) (tileHues fun k => s.planeByte (16 * s.tidx.toNat + k))
    h.hbufWithin (by rw [tileHues_length]; exact hbound)
  have hep : (tileDecoded s).hbuf.epoch < s.free := by
    rw [tileDecoded_hbuf, writeAll_epoch]; exact h.epochsLt.2.2
  by_cases hl : s.tidx + 1 = s.ptc
  · rw [afterTile_last hl]
    exact
      { h with
        tileCountLe := hcap
        notBadFile := by simp
        notNotGrayscale := by simp
        hbufWf := hwf
        hbufWithin := hwithin
        epochsLt := ⟨h.epochsLt.1, h.epochsLt.2.1, hep⟩
        job := (jobInv_idle rfl).2 (by simp) }
  · rw [afterTile_more (s := tileDecoded s) hl]
    have hlt' : (s.tidx + 1).toNat < s.ptc.toNat := by
      have hne : (s.tidx + 1).toNat ≠ s.ptc.toNat := fun e => hl (BitVec.eq_of_toNat_eq e)
      rw [tidx_succ hlt] at hne ⊢
      omega
    exact
      { h with
        hbufWf := hwf
        hbufWithin := hwithin
        epochsLt := ⟨h.epochsLt.1, h.epochsLt.2.1, hep⟩
        job := Iff.mpr (jobInv_plane hp) ⟨hn, hr, htc, hlt', hcap, hin⟩ }

theorem engineTurn_inv {s t : State} (h : s.Inv) (ht : engineTurn s = .next t) : t.Inv := by
  cases hp : s.phase with
  | idle =>
    rw [engineTurn_idle hp] at ht
    exact Host.Outcome.next.inj ht ▸ h
  | lz => exact lzStep_inv h hp (engineTurn_lz hp ▸ ht)
  | plane => exact planeStep_inv h hp (engineTurn_plane hp ▸ ht)

theorem step_inv {s t : State} (h : s.Inv) (ht : step s = .next t) : t.Inv := by
  rcases engineNext_or_host s with he | ⟨m, rest, ha⟩
  · rw [step_engineNext he] at ht
    exact engineTurn_inv (h.withAgenda _) ht
  · rw [step_hostNext ha] at ht
    exact hostTurn_inv (h.withAgenda _) ht

end Sys2Proof.Machine

namespace Sys2Proof

open Machine

/-- Settles O45: by whose turn it is, and by each way the turn can end. -/
theorem everyStepKeepsTheInvariant : Obligations.EveryStepKeepsTheInvariant :=
  fun _ _ => step_inv

end Sys2Proof
end

section
/-! The plane stage from any tile to its end, and a whole RAW job (R180 to R183). -/

namespace Sys2Proof.Machine

/-! ### Runs -/

/-- A run of one step more begins with that step. -/
theorem coreRun_succ {M : Host.Core} {s t : M.State} (h : M.step s = .next t) (k : Nat) :
    M.run (k + 1) s = M.run k t := by
  rw [Host.Core.run, h]

theorem run_succ {s t : State} (h : step s = .next t) (k : Nat) : core.run (k + 1) s = core.run k t :=
  coreRun_succ (M := core) h k

theorem run_zero (s : State) : core.run 0 s = .next s := rfl

/-! ### One tile -/

/-- The hue of a pixel is its high bit's plane twice and its low bit's once (R182). -/
theorem pixelHue_toNat (lo hi : Byte) (i : Nat) :
    (pixelHue lo hi i).toNat = 2 * (hi.getLsbD (7 - i)).toNat + (lo.getLsbD (7 - i)).toNat := by
  unfold pixelHue
  cases hi.getLsbD (7 - i) <;> cases lo.getLsbD (7 - i) <;> rfl

/-- HBUF holds tile `n` as the plane format gives it from the source bytes `byte` (R182). -/
def holdsTile (hbuf : Memory 2) (byte : Nat → Byte) (n : Nat) : Prop :=
  ∀ i j, i < 8 → j < 8 →
    hbuf.read (64 * n + 8 * j + i) = pixelHue (byte (16 * n + 2 * j)) (byte (16 * n + 2 * j + 1)) i

theorem holdsTile_tileDecoded (s : State) : holdsTile (tileDecoded s).hbuf s.planeByte s.tidx.toNat := by
  intro i j hi hj
  have hl : 8 * j + i < (tileHues fun k => s.planeByte (16 * s.tidx.toNat + k)).length := by
    rw [tileHues_length]; omega
  rw [tileDecoded_hbuf, Nat.add_assoc, read_writeAll_inside _ _ hl, tileHues_getElem _ hi hj]
  rfl

/-- A plane step leaves the hues of the other tiles alone (R182). -/
theorem tileDecoded_hbuf_other (s : State) {a : Nat}
    (h : a < 64 * s.tidx.toNat ∨ 64 * s.tidx.toNat + 64 ≤ a) :
    (tileDecoded s).hbuf.read a = s.hbuf.read a := by
  rw [tileDecoded_hbuf]
  exact read_writeAll_outside _ _ (by rwa [tileHues_length])

/-- What the plane stage may read lies in the memory it reads ("Every read is in range", R182). -/
theorem planeInput_le_size {s : State} (h : s.Inv) : s.planeInput ≤ s.planeSourceSize := by
  unfold State.planeInput State.planeSourceSize
  cases s.psrc with
  | inMem => exact Nat.min_le_right _ _
  | obuf => exact h.outLenLe

/-- In a state of a running job every plane step decodes its tile (R182). -/
theorem step_plane {s : State} (h : s.Inv) (hp : s.phase = .plane) (ha : s.agenda = []) :
    step s = .next (afterTile (tileDecoded s)) := by
  obtain ⟨-, -, -, hlt, hcap, hin⟩ := (jobInv_plane hp).1 h.job
  have hsize := planeInput_le_size h
  rw [step_engineNext (.inl ha), agenda_tail_nil ha, engineTurn_plane hp]
  exact if_pos ⟨by omega, by unfold Config.hueCount; omega⟩

/-! ### Every tile -/

/-- From tile TIDX on, the steps that are left decode the tiles that are left, keep those before, and end the job
with Ok (R183). -/
theorem planeStage_run (n : Nat) {s : State} (h : s.Inv) (hp : s.phase = .plane) (ha : s.agenda = [])
    (hn : s.tidx.toNat + n = s.ptc.toNat) :
    ∃ t, core.run n s = .next t ∧ t.succeeded ∧ t.tileCount = s.ptc ∧ t.outLen = s.outLen
      ∧ (∀ a, a < 64 * s.tidx.toNat → t.hbuf.read a = s.hbuf.read a)
      ∧ ∀ k, s.tidx.toNat ≤ k → k < s.ptc.toNat → holdsTile t.hbuf s.planeByte k := by
  induction n generalizing s with
  | zero =>
    obtain ⟨-, -, -, hlt, -⟩ := (jobInv_plane hp).1 h.job
    omega
  | succ n ih =>
    obtain ⟨-, -, -, hlt, -⟩ := (jobInv_plane hp).1 h.job
    have hstep := step_plane h hp ha
    have hsucc := tidx_succ hlt
    have hbefore : ∀ a, a < 64 * s.tidx.toNat → (tileDecoded s).hbuf.read a = s.hbuf.read a :=
      fun a ha => tileDecoded_hbuf_other s (.inl ha)
    rw [run_succ hstep]
    by_cases hl : s.tidx + 1 = s.ptc
    · rw [hl] at hsucc
      obtain rfl : n = 0 := by omega
      rw [afterTile_last (s := tileDecoded s) hl]
      refine ⟨_, run_zero _, ⟨rfl, rfl⟩, rfl, rfl, hbefore, fun k hk hk' => ?_⟩
      obtain rfl : k = s.tidx.toNat := by omega
      exact holdsTile_tileDecoded s
    · have hinv := step_inv h hstep
      rw [afterTile_more (s := tileDecoded s) hl] at hinv ⊢
      have htidx : (tileDecoded s).tidx.toNat = s.tidx.toNat + 1 := hsucc
      obtain ⟨t, hrun, hok, hcount, hout, hkeep, htiles⟩ :=
        ih hinv hp ha (by rw [htidx, tileDecoded_ptc]; omega)
      rw [htidx] at hkeep htiles
      refine ⟨t, hrun, hok, hcount, hout, fun a ha => ?_, fun k hk hk' => ?_⟩
      · rw [hkeep a (by omega), hbefore a ha]
      · rcases Nat.eq_or_lt_of_le hk with rfl | hk
        · intro i j hi hj
          rw [hkeep _ (by omega)]
          exact holdsTile_tileDecoded s i j hi hj
        · exact htiles k hk hk'

/-! ### A START -/

/-- A START written while idle (R25). -/
theorem step_start {s : State} {w : Word} {rest : List Turn} (hp : s.phase = .idle)
    (ha : s.agenda = .host (.writeReg .ctrl w) :: rest) (hs : ctrlStart w = true) :
    step s = .next (startJob { s with agenda := rest, mode := ctrlMode w }) := by
  rw [step_hostNext ha]
  rcases writeCtrl_cases w { s with agenda := rest } with ⟨hne, -⟩ | ⟨-, hf, -⟩ | ⟨-, -, e⟩
  · exact absurd hp hne
  · rw [hs] at hf; cases hf
  · exact congrArg Host.Outcome.next e

/-- MODE is RAW, LZ or reserved (R24). -/
theorem mode_cases (m : BitVec 2) : m = 0 ∨ m = 1 ∨ 2 ≤ m.toNat := by
  revert m; decide

theorem startJob_raw {s : State} (h : s.mode = 0) : startJob s = startRaw (jobBegun s).releaseObuf := by
  unfold startJob; rw [h]; rfl

theorem startJob_lz {s : State} (h : s.mode = 1) :
    startJob s = if s.cfg.inCapBytes < s.inLen.toNat then raiseFault .inLen (jobBegun s).releaseObuf
      else { (jobBegun s).releaseObuf with ip := 0, op := 0, phase := .lz } := by
  unfold startJob; rw [h]; rfl

theorem startJob_reserved {s : State} (h : 2 ≤ s.mode.toNat) : startJob s = finish .null (jobBegun s) := by
  rcases startJob_cases s with ⟨hm, -⟩ | ⟨hm, -⟩ | ⟨hm, -⟩ | ⟨-, e⟩
  case inr.inr.inr => exact e
  all_goals rw [hm] at h; exact absurd h (by decide)

/-- The core when the first effects of a START `w` are made, OBUF's contents any value (R25, R20). -/
def State.begun (w : Word) (rest : List Turn) (s : State) : State :=
  (jobBegun { s with agenda := rest, mode := ctrlMode w }).releaseObuf

/-- A START with MODE 0 (R25). -/
theorem step_startRaw {s : State} {w : Word} {rest : List Turn} (hp : s.phase = .idle)
    (ha : s.agenda = .host (.writeReg .ctrl w) :: rest) (hs : ctrlStart w = true) (hm : ctrlMode w = 0) :
    step s = .next (startRaw (s.begun w rest)) := by
  rw [step_start hp ha hs, startJob_raw hm]
  rfl

/-- A raw START whose length is a whole number of tiles enters the plane stage (R180). -/
theorem startRaw_whole {s : State} (hcap : s.inLen.toNat ≤ s.cfg.inCapBytes) (h16 : s.inLen.toNat % 16 = 0) :
    startRaw s = enterPlane .inMem s.inLen.toNat s := by
  unfold startRaw
  rw [if_neg (by omega), if_neg (by omega)]

end Sys2Proof.Machine

namespace Sys2Proof

open Machine

/-- Settles O33: the START write enters the plane stage at tile 0, or ends the job where there is no tile, and
`planeStage_run` does the rest. -/
theorem rawJobDecodesItsInput : Obligations.RawJobDecodesItsInput := by
  intro s w h hp ha hs hm hcap h16 htiles
  have hstep := step_startRaw hp ha hs hm
  rw [startRaw_whole (s := s.begun w []) hcap h16] at hstep
  have hinv := step_inv h hstep
  rw [Nat.add_comm 1, run_succ hstep]
  rcases enterPlane_cases .inMem (s.begun w []).inLen.toNat (s.begun w []) with
    ⟨hover, -⟩ | ⟨h0, e⟩ | ⟨-, -, e⟩
  · exact absurd htiles (Nat.not_le.2 hover)
  · change s.inLen.toNat / 16 = 0 at h0
    rw [h0]
    refine ⟨_, run_zero _, ?_, ?_, ?_, fun n i j hn => absurd hn (Nat.not_lt_zero n)⟩
    · rw [e]; exact ⟨rfl, rfl⟩
    · rw [enterPlane_tileCount]; rfl
    · rw [enterPlane_outLen]; rfl
  · have hptc : (BitVec.ofNat 32 (s.inLen.toNat / 16)).toNat = s.inLen.toNat / 16 := by
      have := s.inLen.isLt
      rw [BitVec.toNat_ofNat]
      omega
    rw [e] at hinv ⊢
    obtain ⟨t, hrun, hok, hcount, hout, -, hhues⟩ :=
      planeStage_run (s.inLen.toNat / 16) hinv rfl rfl (by rw [← hptc]; exact Nat.zero_add _)
    refine ⟨t, hrun, hok, by rw [hcount]; exact hptc, hout, fun n i j hn hi hj => ?_⟩
    rw [hhues n (Nat.zero_le n) (hn.trans_eq hptc.symm) i j hi hj]
    exact pixelHue_toNat _ _ i

end Sys2Proof
end

section
/-! Two jobs on the same input, side by side (R37, R38). Two cores that agree on what a job may read keep agreeing on
it from step to step: in the LZ stage on IP, OP and the bytes put out so far, in the plane stage on its
registers, its source and the tiles decoded so far, and at the end on the result. -/

namespace Sys2Proof.Machine

/-! ### Memories that agree -/

section
variable {w : Nat} {m m' : Memory w}

/-- Two memories give the same at every index below `n`. -/
def agreeBelow (n : Nat) (m m' : Memory w) : Prop := ∀ a, a < n → m.read a = m'.read a

theorem agreeBelow_zero (m m' : Memory w) : agreeBelow 0 m m' := fun a h => absurd h (Nat.not_lt_zero a)

theorem agreeBelow.mono {n k : Nat} (h : agreeBelow n m m') (hk : k ≤ n) : agreeBelow k m m' :=
  fun a ha => h a (ha.trans_le hk)

/-- Writing the same at the end of what agrees makes it longer. -/
theorem agreeBelow.writeAll {a : Nat} (h : agreeBelow a m m') (vs : List (BitVec w)) :
    agreeBelow (a + vs.length) (m.writeAll a vs) (m'.writeAll a vs) := by
  intro b hb
  rw [read_writeAll, read_writeAll]
  split
  · rfl
  · exact h b (by omega)

end

/-! ### Cores that agree on a job -/

/-- Two cores with the engine alone at work agree on the parameters and the input. -/
structure SameInput (s t : State) : Prop where
  cfg : s.cfg = t.cfg
  inLen : s.inLen = t.inLen
  agendas : s.agenda = [] ∧ t.agenda = []
  inMem : agreeBelow s.inLen.toNat s.inMem t.inMem

/-- In the LZ stage they also agree on where it stands and on what it has put out. -/
structure SameLz (s t : State) : Prop extends SameInput s t where
  phases : s.phase = .lz ∧ t.phase = .lz
  ip : s.ip = t.ip
  op : s.op = t.op
  obuf : agreeBelow s.op.toNat s.obuf t.obuf

/-- In the plane stage they also agree on its registers, on the compressed entry's source, and on the tiles done. -/
structure SamePlane (s t : State) : Prop extends SameInput s t where
  phases : s.phase = .plane ∧ t.phase = .plane
  psrc : s.psrc = t.psrc
  ptc : s.ptc = t.ptc
  tidx : s.tidx = t.tidx
  outLen : s.outLen = t.outLen
  obuf : agreeBelow s.outLen.toNat s.obuf t.obuf
  hbuf : agreeBelow (64 * s.tidx.toNat) s.hbuf t.hbuf

/-- At the end they also agree on STATUS and OUT_LEN, and after Ok on the result. -/
structure SameEnd (s t : State) : Prop extends SameInput s t where
  phases : s.phase = .idle ∧ t.phase = .idle
  outcome : s.outcome = t.outcome
  faultReason : s.faultReason = t.faultReason
  outLen : s.outLen = t.outLen
  result : s.outcome = .ok → s.tileCount = t.tileCount
    ∧ agreeBelow (64 * s.tileCount.toNat) s.hbuf t.hbuf ∧ agreeBelow s.outLen.toNat s.obuf t.obuf

/-- Two cores agree on the job they run, or have run. -/
inductive SameJob (s t : State) : Prop where
  /-- Both are in the LZ stage. -/
  | lz (h : SameLz s t)
  /-- Both are in the plane stage. -/
  | plane (h : SamePlane s t)
  /-- Both jobs have ended. -/
  | ended (h : SameEnd s t)

variable {s t : State}

/-- Cores that agree on the job look the same to the host. -/
theorem SameJob.sameResult (h : SameJob s t) (hs : s.Inv) (ht : t.Inv) : sameResult s t := by
  cases h with
  | lz h =>
    obtain ⟨ps, pt⟩ := h.phases
    obtain ⟨os, fs, ls, -⟩ := (jobInv_lz ps).1 hs.job
    obtain ⟨ot, ft, lt, -⟩ := (jobInv_lz pt).1 ht.job
    exact ⟨ps.trans pt.symm, os.trans ot.symm, fs.trans ft.symm, ls.trans lt.symm, fun hi => by simp [ps] at hi⟩
  | plane h =>
    obtain ⟨ps, pt⟩ := h.phases
    obtain ⟨os, fs, -⟩ := (jobInv_plane ps).1 hs.job
    obtain ⟨ot, ft, -⟩ := (jobInv_plane pt).1 ht.job
    exact ⟨ps.trans pt.symm, os.trans ot.symm, fs.trans ft.symm, h.outLen, fun hi => by simp [ps] at hi⟩
  | ended h =>
    obtain ⟨ps, pt⟩ := h.phases
    exact ⟨ps.trans pt.symm, h.outcome, h.faultReason, h.outLen, fun _ => h.result⟩

/-! ### Ends that agree -/

theorem SameInput.finish (h : SameInput s t) (hl : s.outLen = t.outLen) {c : JobOutcome} (hc : c ≠ .ok) :
    SameEnd (finish c s) (finish c t) :=
  { h with phases := ⟨rfl, rfl⟩, outcome := rfl, faultReason := rfl, outLen := hl, result := fun e => absurd e hc }

theorem SameInput.lzFail (h : SameInput s t) {c : JobOutcome} (hc : c ≠ .ok) :
    SameEnd (lzFail c s) (lzFail c t) :=
  { h with phases := ⟨rfl, rfl⟩, outcome := rfl, faultReason := rfl, outLen := rfl, result := fun e => absurd e hc }

theorem SameInput.raiseFault (h : SameInput s t) (r : FaultReason) :
    SameEnd (raiseFault r s) (raiseFault r t) :=
  { h with
    phases := ⟨rfl, rfl⟩, outcome := rfl, faultReason := rfl, outLen := rfl
    result := fun e => by simp at e }

theorem SameInput.enterPlane (h : SameInput s t) (hl : s.outLen = t.outLen)
    (ho : agreeBelow s.outLen.toNat s.obuf t.obuf) (src : PlaneSource) (len : Nat) :
    SameJob (enterPlane src len s) (enterPlane src len t) := by
  have released : SameInput (releaseTileSet s) (releaseTileSet t) := { h with }
  unfold Machine.enterPlane
  rw [← h.cfg]
  by_cases hc : s.cfg.capacityTiles < len / 16
  · rw [if_pos hc, if_pos hc]
    exact .ended (released.finish hl (by simp))
  · rw [if_neg hc, if_neg hc]
    by_cases h0 : len / 16 = 0
    · rw [if_pos h0, if_pos h0]
      exact .ended
        { h with
          phases := ⟨rfl, rfl⟩, outcome := rfl, faultReason := rfl, outLen := hl
          result := fun _ => ⟨rfl, agreeBelow_zero _ _, ho⟩ }
    · rw [if_neg h0, if_neg h0]
      exact .plane
        { h with
          phases := ⟨rfl, rfl⟩, psrc := rfl, ptc := rfl, tidx := rfl, outLen := hl, obuf := ho
          hbuf := agreeBelow_zero _ _ }

/-! ### The LZ stage -/

theorem SameLz.fetched (h : SameLz s t) (k : Nat) : SameLz (s.fetched k) (t.fetched k) :=
  { h with ip := congrArg (· + BitVec.ofNat 32 k) h.ip }

theorem SameLz.emit (h : SameLz s t) (v : Byte) : SameLz (s.emit v) (t.emit v) where
  cfg := h.cfg
  inLen := h.inLen
  agendas := h.agendas
  inMem := h.inMem
  phases := h.phases
  ip := h.ip
  op := congrArg (· + 1) h.op
  obuf := by
    have hop : (s.op + 1).toNat ≤ s.op.toNat + 1 := by rw [BitVec.toNat_add]; exact Nat.mod_le _ _
    have hw := (h.obuf.writeAll [v]).mono hop
    rwa [emit_obuf, emit_obuf, ← h.op]

theorem SameLz.emitAll (h : SameLz s t) (vs : List Byte) : SameLz (emitAll vs s) (emitAll vs t) := by
  induction vs generalizing s t with
  | nil => exact h
  | cons v vs ih => exact ih (h.emit v)

/-- A copy reads below OP only, where the two cores agree. -/
theorem SameLz.copyForward (h : SameLz s t) (f : Byte → Byte) (n : Nat) {off : Nat} (hoff : off < s.op.toNat)
    (hn : s.op.toNat + n < 2 ^ 32) : SameLz (copyForward f n off s) (copyForward f n off t) := by
  induction n generalizing s t off with
  | zero => exact h
  | succ n ih =>
    have hop : (s.emit (f (s.obuf.read off))).op.toNat = s.op.toNat + 1 := op_succ (by omega)
    unfold Machine.copyForward
    rw [← h.obuf off hoff]
    exact ih (h.emit _) (by omega) (by omega)

theorem SameLz.copyBackward (h : SameLz s t) (n : Nat) {off : Nat} (hoff : off < s.op.toNat)
    (hn : s.op.toNat + n < 2 ^ 32) : SameLz (copyBackward n off s) (copyBackward n off t) := by
  induction n generalizing s t off with
  | zero => exact h
  | succ n ih =>
    have hop : (s.emit (s.obuf.read off)).op.toNat = s.op.toNat + 1 := op_succ (by omega)
    unfold Machine.copyBackward
    rw [← h.obuf off hoff]
    exact ih (h.emit _) (by omega) (by omega)

theorem forwardValid_iff {p : Nat} {off : Int} : forwardValid p off = true ↔ 0 ≤ off ∧ off < p := by
  simp [forwardValid]

/-- A valid Reverse starts at a byte the job has written (R152). -/
theorem forwardValid_of_backwardValid {n p : Nat} {off : Int} (h : backwardValid n p off = true) :
    forwardValid p off = true :=
  (Bool.and_eq_true_iff.1 h).1

/-- The capacity check of a data command comes out the same; its own rule then has to. -/
theorem SameLz.dataCommand (h : SameLz s t) {header n : Nat} {body : State → State}
    (hbody : s.op.toNat + n ≤ s.cfg.capBytes → SameJob (body (s.fetched header)) (body (t.fetched header))) :
    SameJob (dataCommand header n body s) (dataCommand header n body t) := by
  by_cases hc : s.cfg.capBytes < s.op.toNat + n
  · rw [dataCommand_over hc, dataCommand_over (by rwa [← h.cfg, ← h.op])]
    exact .ended ((h.fetched header).toSameInput.lzFail (by simp))
  · rw [dataCommand_fits (Nat.not_lt.1 hc), dataCommand_fits (by rw [← h.cfg, ← h.op]; exact Nat.not_lt.1 hc)]
    exact hbody (Nat.not_lt.1 hc)

theorem SameLz.literal (h : SameLz s t) (header n : Nat) (data : List Byte) :
    SameJob (literal header n data s) (literal header n data t) :=
  h.dataCommand fun _ => .lz (((h.fetched header).fetched data.length).emitAll data)

theorem SameLz.iterate (h : SameLz s t) (header n : Nat) (v : Byte) :
    SameJob (iterate header n v s) (iterate header n v t) :=
  h.dataCommand fun _ => by
    simp only [emitSame_eq]
    exact .lz (((h.fetched header).fetched 1).emitAll _)

theorem SameLz.alternate (h : SameLz s t) (header n : Nat) (b0 b1 : Byte) :
    SameJob (alternate header n b0 b1 s) (alternate header n b0 b1 t) :=
  h.dataCommand fun _ => by
    simp only [emitAlternate_eq]
    exact .lz (((h.fetched header).fetched 2).emitAll _)

theorem SameLz.blankFill (h : SameLz s t) (header n : Nat) :
    SameJob (blankFill header n s) (blankFill header n t) :=
  h.dataCommand fun _ => by
    simp only [emitSame_eq]
    exact .lz ((h.fetched header).emitAll _)

theorem SameLz.forwardCopy (h : SameLz s t) (hwf : s.cfg.wf) (f : Byte → Byte) (header n : Nat) (disp : Disp) :
    SameJob (forwardCopy f header n disp s) (forwardCopy f header n disp t) :=
  h.dataCommand fun hn => by
    have hfetched := (h.fetched header).fetched (dispSize disp)
    dsimp only
    rw [← (h.fetched header).op]
    by_cases hv : forwardValid (s.fetched header).op.toNat (backRef (s.fetched header).op.toNat disp) = true
    · have hoff : 0 ≤ backRef s.op.toNat disp ∧ backRef s.op.toNat disp < s.op.toNat :=
        forwardValid_iff.1 hv
      rw [if_pos hv, if_pos hv]
      exact .lz (hfetched.copyForward f n (by simp only [fetched_op]; omega) (op_lt_of_fits hwf hn))
    · rw [if_neg hv, if_neg hv]
      exact .ended (hfetched.toSameInput.raiseFault .badRef)

theorem SameLz.backwardCopy (h : SameLz s t) (hwf : s.cfg.wf) (header n : Nat) (disp : Disp) :
    SameJob (backwardCopy header n disp s) (backwardCopy header n disp t) :=
  h.dataCommand fun hn => by
    have hfetched := (h.fetched header).fetched (dispSize disp)
    dsimp only
    rw [← (h.fetched header).op]
    by_cases hv : backwardValid n (s.fetched header).op.toNat (backRef (s.fetched header).op.toNat disp) = true
    · have hoff : 0 ≤ backRef s.op.toNat disp ∧ backRef s.op.toNat disp < s.op.toNat :=
        forwardValid_iff.1 (forwardValid_of_backwardValid hv)
      rw [if_pos hv, if_pos hv]
      exact .lz (hfetched.copyBackward n (by simp only [fetched_op]; omega) (op_lt_of_fits hwf hn))
    · rw [if_neg hv, if_neg hv]
      exact .ended (hfetched.toSameInput.raiseFault .badRef)

/-- Two outcomes that are both next states, of cores that agree. -/
def nextAgree (o o' : Host.Outcome State Fault Refusal) : Prop :=
  ∃ s' t', o = .next s' ∧ o' = .next t' ∧ SameJob s' t'

theorem SameJob.next (h : SameJob s t) : nextAgree (.next s) (.next t) := ⟨s, t, rfl, rfl, h⟩

theorem SameLz.exec (h : SameLz s t) (hwf : s.cfg.wf) (i : Instr) : nextAgree (exec i s) (exec i t) := by
  have illegal := ((h.fetched 1).toSameInput.lzFail (c := .badCommand) (by simp))
  cases i with
  | lit len data => exact (h.literal 1 (shortLen len) data).next
  | iter len v => exact (h.iterate 1 (shortLen len) v).next
  | alt len b0 b1 => exact (h.alternate 1 (shortLen len) b0 b1).next
  | blank len => exact (h.blankFill 1 (shortLen len)).next
  | rpt len disp => exact (h.forwardCopy hwf id 1 (shortLen len) disp).next
  | flip len disp => exact (h.forwardCopy hwf bitReverse 1 (shortLen len) disp).next
  | rev len disp => exact (h.backwardCopy hwf 1 (shortLen len) disp).next
  | litL len data => exact (h.literal 2 (longLen len) data).next
  | iterL len v => exact (h.iterate 2 (longLen len) v).next
  | altL len b0 b1 => exact (h.alternate 2 (longLen len) b0 b1).next
  | blankL len => exact (h.blankFill 2 (longLen len)).next
  | rptL len disp => exact (h.forwardCopy hwf id 2 (longLen len) disp).next
  | flipL len disp => exact (h.forwardCopy hwf bitReverse 2 (longLen len) disp).next
  | revL len disp => exact (h.backwardCopy hwf 2 (longLen len) disp).next
  | endStream =>
    have ended : SameInput { s.fetched 1 with outLen := s.op } { t.fetched 1 with outLen := t.op } :=
      { h with }
    have hjob := ended.enterPlane h.op h.obuf .obuf s.op.toNat
    refine ⟨_, _, rfl, rfl, ?_⟩
    rwa [← congrArg BitVec.toNat h.op]
  | illegalFC | illegalFD | illegalFE => exact (SameJob.ended illegal).next

theorem SameLz.stream (h : SameLz s t) : s.stream = t.stream := by
  unfold State.stream
  rw [← h.inLen, ← h.cfg, ← h.ip]
  refine List.map_congr_left fun k hk => h.inMem _ ?_
  have := List.mem_range.1 hk
  omega

theorem SameLz.lzStep (h : SameLz s t) (hs : s.Inv) : nextAgree (lzStep s) (lzStep t) := by
  obtain ⟨-, -, -, hcap, -⟩ := (jobInv_lz h.phases.1).1 hs.job
  have hunderrun : ∀ e, nextAgree (underrun e s) (underrun e t) := by
    intro e
    have hended : SameInput { s.fetched s.stream.length with op := s.op + BitVec.ofNat 32 e }
        { t.fetched t.stream.length with op := t.op + BitVec.ofNat 32 e } := { h with }
    unfold underrun
    rw [if_pos hcap, if_pos (by rwa [← h.inLen, ← h.cfg])]
    exact (SameJob.ended (hended.raiseFault .underrun)).next
  unfold Machine.lzStep
  rw [← h.stream]
  cases decode s.stream with
  | ok i rest => exact h.exec hs.cfgWf i
  | noCommandByte => exact hunderrun 0
  | noLengthByte => exact hunderrun 0
  | noOperandByte header n emitted =>
    simp only [← h.cfg, ← h.op]
    by_cases hc : s.cfg.capBytes < s.op.toNat + n
    · rw [if_pos hc, if_pos hc]
      exact (SameJob.ended ((h.fetched header).toSameInput.lzFail (by simp))).next
    · rw [if_neg hc, if_neg hc]
      exact hunderrun emitted

/-! ### The plane stage -/

/-- A tile's hues depend on its 16 bytes only (R182). -/
theorem tileHues_congr {byte byte' : Nat → Byte} (h : ∀ k, k < 16 → byte k = byte' k) :
    tileHues byte = tileHues byte' := by
  refine List.flatMap_congr fun j hj => List.map_congr_left fun i _ => ?_
  have := List.mem_range.1 hj
  rw [h (2 * j) (by omega), h (2 * j + 1) (by omega)]

/-- The source bytes of the plane stage are bytes the two cores agree on. -/
theorem SamePlane.planeByte (h : SamePlane s t) {a : Nat} (ha : a < s.planeInput) :
    s.planeByte a = t.planeByte a := by
  unfold State.planeInput at ha
  unfold State.planeByte
  rw [← h.psrc]
  cases hp : s.psrc with
  | inMem =>
    rw [hp] at ha
    exact h.inMem a (ha.trans_le (Nat.min_le_left _ _))
  | obuf =>
    rw [hp] at ha
    exact h.obuf a ha

theorem SamePlane.step (h : SamePlane s t) (hs : s.Inv) (ht : t.Inv) : nextAgree (Machine.step s) (Machine.step t) := by
  obtain ⟨-, -, -, hlt, -, hin⟩ := (jobInv_plane h.phases.1).1 hs.job
  rw [step_plane hs h.phases.1 h.agendas.1, step_plane ht h.phases.2 h.agendas.2]
  have hhues : (tileHues fun k => s.planeByte (16 * s.tidx.toNat + k))
      = tileHues fun k => t.planeByte (16 * t.tidx.toNat + k) :=
    tileHues_congr fun k hk => by rw [← h.tidx]; exact h.planeByte (by omega)
  have hbuf : agreeBelow (64 * (s.tidx + 1).toNat) (tileDecoded s).hbuf (tileDecoded t).hbuf := by
    have hw := h.hbuf.writeAll (tileHues fun k => s.planeByte (16 * s.tidx.toNat + k))
    rw [tileHues_length, ← Nat.mul_succ, Nat.succ_eq_add_one, ← tidx_succ hlt] at hw
    rwa [tileDecoded_hbuf, tileDecoded_hbuf, ← hhues, ← h.tidx]
  by_cases hl : s.tidx + 1 = s.ptc
  · rw [afterTile_last (s := tileDecoded s) hl,
      afterTile_last (s := tileDecoded t) (by rwa [tileDecoded_tidx, tileDecoded_ptc, ← h.tidx, ← h.ptc])]
    rw [hl] at hbuf
    exact SameJob.next (.ended
      { h with
        phases := ⟨rfl, rfl⟩, outcome := rfl, faultReason := rfl
        result := fun _ => ⟨h.ptc, hbuf, h.obuf⟩ })
  · rw [afterTile_more (s := tileDecoded s) hl,
      afterTile_more (s := tileDecoded t) (by rwa [tileDecoded_tidx, tileDecoded_ptc, ← h.tidx, ← h.ptc])]
    exact SameJob.next (.plane { h with tidx := congrArg (· + 1) h.tidx, hbuf := hbuf })

/-! ### Steps and runs -/

theorem SameJob.step (h : SameJob s t) (hs : s.Inv) (ht : t.Inv) : nextAgree (Machine.step s) (Machine.step t) := by
  have turn : ∀ {u : State}, u.agenda = [] → Machine.step u = engineTurn u := fun hu => by
    rw [step_engineNext (.inl hu), agenda_tail_nil hu]
  cases h with
  | lz h =>
    rw [turn h.agendas.1, turn h.agendas.2, engineTurn_lz h.phases.1, engineTurn_lz h.phases.2]
    exact h.lzStep hs
  | plane h => exact h.step hs ht
  | ended h =>
    rw [turn h.agendas.1, turn h.agendas.2, engineTurn_idle h.phases.1, engineTurn_idle h.phases.2]
    exact (SameJob.ended h).next

theorem SameJob.run (h : SameJob s t) (hs : s.Inv) (ht : t.Inv) (k : Nat) :
    ∃ s' t', core.run k s = .next s' ∧ core.run k t = .next t' ∧ Machine.sameResult s' t' := by
  induction k generalizing s t with
  | zero => exact ⟨s, t, rfl, rfl, h.sameResult hs ht⟩
  | succ k ih =>
    obtain ⟨s', t', es, et, h'⟩ := h.step hs ht
    rw [run_succ es, run_succ et]
    exact ih h' (step_inv hs es) (step_inv ht et)

/-! ### The START -/

theorem SameInput.startRaw (h : SameInput s t) (hl : s.outLen = 0 ∧ t.outLen = 0) :
    SameJob (startRaw s) (startRaw t) := by
  have hl' := hl.1.trans hl.2.symm
  unfold Machine.startRaw
  rw [← h.cfg, ← h.inLen]
  by_cases hc : s.cfg.inCapBytes < s.inLen.toNat
  · rw [if_pos hc, if_pos hc]
    exact .ended (h.raiseFault .inLen)
  · by_cases h16 : s.inLen.toNat % 16 ≠ 0
    · rw [if_neg hc, if_neg hc, if_pos h16, if_pos h16]
      exact .ended (h.finish hl' (by simp))
    · rw [if_neg hc, if_neg hc, if_neg h16, if_neg h16]
      exact h.enterPlane hl' (by rw [hl.1]; exact agreeBelow_zero _ _) .inMem s.inLen.toNat

theorem SameInput.startJob (h : SameInput s t) (hm : s.mode = t.mode) : SameJob (startJob s) (startJob t) := by
  have begun : SameInput (jobBegun s) (jobBegun t) := { h with }
  have released : SameInput (jobBegun s).releaseObuf (jobBegun t).releaseObuf := { h with }
  rcases mode_cases s.mode with h0 | h1 | h2
  · rw [startJob_raw h0, startJob_raw (hm ▸ h0)]
    exact released.startRaw ⟨rfl, rfl⟩
  · rw [startJob_lz h1, startJob_lz (hm ▸ h1), ← h.cfg, ← h.inLen]
    by_cases hc : s.cfg.inCapBytes < s.inLen.toNat
    · rw [if_pos hc, if_pos hc]
      exact .ended (released.raiseFault .inLen)
    · rw [if_neg hc, if_neg hc]
      exact .lz { released with phases := ⟨rfl, rfl⟩, ip := rfl, op := rfl, obuf := agreeBelow_zero _ _ }
  · rw [startJob_reserved h2, startJob_reserved (hm ▸ h2)]
    exact .ended (begun.finish rfl (by simp))

end Sys2Proof.Machine

namespace Sys2Proof

open Machine

/-- Settles O51: the two STARTs leave cores that agree on the job, and `SameJob.run` keeps them so. -/
theorem resultDependsOnlyOnTheInput : Obligations.ResultDependsOnlyOnTheInput := by
  intro s t w hs ht ps pt has hat hw hcfg hlen hmem k
  have es := step_start ps has hw
  have et := step_start pt hat hw
  have hinput : SameInput { s with agenda := [], mode := ctrlMode w } { t with agenda := [], mode := ctrlMode w } :=
    ⟨hcfg, hlen, ⟨rfl, rfl⟩, hmem⟩
  rw [run_succ es, run_succ et]
  exact (hinput.startJob rfl).run (step_inv hs es) (step_inv ht et) k

end Sys2Proof
end

section
/-! Who writes what: OUT_LEN (R27), TILE_COUNT (R28), the input (R20, R50, R63) and IP (R29), read off the inversion
lemmas of the two agents' turns. -/

namespace Sys2Proof.Machine

variable {s t : State}

/-! ### The engine's turn, by phase -/

/-- The state in which the engine takes its turn: the turn is off the agenda. -/
def State.turnTaken (s : State) : State := { s with agenda := s.agenda.tail }

/-- An engine turn is a turn of the phase it finds (R31). -/
theorem step_engine_cases (he : s.engineNext) (h : step s = .next t) :
    (s.phase = .idle ∧ t = s.turnTaken) ∨ (s.phase = .lz ∧ lzStep s.turnTaken = .next t) ∨
    (s.phase = .plane ∧ planeStep s.turnTaken = .next t) := by
  have hturn : engineTurn s.turnTaken = .next t := (step_engineNext he).symm.trans h
  have hphase : ∀ p, s.phase = p → s.turnTaken.phase = p := fun _ hp => hp
  cases hp : s.phase with
  | idle =>
    rw [engineTurn_idle (hphase _ hp)] at hturn
    exact .inl ⟨rfl, (Host.Outcome.next.inj hturn).symm⟩
  | lz => exact .inr (.inl ⟨rfl, engineTurn_lz (hphase _ hp) ▸ hturn⟩)
  | plane => exact .inr (.inr ⟨rfl, engineTurn_plane (hphase _ hp) ▸ hturn⟩)

theorem step_lz (hp : s.phase = .lz) (he : s.engineNext) : step s = lzStep s.turnTaken :=
  (step_engineNext he).trans (engineTurn_lz (s := s.turnTaken) hp)

/-- END enters the plane stage with OUT_LEN at OP (R104). -/
theorem lzStep_endStream {rest : List Byte} (h : decode s.stream = .ok .endStream rest) :
    lzStep s = .next (enterPlane .obuf s.op.toNat { s.fetched 1 with outLen := s.op }) := lzStep_ok h

/-! ### OUT_LEN -/

/-- An LZ step leaves OUT_LEN alone, makes it 0 as the job fails, or is the one that runs END. -/
theorem lzStep_outLen (h : lzStep s = .next t) :
    t.outLen = s.outLen ∨ t.outLen = 0 ∨ t.outLen = s.op ∧ ∃ rest, decode s.stream = .ok .endStream rest := by
  rcases lzStep_next h with ⟨k, m, he, -⟩ | ⟨k, m, c, r, ⟨ht, -⟩, -⟩ | ⟨rest, hd, -, rfl⟩
  · exact .inl (by rw [he.frame]; rfl)
  · exact .inr (.inl (by rw [ht]))
  · exact .inr (.inr ⟨enterPlane_outLen .., rest, hd⟩)

theorem planeStep_outLen (h : planeStep s = .next t) : t.outLen = s.outLen := by
  obtain ⟨-, -, rfl⟩ := planeStep_next h
  exact afterTile_outLen (tileDecoded s)

theorem hostTurn_outLen {m : HostMove} (h : hostTurn m s = .next t) : t.outLen = s.outLen ∨ t.outLen = 0 := by
  rcases hostTurn_cases h with ⟨w, -, rfl⟩ | ⟨-, rfl⟩ | ⟨w, -, -, rfl⟩ | ⟨a, v, -, -, -, rfl⟩ | ⟨-, e, -⟩
  · rcases writeCtrl_cases w s with ⟨-, e⟩ | ⟨-, -, e⟩ | ⟨-, -, e⟩ <;> rw [e]
    · exact .inl rfl
    · exact .inl rfl
    · exact .inr (startJob_outLen _)
  · exact .inr rfl
  · exact .inl rfl
  · exact .inl rfl
  · exact .inl (by rw [e])

/-- An LZ job that ends at a step, and not with Ok, leaves OUT_LEN 0: at END the capacity check of the plane stage
holds, since OP is within the capacity (R184). -/
theorem lzStep_failed_outLen (h : s.Inv) (hp : s.phase = .lz) (ht : lzStep s = .next t) (hi : t.phase = .idle)
    (hne : t.outcome ≠ .ok) : t.outLen = 0 := by
  rcases lzStep_next ht with ⟨k, m, he, -⟩ | ⟨k, m, c, r, ⟨hf, -⟩, -⟩ | ⟨rest, hd, -, rfl⟩
  · have hphase : t.phase = s.phase := by rw [he.frame]; rfl
    rw [hphase, hp] at hi
    cases hi
  · rw [hf]
  · have hop := h.opLe
    rcases enterPlane_cases .obuf s.op.toNat { s.fetched 1 with outLen := s.op } with
      ⟨hover, -⟩ | ⟨-, e⟩ | ⟨-, -, e⟩
    · change s.cfg.capacityTiles < s.op.toNat / 16 at hover
      unfold Config.capBytes at hop
      omega
    · rw [e] at hne
      exact absurd rfl hne
    · rw [e] at hi
      cases hi

/-- A plane step that ends the job ends it with Ok (R183). -/
theorem planeStep_ends_ok (hp : s.phase = .plane) (h : planeStep s = .next t) (hi : t.phase = .idle) :
    t.outcome = .ok := by
  obtain ⟨-, -, rfl⟩ := planeStep_next h
  by_cases hl : (tileDecoded s).tidx = (tileDecoded s).ptc
  · rw [afterTile_last hl]; rfl
  · rw [afterTile_more hl, tileDecoded_phase, hp] at hi
    cases hi

/-! ### TILE_COUNT -/

/-- An LZ step writes TILE_COUNT only where it runs END, and makes it 0 (R181). -/
theorem lzStep_tileCount (h : lzStep s = .next t) :
    t.tileCount = s.tileCount ∨ t.tileCount = 0 ∧ ∃ rest, decode s.stream = .ok .endStream rest := by
  rcases lzStep_next h with ⟨k, m, he, -⟩ | ⟨k, m, c, r, ⟨ht, -⟩, -⟩ | ⟨rest, hd, -, rfl⟩
  · exact .inl (by rw [he.frame]; rfl)
  · exact .inl (by rw [ht])
  · exact .inr ⟨enterPlane_tileCount .., rest, hd⟩

/-- A plane step writes TILE_COUNT only where it ends the stage (R183). -/
theorem planeStep_tileCount (h : planeStep s = .next t) :
    t.tileCount = s.tileCount ∨ t.tileCount = s.ptc ∧ t.phase = .idle ∧ t.outcome = .ok := by
  obtain ⟨-, -, rfl⟩ := planeStep_next h
  by_cases hl : (tileDecoded s).tidx = (tileDecoded s).ptc
  · rw [afterTile_last hl]
    exact .inr ⟨rfl, rfl, rfl⟩
  · rw [afterTile_more hl]
    exact .inl rfl

/-- The host's moves that write TILE_COUNT: reset and a RAW START while idle, both to 0. -/
theorem hostTurn_tileCount {m : HostMove} (h : hostTurn m s = .next t) :
    t.tileCount = s.tileCount ∨ t.tileCount = 0 ∧ (m = .reset ∨
      ∃ w, m = .writeReg .ctrl w ∧ ctrlStart w = true ∧ ctrlMode w = 0 ∧ s.phase = .idle) := by
  rcases hostTurn_cases h with ⟨w, rfl, rfl⟩ | ⟨rfl, rfl⟩ | ⟨w, -, -, rfl⟩ | ⟨a, v, -, -, -, rfl⟩ | ⟨-, e, -⟩
  · rcases writeCtrl_cases w s with ⟨-, e⟩ | ⟨-, -, e⟩ | ⟨hp, hs, e⟩ <;> rw [e]
    · exact .inl rfl
    · exact .inl rfl
    · exact (startJob_tileCount { s with mode := ctrlMode w }).imp id
        fun ⟨hm, h0⟩ => ⟨h0, .inr ⟨w, rfl, hs, hm, hp⟩⟩
  · exact .inr ⟨rfl, .inl rfl⟩
  · exact .inl rfl
  · exact .inl rfl
  · exact .inl (by rw [e])

/-! ### The input and IP -/

/-- Two states hold the same input and the same mode. -/
def keepsInput (s t : State) : Prop := t.inMem = s.inMem ∧ t.inLen = s.inLen ∧ t.mode = s.mode

theorem lzStep_keepsInput (h : lzStep s = .next t) : keepsInput s t := by
  rcases lzStep_next h with ⟨k, m, he, -⟩ | ⟨k, m, c, r, ⟨ht, -⟩, -⟩ | ⟨rest, hd, -, rfl⟩
  · rw [he.frame]; exact ⟨rfl, rfl, rfl⟩
  · rw [ht]; exact ⟨rfl, rfl, rfl⟩
  · exact ⟨enterPlane_inMem .., enterPlane_inLen .., enterPlane_mode ..⟩

theorem planeStep_keepsInput (h : planeStep s = .next t) : keepsInput s t := by
  obtain ⟨-, -, rfl⟩ := planeStep_next h
  unfold afterTile
  split <;> exact ⟨rfl, rfl, rfl⟩

/-- An LZ step moves IP over bytes that are left of the stream, and over one at least where the job goes on. -/
theorem lzStep_ip (h : lzStep s = .next t) :
    ∃ k, k ≤ s.stream.length ∧ t.ip = s.ip + BitVec.ofNat 32 k ∧ (t.phase ≠ .idle → 1 ≤ k) := by
  rcases lzStep_next h with ⟨k, m, he, h1, hk, -⟩ | ⟨k, m, c, r, ⟨ht, -⟩, -, hk, -⟩ | ⟨rest, -, h1, rfl⟩
  · exact ⟨k, hk, by rw [he.frame]; rfl, fun _ => h1⟩
  · exact ⟨k, hk, by rw [ht], fun hne => absurd (by rw [ht]) hne⟩
  · exact ⟨1, h1, enterPlane_ip .., fun _ => Nat.le_refl 1⟩

end Sys2Proof.Machine

namespace Sys2Proof

open Machine

/-- Settles O26: `startJob_outLen` for a START, END's own effect, and for every other step what its turn does to
OUT_LEN. -/
theorem outLenIsWrittenByStartEndAndFailure : Obligations.OutLenIsWrittenByStartEndAndFailure := by
  refine ⟨fun s t w rest hp ha hs h => ?_, fun s t rest hp he hd h => ?_, fun s t hinv hne he h hi hok => ?_,
    fun s t h hne => ?_, rfl⟩
  · rw [step_start hp ha hs] at h
    rw [← Host.Outcome.next.inj h]
    exact startJob_outLen _
  · rw [step_lz hp he, lzStep_endStream (s := s.turnTaken) hd] at h
    rw [← Host.Outcome.next.inj h]
    exact enterPlane_outLen ..
  · rcases step_engine_cases he h with ⟨hp, -⟩ | ⟨hp, hl⟩ | ⟨hp, hl⟩
    · exact absurd hp hne
    · exact lzStep_failed_outLen (s := s.turnTaken) (hinv.withAgenda _) hp hl hi hok
    · exact absurd (planeStep_ends_ok (s := s.turnTaken) hp hl hi) hok
  · rcases engineNext_or_host s with he | ⟨m, rest, ha⟩
    · rcases step_engine_cases he h with ⟨-, rfl⟩ | ⟨hp, hl⟩ | ⟨-, hl⟩
      · exact absurd rfl hne
      · rcases lzStep_outLen hl with e | e | ⟨e, hd⟩
        · exact absurd e hne
        · exact .inl e
        · exact .inr ⟨hp, he, e, hd⟩
      · exact absurd (planeStep_outLen hl) hne
    · rw [step_hostNext ha] at h
      exact .inl ((hostTurn_outLen h).resolve_left hne)

/-- Settles O27: by whose turn it is, and by what that turn does to TILE_COUNT. -/
theorem tileCountIsWrittenInTwoPlaces : Obligations.TileCountIsWrittenInTwoPlaces := by
  intro s t h hne
  rcases engineNext_or_host s with he | ⟨m, rest, ha⟩
  · rcases step_engine_cases he h with ⟨-, rfl⟩ | ⟨hp, hl⟩ | ⟨hp, hl⟩
    · exact absurd rfl hne
    · exact .inl ⟨he, hp, (lzStep_tileCount hl).resolve_left hne⟩
    · exact .inr (.inl ⟨he, hp, (planeStep_tileCount hl).resolve_left hne⟩)
  · rw [step_hostNext ha] at h
    obtain ⟨h0, hm⟩ := (hostTurn_tileCount h).resolve_left hne
    rw [ha, List.head?_cons]
    rcases hm with rfl | ⟨w, rfl, hw⟩
    · exact .inr (.inr ⟨h0, .inl rfl⟩)
    · exact .inr (.inr ⟨h0, .inr ⟨w, rfl, hw⟩⟩)

/-- Settles O48: none of the engine's three turns writes the input. -/
theorem engineNeverWritesItsInput : Obligations.EngineNeverWritesItsInput := by
  intro s t he h
  rcases step_engine_cases he h with ⟨-, rfl⟩ | ⟨-, hl⟩ | ⟨-, hl⟩
  · exact ⟨rfl, rfl, rfl⟩
  · exact lzStep_keepsInput (s := s.turnTaken) hl
  · exact planeStep_keepsInput (s := s.turnTaken) hl

/-- Settles O49: IP moves over bytes left of the stream only (`lzStep_ip`), and so does not wrap. -/
theorem inputPointerOnlyAdvances : Obligations.InputPointerOnlyAdvances := by
  intro s t hinv hp ha h
  obtain ⟨-, -, -, -, hip⟩ := (jobInv_lz hp).1 hinv.job
  rw [step_engineNext (.inl ha), agenda_tail_nil ha, engineTurn_lz hp] at h
  obtain ⟨k, hk, e, h1⟩ := lzStep_ip h
  obtain ⟨hto, hle⟩ := fetched_ip_toNat hip hk
  rw [e, hto]
  exact ⟨Nat.le_add_right _ k, hle, fun hne => Nat.lt_add_of_pos_right (h1 hne)⟩

end Sys2Proof
end

section
/-! The host's moves (R25, R26, R50, R57, R61) and the reset event (R39, R230): what each answers, in the state and on
the bus. -/

namespace Sys2Proof.Machine

/-! ### Writes -/

theorem writeCtrl_busy {s : State} {w : Word} (h : s.phase ≠ .idle) : writeCtrl w s = s :=
  if_pos (busy_eq_true.2 h)

theorem writeCtrl_mode {s : State} {w : Word} (h : s.phase = .idle) (hs : ctrlStart w = false) :
    writeCtrl w s = { s with mode := ctrlMode w } := by
  simp [writeCtrl, busy_eq_false.2 h, hs]

theorem writeReg_inLen_idle {s : State} {w : Word} (h : s.phase = .idle) :
    writeReg .inLen w s = .next { s with inLen := w } := by
  simp [writeReg, busy_eq_false.2 h]

theorem writeInMem_idle {s : State} {a : Nat} {v : Byte} (h : s.phase = .idle) (ha : a < s.cfg.inCapBytes) :
    writeInMem a v s = .next { s with inMem := s.inMem.write a v } := by
  simp [writeInMem, busy_eq_false.2 h, ha]

/-- The read-only registers ignore a write (R20). -/
theorem writeReg_readOnly {r : HostReg} (h : r = .status ∨ r = .outLen ∨ r = .tileCount) (w : Word) (s : State) :
    writeReg r w s = .next s := by
  rcases h with rfl | rfl | rfl <;> rfl

/-! ### The words of STATUS and CTRL -/

theorem reason_code_toNat (r : FaultReason) : r.code.toNat = tableReasonCode r := by cases r <;> rfl

theorem outcome_code_toNat (c : JobOutcome) : c.code.toNat = tableOutcomeCode c := by cases c <;> rfl

/-- The layout of STATUS (R23): FAULT_REASON, BUSY and OUTCOME, from bit 5 down. -/
theorem statusFields_toNat (r : BitVec 2) (b : Bool) (o : BitVec 3) :
    ((r ++ BitVec.ofBool b ++ o : BitVec 6).setWidth 32).toNat = 16 * r.toNat + 8 * b.toNat + o.toNat := by
  revert r b o; decide

theorem statusFields_busy (r : BitVec 2) (b : Bool) (o : BitVec 3) :
    ((r ++ BitVec.ofBool b ++ o : BitVec 6).setWidth 32).getLsbD 3 = b := by
  revert r b o; decide

theorem statusWord_toNat (o : BitVec 3) (s : State) :
    (s.statusWord o).toNat = 16 * tableReasonCode s.faultReason + 8 * s.busy.toNat + o.toNat := by
  rw [← reason_code_toNat]
  exact statusFields_toNat _ _ _

theorem statusWord_busy (o : BitVec 3) (s : State) : (s.statusWord o).getLsbD 3 = s.busy :=
  statusFields_busy _ _ _

theorem tableReasonCode_lt (r : FaultReason) : tableReasonCode r < 4 := by cases r <;> decide

theorem ctrlWord_toNat (s : State) : s.ctrlWord.toNat = s.mode.toNat := by
  unfold State.ctrlWord
  rw [BitVec.toNat_setWidth]
  exact Nat.mod_eq_of_lt (s.mode.isLt.trans (by decide))

/-! ### Reads -/

/-- A STATUS read answers the word of STATUS, with the true OUTCOME while idle (R61). -/
theorem readReg_status_hostData (s : State) :
    ∃ o, (readReg .status s).hostData = s.statusWord o ∧ (s.phase = .idle → o = s.outcome.code) := by
  unfold readReg
  by_cases hb : s.busy = true
  · exact ⟨_, by rw [if_pos hb]; rfl, fun hp => absurd hp (busy_eq_true.1 hb)⟩
  · exact ⟨s.outcome.code, by rw [if_neg hb]; rfl, fun _ => rfl⟩

/-- The fields of the word a STATUS read answers (R23). -/
theorem readReg_status_fields (s : State) :
    ((readReg .status s).hostData.getLsbD 3 = true ↔ s.phase ≠ .idle)
      ∧ (readReg .status s).hostData.toNat < 64
      ∧ (readReg .status s).hostData.toNat / 16 = tableReasonCode s.faultReason
      ∧ (s.phase = .idle → (readReg .status s).hostData.toNat % 8 = tableOutcomeCode s.outcome) := by
  obtain ⟨o, hword, ho⟩ := readReg_status_hostData s
  have hreason := tableReasonCode_lt s.faultReason
  have hbusy := Bool.toNat_le s.busy
  have hlt := o.isLt
  rw [hword, statusWord_busy, statusWord_toNat]
  refine ⟨busy_eq_true, by omega, by omega, fun hp => ?_⟩
  rw [← outcome_code_toNat, ← ho hp]
  omega

theorem readReg_outLen_idle {s : State} (h : s.phase = .idle) : readReg .outLen s = hostReads s.outLen s := by
  simp [readReg, busy_eq_false.2 h]

theorem readReg_tileCount_idle {s : State} (h : s.phase = .idle) :
    readReg .tileCount s = hostReads s.tileCount s := by
  simp [readReg, busy_eq_false.2 h]

theorem readInMem_within {s : State} {a : Nat} (ha : a < s.cfg.inCapBytes) :
    readInMem a s = .next (hostReads ((s.inMem.read a).setWidth 32) s) := if_neg (Nat.not_le.2 ha)

theorem readObuf_idle {s : State} {a : Nat} (h : s.phase = .idle) (ha : a < s.cfg.capBytes) :
    readObuf a s = .next (hostReads ((s.obuf.read a).setWidth 32) s) := by
  simp [readObuf, busy_eq_false.2 h, ha]

theorem readHbuf_idle {s : State} {a : Nat} (h : s.phase = .idle) (ha : a < s.cfg.hueCount)
    (ht : a < 64 * s.tileCount.toNat) :
    readHbuf a s = .next (hostReads ((s.hbuf.read a).setWidth 32) s) := by
  simp [readHbuf, busy_eq_false.2 h, Nat.not_le.2 ha, Nat.not_le.2 ht]

/-- A memory element fits the host's register. -/
theorem setWidth_word_toNat {w : Nat} (hw : w ≤ 32) (v : BitVec w) : (v.setWidth 32).toNat = v.toNat := by
  rw [BitVec.toNat_setWidth]
  exact Nat.mod_eq_of_lt (v.isLt.trans_le (Nat.pow_le_pow_right (by decide) hw))

/-! ### Reset -/

theorem resetCore_atResetValues (s : State) : (resetCore s).atResetValues := by
  unfold State.atResetValues
  simp

/-- Power-on is the reset event of a core that has made no draw (R39, R230). -/
theorem reset_eq_resetCore : State.reset = resetCore { State.reset with free := 0 } := rfl

end Sys2Proof.Machine

namespace Sys2Proof

open Machine

/-- Settles O36: the three answers of a CTRL write, and a START by its MODE. -/
theorem ctrlWriteStartsJobs : Obligations.CtrlWriteStartsJobs := by
  intro s w rest ha
  have hturn : step s = .next (writeCtrl w { s with agenda := rest }) := step_hostNext ha
  have hmode : ∀ m : BitVec 2, (w.extractLsb' 0 2).toNat = m.toNat → ctrlMode w = m :=
    fun _ h => BitVec.eq_of_toNat_eq h
  refine ⟨fun hp => ?_, fun hp hs => ?_, fun hp hs hm => ?_, fun hp hs hm hc => ?_, fun hp hs hm hc => ?_,
    fun hp hs hm => ?_⟩
  · rw [hturn, writeCtrl_busy (s := { s with agenda := rest }) hp]
  · rw [hturn, writeCtrl_mode (s := { s with agenda := rest }) hp hs]
    rfl
  · refine ⟨s.begun w rest, ?_, step_startRaw hp ha hs (hmode 0 hm)⟩
    rw [State.begun, hmode 0 hm]
    rfl
  · refine ⟨_, by rw [step_start hp ha hs, startJob_lz (hmode 1 hm), if_pos hc], ?_, rfl⟩
    rw [hmode 1 hm]
    simp [raiseFault, State.releaseObuf, jobBegun, hp]
  · refine ⟨_, by rw [step_start hp ha hs, startJob_lz (hmode 1 hm), if_neg (Nat.not_lt.2 hc)], ?_⟩
    rw [hmode 1 hm]
    rfl
  · rw [step_start hp ha hs, startJob_reserved hm]
    exact congrArg Host.Outcome.next (by simp [finish, jobBegun, ctrlMode, hp])

/-- Settles O37: each of the host's other writes, admitted. -/
theorem hostWritesItsInput : Obligations.HostWritesItsInput := by
  refine ⟨fun s w rest hp ha => ?_, fun s a v rest hp ha hcap => ?_, fun s r w rest hr ha => ?_⟩
  · rw [step_hostNext ha]
    exact writeReg_inLen_idle hp
  · refine ⟨{ s with agenda := rest, inMem := s.inMem.write a v }, ?_, rfl, read_write_same _ _ _,
      fun b hb => read_write_other _ _ hb⟩
    rw [step_hostNext ha]
    exact writeInMem_idle hp hcap
  · rw [step_hostNext ha]
    exact writeReg_readOnly hr w _

/-- Settles O39: the fields of the words that the two reads answer. -/
theorem statusAndCtrlReadTheirFields : Obligations.StatusAndCtrlReadTheirFields := by
  exact ⟨fun s rest ha => ⟨_, step_hostNext ha, readReg_status_fields { s with agenda := rest }⟩,
    fun s rest ha => ⟨_, step_hostNext ha, ctrlWord_toNat s⟩⟩

/-- Settles O40: each read, admitted while the core is idle. -/
theorem idleReadsReturnWhatIsHeld : Obligations.IdleReadsReturnWhatIsHeld := by
  intro s rest hp
  refine ⟨fun ha => ?_, fun ha => ?_, fun ha => ?_, fun a ha hcap => ?_, fun a ha hcap => ?_,
    fun a ha hcap hcount => ?_⟩ <;> rw [step_hostNext ha]
  · exact ⟨_, rfl, rfl⟩
  · exact ⟨_, congrArg Host.Outcome.next (readReg_outLen_idle hp), rfl⟩
  · exact ⟨_, congrArg Host.Outcome.next (readReg_tileCount_idle hp), rfl⟩
  · exact ⟨_, readInMem_within hcap, setWidth_word_toNat (by decide) _⟩
  · exact ⟨_, readObuf_idle hp hcap, setWidth_word_toNat (by decide) _⟩
  · exact ⟨_, readHbuf_idle hp hcap hcount, setWidth_word_toNat (by decide) _⟩

/-- Settles O42: power-on and the reset event give the same values (`resetCore_atResetValues`). -/
theorem resetGivesEveryResetValue : Obligations.ResetGivesEveryResetValue := by
  refine ⟨by rw [reset_eq_resetCore]; exact resetCore_atResetValues _, fun s rest ha => ?_⟩
  refine ⟨resetCore { s with agenda := rest }, step_hostNext ha, resetCore_atResetValues _, rfl, rfl, rfl, ?_⟩
  simp

/-- Settles O44: power-on is a reset event, which any admitted parameters make meet the invariant. -/
theorem resetMeetsTheInvariant : Obligations.ResetMeetsTheInvariant := by
  unfold Obligations.ResetMeetsTheInvariant
  rw [reset_eq_resetCore]
  exact resetCore_inv (by decide)

end Sys2Proof
end

section
/-! The host's moves that have no side effect (R57), and those that are refused (R59, R61, R236). -/

namespace Sys2Proof.Machine

variable {s : State} {a : Nat}

/-- A host read that is admitted changes only what the host has read and the draw counter (R57): the other cases of
`hostTurn_cases` are writes and reset. -/
theorem hostTurn_read_frame {m : HostMove} {t : State}
    (hm : (∃ r, m = .readReg r) ∨ (∃ a, m = .readInMem a) ∨ (∃ a, m = .readObuf a) ∨ (∃ a, m = .readHbuf a))
    (h : hostTurn m s = .next t) : t = { s with hostData := t.hostData, free := t.free } := by
  rcases hostTurn_cases h with ⟨w, rfl, -⟩ | ⟨rfl, -⟩ | ⟨w, rfl, -⟩ | ⟨a, v, rfl, -⟩ | ⟨-, hframe, -⟩
  case inr.inr.inr.inr => exact hframe
  all_goals simp at hm

/-! ### Writes of the input while BUSY (R61, R236) -/

theorem writeReg_inLen_busy (h : s.phase ≠ .idle) (w : Word) :
    writeReg .inLen w s = .refused .hostWritesWhileBusy := if_pos (busy_eq_true.2 h)

theorem writeInMem_busy (h : s.phase ≠ .idle) (a : Nat) (v : Byte) :
    writeInMem a v s = .refused .hostWritesWhileBusy := if_pos (busy_eq_true.2 h)

/-! ### Accesses at or beyond a memory's size (R59) -/

theorem writeInMem_beyond (h : s.phase = .idle) (ha : s.cfg.inCapBytes ≤ a) (v : Byte) :
    writeInMem a v s = .refused .hostBeyondMemory := by
  simp [writeInMem, busy_eq_false.2 h, ha]

theorem readInMem_beyond (ha : s.cfg.inCapBytes ≤ a) : readInMem a s = .refused .hostBeyondMemory := if_pos ha

theorem readObuf_beyond (ha : s.cfg.capBytes ≤ a) : readObuf a s = .refused .hostBeyondMemory := if_pos ha

theorem readHbuf_beyond (ha : s.cfg.hueCount ≤ a) : readHbuf a s = .refused .hostBeyondMemory := if_pos ha

end Sys2Proof.Machine

namespace Sys2Proof

open Machine

/-- Settles O38: the turn is taken, and the move has the frame of a host read (`hostTurn_read_frame`). -/
theorem hostReadsHaveNoSideEffect : Obligations.HostReadsHaveNoSideEffect := by
  intro s t m rest hm ha h
  rw [step_hostNext ha] at h
  exact hostTurn_read_frame hm h

/-- Settles O41: each forbidden move, by the refusal of its own access. -/
theorem forbiddenHostMovesAreRefused : Obligations.ForbiddenHostMovesAreRefused := by
  intro s rest
  refine ⟨fun w ha hp => ?_, fun a v ha hp => ?_, fun a v ha hp hcap => ?_, fun a ha hcap => ?_,
    fun a ha hcap => ?_, fun a ha hcap => ?_⟩ <;> rw [step_hostNext ha]
  · exact writeReg_inLen_busy (s := { s with agenda := rest }) hp w
  · exact writeInMem_busy (s := { s with agenda := rest }) hp a v
  · exact writeInMem_beyond (s := { s with agenda := rest }) hp hcap v
  · exact readInMem_beyond hcap
  · exact readObuf_beyond hcap
  · exact readHbuf_beyond hcap

end Sys2Proof
end

section
/-! The encoder met by the decoder: the bytes of a well-formed command decode to it (R70 to R76), its size is the
table's (R77), and with enough bytes behind it every command byte decodes to the row the opcode map gives it
(R78). The case split is that of the header byte: END, a nested Long, or the header of a data command. -/

namespace Sys2Proof

open Machine

/-! ### Decode of encode -/

theorem wellFormed_lit {len : BitVec 5} {data : List Byte} :
    (Instr.lit len data).wellFormed = true ↔ data.length = shortLen len := beq_iff_eq

theorem wellFormed_litL {len : BitVec 10} {data : List Byte} :
    (Instr.litL len data).wellFormed = true ↔ data.length = longLen len := beq_iff_eq

/-- The bytes of a well-formed command decode to it, whatever follows them: the header selects the operands' reader,
and that reader takes back the operands the encoder wrote. -/
theorem decode_encode {i : Instr} (h : i.wellFormed = true) (rest : List Byte) :
    decode (encode i ++ rest) = .ok i rest := by
  have short : ∀ {c : BitVec 3} (len : BitVec 5) (ops : List Byte), c ≠ 7#3 →
      decode (shortByte c len :: ops ++ rest) = decodeShort c len (ops ++ rest) :=
    fun len ops hc => decode_shortByte hc len (ops ++ rest)
  have long : ∀ {c : BitVec 3} (len : BitVec 10) (ops : List Byte), c ≠ 7#3 →
      decode (longBytes c len ++ ops ++ rest) = decodeLong c len (ops ++ rest) :=
    fun len ops hc => by rw [List.append_assoc, decode_longBytes hc]
  cases i with
  | lit len data =>
    have hdata := literalOperands_append 1 (.lit len) data rest
    rw [wellFormed_lit.1 h] at hdata
    exact (short len data (by decide)).trans hdata
  | litL len data =>
    have hdata := literalOperands_append 2 (.litL len) data rest
    rw [wellFormed_litL.1 h] at hdata
    exact (long len data (by decide)).trans hdata
  | iter len v => exact short len [v] (by decide)
  | alt len b0 b1 => exact short len [b0, b1] (by decide)
  | blank len => exact short len [] (by decide)
  | iterL len v => exact long len [v] (by decide)
  | altL len b0 b1 => exact long len [b0, b1] (by decide)
  | blankL len => exact decode_longBytes (by decide) len rest
  | rpt len d | flip len d | rev len d =>
    exact (short len (dispBytes d) (by decide)).trans (dispOperand_dispBytes ..)
  | rptL len d | flipL len d | revL len d =>
    exact (long len (dispBytes d) (by decide)).trans (dispOperand_dispBytes ..)
  | endStream | illegalFC | illegalFD | illegalFE => rfl

/-- A well-formed command is as long as the table of R77 says. -/
theorem encode_length {i : Instr} (h : i.wellFormed = true) : (encode i).length = tableSize i := by
  cases i with
  | lit len data => rw [encode, List.length_cons, wellFormed_lit.1 h, tableSize, Nat.add_comm]
  | litL len data => rw [encode, List.length_append, wellFormed_litL.1 h]; rfl
  | rpt _ d | flip _ d | rev _ d | rptL _ d | flipL _ d | revL _ d => cases d <;> rfl
  | iter | alt | blank | iterL | altL | blankL | endStream | illegalFC | illegalFD | illegalFE => rfl

/-! ### Operands, with enough bytes behind the header -/

theorem literalOperands_enough {n : Nat} {bs : List Byte} (h : n ≤ bs.length) (header : Nat)
    (mk : List Byte → Instr) :
    ∃ data after, literalOperands header n mk bs = .ok (mk data) after :=
  ⟨bs.take n, bs.drop n, by rw [literalOperands, takeData_isSome h]⟩

theorem oneOperand_enough {bs : List Byte} (h : 1 ≤ bs.length) (header n : Nat) (mk : Byte → Instr) :
    ∃ v after, oneOperand header n mk bs = .ok (mk v) after := by
  match bs with
  | [] => simp at h
  | v :: after => exact ⟨v, after, rfl⟩

theorem twoOperands_enough {bs : List Byte} (h : 2 ≤ bs.length) (header n : Nat) (mk : Byte → Byte → Instr) :
    ∃ b0 b1 after, twoOperands header n mk bs = .ok (mk b0 b1) after := by
  match bs with
  | [] | [_] => simp at h
  | b0 :: b1 :: after => exact ⟨b0, b1, after, rfl⟩

theorem dispOperand_enough {bs : List Byte} (h : 2 ≤ bs.length) (header n : Nat) (mk : Disp → Instr) :
    ∃ d after, dispOperand header n mk bs = .ok (mk d) after := by
  rcases dispOperand_cases header n mk bs with ⟨d, after, -, e⟩ | ⟨hlt, -⟩
  · exact ⟨d, after, e⟩
  · omega

/-! ### The rows of the opcode map (R78) -/

/-- The short-form mnemonic of a data command's code; the long form's is this with `.L` behind it. -/
def codeMnemonic (c : BitVec 3) : String :=
  match c.toNat with
  | 0 => "LIT"
  | 1 => "ITER"
  | 2 => "ALT"
  | 3 => "BLANK"
  | 4 => "REPEAT"
  | 5 => "FLIP"
  | _ => "REV"

/-- With enough bytes for the longest operands, a short header's operands are read. -/
theorem decodeShort_enough {c : BitVec 3} (hc : c ≠ 7#3) {len : BitVec 5} {bs : List Byte}
    (h : 32 ≤ bs.length) :
    ∃ i after, decodeShort c len bs = .ok i after ∧ i.mnemonic = codeMnemonic c
      ∧ dataForm i = some (1, shortLen len) := by
  have hlen := shortLen_le len
  rcases dataCode_cases hc with rfl | rfl | rfl | rfl | rfl | rfl | rfl
  · obtain ⟨data, after, e⟩ := literalOperands_enough (hlen.trans h) 1 (.lit len)
    exact ⟨_, after, e, rfl, rfl⟩
  · obtain ⟨v, after, e⟩ := oneOperand_enough (by omega : 1 ≤ bs.length) 1 (shortLen len) (.iter len)
    exact ⟨_, after, e, rfl, rfl⟩
  · obtain ⟨b0, b1, after, e⟩ := twoOperands_enough (by omega : 2 ≤ bs.length) 1 (shortLen len) (.alt len)
    exact ⟨_, after, e, rfl, rfl⟩
  · exact ⟨.blank len, bs, rfl, rfl, rfl⟩
  all_goals
    obtain ⟨d, after, e⟩ := dispOperand_enough (by omega : 2 ≤ bs.length) 1 (shortLen len) _
    exact ⟨_, after, e, rfl, rfl⟩

/-- With enough bytes for the longest operands, a long header's operands are read. -/
theorem decodeLong_enough {c : BitVec 3} (hc : c ≠ 7#3) {len : BitVec 10} {bs : List Byte}
    (h : 1024 ≤ bs.length) :
    ∃ i after, decodeLong c len bs = .ok i after ∧ i.mnemonic = codeMnemonic c ++ ".L"
      ∧ dataForm i = some (2, longLen len) := by
  have hlen := longLen_le len
  rcases dataCode_cases hc with rfl | rfl | rfl | rfl | rfl | rfl | rfl
  · obtain ⟨data, after, e⟩ := literalOperands_enough (hlen.trans h) 2 (.litL len)
    exact ⟨_, after, e, rfl, rfl⟩
  · obtain ⟨v, after, e⟩ := oneOperand_enough (by omega : 1 ≤ bs.length) 2 (longLen len) (.iterL len)
    exact ⟨_, after, e, rfl, rfl⟩
  · obtain ⟨b0, b1, after, e⟩ := twoOperands_enough (by omega : 2 ≤ bs.length) 2 (longLen len) (.altL len)
    exact ⟨_, after, e, rfl, rfl⟩
  · exact ⟨.blankL len, bs, rfl, rfl, rfl⟩
  all_goals
    obtain ⟨d, after, e⟩ := dispOperand_enough (by omega : 2 ≤ bs.length) 2 (longLen len) _
    exact ⟨_, after, e, rfl, rfl⟩

/-- What a command byte is: END, a nested Long, or the first header byte of a data command (R78). -/
theorem commandByte_cases (b : Byte) :
    b = 0xFF#8 ∨ (b = 0xFC#8 ∨ b = 0xFD#8 ∨ b = 0xFE#8) ∨
      (∃ c len, c ≠ 7#3 ∧ b = shortByte c len) ∨ ∃ c hi, c ≠ 7#3 ∧ b = longByte c hi := by
  by_cases hc : codeField b = 7#3
  · by_cases hl : longCodeField b = 7#3
    · have : b = 0xFF#8 ∨ b = 0xFC#8 ∨ b = 0xFD#8 ∨ b = 0xFE#8 := by revert b; decide
      exact this.imp_right .inl
    · exact .inr (.inr (.inr ⟨_, _, hl, (longByte_fields hc).symm⟩))
  · exact .inr (.inr (.inl ⟨_, _, hc, (shortByte_fields b).symm⟩))

theorem mapMnemonic_shortByte {c : BitVec 3} (hc : c ≠ 7#3) (len : BitVec 5) :
    mapMnemonic (shortByte c len).toNat = codeMnemonic c := by
  revert c len; decide

theorem mapMnemonic_longByte {c : BitVec 3} (hc : c ≠ 7#3) (hi : BitVec 2) :
    mapMnemonic (longByte c hi).toNat = codeMnemonic c ++ ".L" := by
  revert c hi; decide

/-- The map gives a short command byte the length of R73, whatever byte comes next. -/
theorem mapLength_shortByte {c : BitVec 3} (hc : c ≠ 7#3) (len : BitVec 5) (next : Nat) :
    mapLength (shortByte c len).toNat next = some (shortLen len) := by
  have hb : (shortByte c len).toNat ≤ 0xDF ∧ (shortByte c len).toNat % 32 = len.toNat := by
    revert c len; decide
  rw [mapLength, if_pos hb.1, hb.2, shortLen]

/-- The map gives a long command byte and the byte behind it the length of R74. -/
theorem mapLength_longByte {c : BitVec 3} (hc : c ≠ 7#3) (hi : BitVec 2) (l : Byte) :
    mapLength (longByte c hi).toNat l.toNat = some (longLen (hi ++ l)) := by
  have hb : ¬ (longByte c hi).toNat ≤ 0xDF ∧ (longByte c hi).toNat ≤ 0xFB
      ∧ (longByte c hi).toNat % 4 = hi.toNat := by
    revert c hi; decide
  obtain ⟨hshort, hlong, hmod⟩ := hb
  rw [mapLength, if_neg hshort, if_pos hlong, hmod, longLen, long_len_toNat]

/-- The opcode map: with enough bytes behind it, every command byte decodes to the row and the length of R78. -/
theorem decode_commandByte (b next : Byte) {rest : List Byte} (h : 1024 ≤ rest.length) :
    ∃ i after, decode (b :: next :: rest) = .ok i after ∧ i.mnemonic = mapMnemonic b.toNat
      ∧ (dataForm i).map Prod.snd = mapLength b.toNat next.toNat := by
  rcases commandByte_cases b with rfl | (rfl | rfl | rfl) | ⟨c, len, hc, rfl⟩ | ⟨c, hi, hc, rfl⟩
  · exact ⟨.endStream, _, rfl, rfl, rfl⟩
  · exact ⟨.illegalFC, _, rfl, rfl, rfl⟩
  · exact ⟨.illegalFD, _, rfl, rfl, rfl⟩
  · exact ⟨.illegalFE, _, rfl, rfl, rfl⟩
  · obtain ⟨i, after, e, hm, hf⟩ := decodeShort_enough hc (len := len) (bs := next :: rest)
      (by rw [List.length_cons]; omega)
    exact ⟨i, after, by rw [decode_shortByte hc, e], by rw [hm, mapMnemonic_shortByte hc],
      by rw [hf, mapLength_shortByte hc]; rfl⟩
  · obtain ⟨i, after, e, hm, hf⟩ := decodeLong_enough hc (len := hi ++ next) h
    exact ⟨i, after, by rw [decode_longByte hc, e], by rw [hm, mapMnemonic_longByte hc],
      by rw [hf, mapLength_longByte hc]; rfl⟩

/-! ### The long header as R78 computes it -/

theorem longByte_eq_or (c : BitVec 3) (hi : BitVec 2) :
    longByte c hi = BitVec.ofNat 8 (0xE0 ||| (c.toNat <<< 2) ||| hi.toNat) := by
  revert c hi; decide

theorem longBytes_eq_or (c : BitVec 3) (len : BitVec 10) :
    longBytes c len = [BitVec.ofNat 8 (0xE0 ||| (c.toNat <<< 2) ||| ((longLen len - 1) >>> 8)),
      BitVec.ofNat 8 ((longLen len - 1) &&& 0xFF)] := by
  have hlen : longLen len - 1 = len.toNat := Nat.add_sub_cancel ..
  have hhi : (len.extractLsb' 8 2).toNat = len.toNat >>> 8 := by
    rw [BitVec.extractLsb'_toNat, Nat.shiftRight_eq_div_pow]
    omega
  have hlo : len.extractLsb' 0 8 = BitVec.ofNat 8 (len.toNat &&& 0xFF) := by
    apply BitVec.eq_of_toNat_eq
    rw [BitVec.extractLsb'_toNat, BitVec.toNat_ofNat, Nat.and_two_pow_sub_one_eq_mod _ 8, Nat.mod_mod]
    rfl
  rw [longBytes_eq, longByte_eq_or, hhi, hlo, hlen]

/-! ### The illegal bytes (R80) -/

/-- The map calls no other byte ILLEGAL. -/
theorem mapMnemonic_ne_illegal {b : Byte} (hFC : b ≠ 0xFC#8) (hFD : b ≠ 0xFD#8) (hFE : b ≠ 0xFE#8) :
    mapMnemonic b.toNat ≠ "ILLEGAL" := by
  revert b; decide

theorem mnemonic_nestedLongs {i : Instr} (h : i ∈ nestedLongs) : i.mnemonic = "ILLEGAL" := by
  revert i; decide

/-- A nested Long ends the job with BadCommand, one byte fetched (R105). -/
theorem exec_nestedLongs {i : Instr} (h : i ∈ nestedLongs) (s : State) :
    exec i s = .next (lzFail .badCommand (s.fetched 1)) := by
  simp only [nestedLongs, List.mem_cons, List.not_mem_nil, or_false] at h
  rcases h with rfl | rfl | rfl <;> rfl

end Sys2Proof
end

section
/-! Redundant forms (R82). A command whose header is longer, or whose displacement is longer, does what the shorter
one does after the extra bytes are fetched: no operation of a command reads IP. -/

namespace Sys2Proof.Machine

/-- Fetching first and running the command after is the command with a longer header. -/
theorem dataCommand_fetched (k header n : Nat) (body : State → State) (s : State) :
    dataCommand header n body (s.fetched k) = dataCommand (k + header) n body s := by
  simp only [dataCommand, fetched_cfg, fetched_op, fetched_fetched]

variable {s : State} {n k : Nat} {d e : Disp}

/-- Two displacements that yield one offset make one forward copy, up to the bytes the longer one fetches more. -/
theorem forwardCopy_of_backRef_eq (f : Byte → Byte) (header : Nat) (hn : s.op.toNat + n ≤ s.cfg.capBytes)
    (hoff : backRef s.op.toNat d = backRef s.op.toNat e) (hsize : dispSize d = k + dispSize e) :
    forwardCopy f header n d s = forwardCopy f header n e (s.fetched k) := by
  unfold forwardCopy
  rw [dataCommand_fetched, dataCommand_fits hn, dataCommand_fits hn]
  simp only [fetched_op, fetched_fetched, hoff, hsize, Nat.add_assoc, Nat.add_left_comm]

/-- Two displacements that yield one offset make one backward copy, up to the bytes the longer one fetches more. -/
theorem backwardCopy_of_backRef_eq (header : Nat) (hn : s.op.toNat + n ≤ s.cfg.capBytes)
    (hoff : backRef s.op.toNat d = backRef s.op.toNat e) (hsize : dispSize d = k + dispSize e) :
    backwardCopy header n d s = backwardCopy header n e (s.fetched k) := by
  unfold backwardCopy
  rw [dataCommand_fetched, dataCommand_fits hn, dataCommand_fits hn]
  simp only [fetched_op, fetched_fetched, hoff, hsize, Nat.add_assoc, Nat.add_left_comm]

/-- Every short length has a long form. -/
theorem longLen_setWidth (l : BitVec 5) : longLen (l.setWidth 10) = shortLen l := by
  rw [longLen, shortLen, BitVec.toNat_setWidth_of_le (by decide)]

end Sys2Proof.Machine
end

section
/-! The encoding statements, assembled. -/

namespace Sys2Proof

open Machine

/-- Settles O2, by `decode_encode`. -/
theorem decodeOfEncode : Obligations.DecodeOfEncode := fun _ rest h => decode_encode h rest

/-- Settles O3, by `decode_ok`, the decoder's inversion. -/
theorem encodeOfDecode : Obligations.EncodeOfDecode := fun _ _ _ h => decode_ok h

/-- Settles O4: the rows by `decode_commandByte`, the long header by `longBytes_eq_or`. -/
theorem opcodeMapDecodes : Obligations.OpcodeMapDecodes :=
  ⟨fun b next _ h => decode_commandByte b next h, longBytes_eq_or⟩

/-- Settles O6: a byte other than the three decodes to its row of the opcode map, which is not ILLEGAL. -/
theorem onlyNestedLongIsIllegal : Obligations.OnlyNestedLongIsIllegal := by
  refine ⟨fun b rest hb => ?_, fun i s hi => ?_, fun b rest hFC hFD hFE hlen => ?_⟩
  · rcases hb with rfl | rfl | rfl
    · exact ⟨rfl, rfl, .illegalFC, by decide, rfl⟩
    · exact ⟨rfl, rfl, .illegalFD, by decide, rfl⟩
    · exact ⟨rfl, rfl, .illegalFE, by decide, rfl⟩
  · exact ⟨_, exec_nestedLongs hi s, lzFail_failsWith .badCommand 1 s⟩
  · match rest with
    | [] => simp at hlen
    | next :: rest =>
      obtain ⟨i, after, hdecode, hm, -⟩ := decode_commandByte b next (Nat.le_of_succ_le_succ hlen)
      refine ⟨i, after, hdecode, fun hi => mapMnemonic_ne_illegal hFC hFD hFE ?_⟩
      rw [← hm, mnemonic_nestedLongs hi]

/-- Settles O7: a long header is a short one with a Fetch before it (`dataCommand_fetched`), and a copy reads its
displacement only for the offset and the bytes to fetch (`forwardCopy_of_backRef_eq`,
`backwardCopy_of_backRef_eq`). -/
theorem redundantFormsAgree : Obligations.RedundantFormsAgree := by
  refine ⟨fun l => ⟨_, longLen_setWidth l⟩, fun s l L hL => ?_, fun s l L d a hoff hlong hshort => ?_⟩
  · refine ⟨fun data => ?_, fun v => ?_, fun b0 b1 => ?_, ?_, fun d => ?_, fun d => ?_, fun d => ?_⟩
    · simp only [exec, execLitL, execLit, literal, dataCommand_fetched, hL]
    · simp only [exec, execIterL, execIter, iterate, dataCommand_fetched, hL]
    · simp only [exec, execAltL, execAlt, alternate, dataCommand_fetched, hL]
    · simp only [exec, execBlankL, execBlank, blankFill, dataCommand_fetched, hL]
    · simp only [exec, execRptL, execRpt, forwardCopy, dataCommand_fetched, hL]
    · simp only [exec, execFlipL, execFlip, forwardCopy, dataCommand_fetched, hL]
    · simp only [exec, execRevL, execRev, backwardCopy, dataCommand_fetched, hL]
  · exact ⟨congrArg _ (forwardCopy_of_backRef_eq id 1 hshort hoff.symm rfl),
      congrArg _ (forwardCopy_of_backRef_eq bitReverse 1 hshort hoff.symm rfl),
      congrArg _ (backwardCopy_of_backRef_eq 1 hshort hoff.symm rfl),
      congrArg _ (forwardCopy_of_backRef_eq id 2 hlong hoff.symm rfl),
      congrArg _ (forwardCopy_of_backRef_eq bitReverse 2 hlong hoff.symm rfl),
      congrArg _ (backwardCopy_of_backRef_eq 2 hlong hoff.symm rfl)⟩

/-- Settles O1: the decoder run on each of the fourteen byte strings. -/
theorem specCommandBytesDecode : Obligations.SpecCommandBytesDecode := by
  unfold Obligations.SpecCommandBytesDecode
  decide

/-- Settles O5, by `encode_length`. -/
theorem commandSizes : Obligations.CommandSizes := fun _ h => encode_length h

end Sys2Proof
end

section
/-! The LZ step against the spec's pseudocode (R100, R108). The decoder reads the bytes the pseudocode fetches, so the
two are compared Fetch by Fetch (`fetchByte_cases`): first for each kind of operand, then for the header. -/

namespace Sys2Proof.Machine

/-! ### Loops of Emits -/

theorem foldl_range_succ {α : Type} (f : α → Nat → α) (a : α) (n : Nat) :
    (List.range (n + 1)).foldl f a = (List.range n).foldl (fun x k => f x (k + 1)) (f a 0) := by
  rw [List.range_succ_eq_map, List.foldl_cons, List.foldl_map]

theorem emitSame_eq_foldl (v : Byte) (n : Nat) (s : State) :
    emitSame v n s = (List.range n).foldl (fun u _ => u.emit v) s := by
  induction n generalizing s with
  | zero => rfl
  | succ n ih => rw [foldl_range_succ, emitSame, ih]

theorem emitAlternate_eq_foldl (b0 b1 : Byte) (n : Nat) (s : State) :
    emitAlternate b0 b1 n s
      = (List.range n).foldl (fun u k => if k % 2 = 0 then u.emit b0 else u.emit b1) s := by
  induction n generalizing b0 b1 s with
  | zero => rfl
  | succ n ih =>
    rw [foldl_range_succ, emitAlternate, ih]
    congr 1
    funext u k
    rcases Nat.mod_two_eq_zero_or_one k with hk | hk <;> simp [Nat.add_mod, hk]

theorem copyForward_eq_foldl (f : Byte → Byte) (n off : Nat) (s : State) :
    copyForward f n off s
      = (List.range n).foldl (fun u (k : Nat) => u.emit (f (u.obuf.read ((off : Int) + k).toNat))) s := by
  induction n generalizing off s with
  | zero => rfl
  | succ n ih =>
    rw [foldl_range_succ, copyForward, ih]
    congr 1
    funext u k
    rw [Int.natCast_succ, Int.natCast_succ, Int.add_assoc, Int.add_comm 1]

theorem copyBackward_eq_foldl (n off : Nat) (s : State) :
    copyBackward n off s
      = (List.range n).foldl (fun u (k : Nat) => u.emit (u.obuf.read ((off : Int) - k).toNat)) s := by
  induction n generalizing off s with
  | zero => rfl
  | succ n ih =>
    rw [foldl_range_succ, copyBackward, ih]
    congr 1
    funext u k
    rw [show ((off - 1 : Nat) - (k : Int)).toNat = ((off : Int) - (k + 1 : Nat)).toNat by omega]

/-! ### Fetches and the bytes that are left -/

theorem fetched_zero (s : State) : s.fetched 0 = s := by
  simp [State.fetched]

/-- The next `m` bytes of the stream, or as many as are left (R101). -/
def State.ahead (m : Nat) (s : State) : List Byte :=
  (List.range (min m (s.inLen.toNat - s.ip.toNat))).map fun k => s.inMem.read (s.ip.toNat + k)

theorem stream_eq_ahead {s : State} (h : s.inLen.toNat ≤ s.cfg.inCapBytes) :
    s.stream = s.ahead maxCommandBytes := by
  rw [State.stream, State.ahead, Nat.min_eq_left h]

theorem ahead_emit (m : Nat) (v : Byte) (s : State) : (s.emit v).ahead m = s.ahead m := rfl

/-- A Fetch raises UNDERRUN with no byte left, or takes the first of the bytes that are left (R101). -/
theorem fetchByte_cases (s : State) :
    (fetchByte s = .ended (raiseFault .underrun s) ∧ ∀ m, s.ahead m = []) ∨
    ∃ v, fetchByte s = .going v (s.fetched 1) ∧ ∀ m, s.ahead (m + 1) = v :: (s.fetched 1).ahead m := by
  by_cases h : s.inLen.toNat ≤ s.ip.toNat
  · exact .inl ⟨if_pos h, fun m => by simp [State.ahead, Nat.sub_eq_zero_of_le h]⟩
  · refine .inr ⟨_, if_neg h, fun m => ?_⟩
    have hip : (s.fetched 1).ip.toNat = s.ip.toNat + 1 := by
      have := s.inLen.isLt
      rw [fetched_ip, BitVec.toNat_add, BitVec.toNat_ofNat]
      omega
    have hmin : min (m + 1) (s.inLen.toNat - s.ip.toNat)
        = min m (s.inLen.toNat - (s.ip.toNat + 1)) + 1 := by omega
    unfold State.ahead
    rw [hip, hmin, List.range_succ_eq_map, List.map_cons, List.map_map]
    congr 1
    exact List.map_congr_left fun k _ => congrArg s.inMem.read (Nat.add_right_comm s.ip.toNat k 1)

/-- OBUF becomes any value when a job faults, so what stood in it is lost (R208). -/
theorem raiseFault_of_obuf (r : FaultReason) (s : State) (m : Memory 8) :
    raiseFault r { s with obuf := m } = raiseFault r s := rfl

/-- A stream that ends inside a command when every byte of it is fetched and `e` bytes are put out (R208). -/
def State.cutAfter (e : Nat) (s : State) : State :=
  raiseFault .underrun { s with op := s.op + BitVec.ofNat 32 e }

theorem cutAfter_zero (s : State) : s.cutAfter 0 = raiseFault .underrun s := by
  simp [State.cutAfter]

/-- A byte put out before the stream ends only moves OP. -/
theorem cutAfter_emit (e : Nat) (v : Byte) (s : State) : (s.emit v).cutAfter e = s.cutAfter (e + 1) := by
  unfold State.cutAfter
  rw [← add_ofNat_succ]
  exact raiseFault_of_obuf _ { s with op := s.op + 1#32 + BitVec.ofNat 32 e } _

theorem streamEnded_eq_cutAfter (e : Nat) (s : State) :
    streamEnded e s = (s.fetched s.stream.length).cutAfter e := rfl

/-! ### Operands -/

/-- `f` with the value a piece of pseudocode yields, unless that has ended the step. -/
def Flow.run {α : Type} (f : α → State → State) : Flow α → State
  | .going v s => f v s
  | .ended s => s

/-- A Literal's data is there, and `literalLoop` puts it out byte by byte, or the stream ends inside it (R130). -/
theorem literalLoop_cases {n m : Nat} (h : n ≤ m) (s : State) :
    (∃ data rest, takeData n (s.ahead m) = some (data, rest)
      ∧ literalLoop n s = emitAll data (s.fetched data.length)) ∨
    (takeData n (s.ahead m) = none
      ∧ literalLoop n s = (s.fetched (s.ahead m).length).cutAfter (s.ahead m).length) := by
  induction n generalizing m s with
  | zero => exact .inl ⟨[], s.ahead m, rfl, (fetched_zero s).symm⟩
  | succ n ih =>
    obtain ⟨m, rfl⟩ := Nat.exists_eq_add_of_le' (Nat.one_le_of_lt h)
    rcases fetchByte_cases s with ⟨hf, hnil⟩ | ⟨v, hf, hcons⟩
    · refine .inr ⟨by rw [hnil]; rfl, ?_⟩
      rw [literalLoop, hf, hnil, List.length_nil, fetched_zero, cutAfter_zero]
    · rw [literalLoop, hf, hcons]
      have htail := ih (Nat.le_of_succ_le_succ h) ((s.fetched 1).emit v)
      rw [ahead_emit] at htail
      rcases htail with ⟨data, rest, hd, hl⟩ | ⟨hd, hl⟩
      · refine .inl ⟨v :: data, rest, by rw [takeData, hd]; rfl, hl.trans ?_⟩
        rw [List.length_cons, Nat.add_comm, ← fetched_fetched]
        rfl
      · refine .inr ⟨by rw [takeData, hd]; rfl, hl.trans ?_⟩
        rw [List.length_cons, ← cutAfter_emit, Nat.add_comm, ← fetched_fetched]
        rfl

/-- A displacement is there, and `BackRef()` yields its offset, or the stream ends inside it (R76, R151). -/
theorem backRefPseudo_cases (m : Nat) (s : State) :
    (∃ d rest, s.ahead (m + 2) = dispBytes d ++ rest
      ∧ backRefPseudo s = .going (backRef s.op.toNat d) (s.fetched (dispSize d))) ∨
    (backRefPseudo s = .ended (raiseFault .underrun (s.fetched (s.ahead (m + 2)).length))
      ∧ ∀ header n mk, dispOperand header n mk (s.ahead (m + 2)) = .noOperandByte header n 0) := by
  rcases fetchByte_cases s with ⟨hf, hnil⟩ | ⟨d, hf, hcons⟩
  · refine .inr ⟨?_, fun _ _ _ => by rw [hnil]; rfl⟩
    rw [backRefPseudo, hf, hnil, List.length_nil, fetched_zero]
  by_cases hrel : d.getLsbD 7 = true
  · refine .inl ⟨.rel (d.extractLsb' 0 7), _, by rw [hcons, dispBytes, dispByte_rel hrel]; rfl, ?_⟩
    rw [backRefPseudo, hf]
    exact if_pos hrel
  have habs : d.getLsbD 7 = false := by simpa using hrel
  rcases fetchByte_cases (s.fetched 1) with ⟨hf', hnil⟩ | ⟨e, hf', hcons'⟩
  · refine .inr ⟨?_, fun _ _ _ => ?_⟩
    · rw [backRefPseudo, hf, hcons, hnil]
      simp only [habs, hf']
      rfl
    · rw [hcons, hnil]
      simp only [dispOperand, habs]
      rfl
  · refine .inl ⟨.abs (d.extractLsb' 0 7 ++ e), (s.fetched 2).ahead m, ?_, ?_⟩
    · rw [hcons, hcons', fetched_fetched, dispBytes, abs_hi, abs_lo, dispByte_abs habs]; rfl
    · rw [backRefPseudo, hf]
      simp only [habs, hf', fetched_fetched, backRef, abs_toNat habs e]
      simp [dispSize]

/-- `Repeat(n)` and `Flip(n)` once the offset is known, for the write position `p` (R153, R154). -/
def forwardPseudo (f : Byte → Byte) (n p : Nat) (off : Int) (s : State) : State :=
  if ¬ (0 ≤ off ∧ off < (p : Int)) then raiseFault .badRef s
  else (List.range n).foldl (fun u (k : Nat) => u.emit (f (u.obuf.read (off + (k : Int)).toNat))) s

/-- `Reverse(n)` once the offset is known, for the write position `p` (R155). -/
def backwardPseudo (n p : Nat) (off : Int) (s : State) : State :=
  if ¬ (0 ≤ off ∧ off < (p : Int) ∧ 0 ≤ off - ((n : Int) - 1)) then raiseFault .badRef s
  else (List.range n).foldl (fun u (k : Nat) => u.emit (u.obuf.read (off - (k : Int)).toNat)) s

theorem repeatPseudo_eq (n : Nat) (s : State) :
    repeatPseudo n s = (backRefPseudo s).run (forwardPseudo id n s.op.toNat) := by
  unfold repeatPseudo; cases backRefPseudo s <;> rfl

theorem flipPseudo_eq (n : Nat) (s : State) :
    flipPseudo n s = (backRefPseudo s).run (forwardPseudo bitReverse n s.op.toNat) := by
  unfold flipPseudo; cases backRefPseudo s <;> rfl

theorem reversePseudo_eq (n : Nat) (s : State) :
    reversePseudo n s = (backRefPseudo s).run (backwardPseudo n s.op.toNat) := by
  unfold reversePseudo; cases backRefPseudo s <;> rfl

theorem backwardValid_iff {n p : Nat} {off : Int} :
    backwardValid n p off = true ↔ 0 ≤ off ∧ off < p ∧ 0 ≤ off - ((n : Int) - 1) := by
  rw [backwardValid, Bool.and_eq_true, forwardValid_iff, decide_eq_true_iff, and_assoc]

/-- The body of `forwardCopy` is the pseudocode's, in its test and in its loop. -/
theorem forwardPseudo_eq (f : Byte → Byte) (n p : Nat) (off : Int) (s : State) :
    (if forwardValid p off then copyForward f n off.toNat s else raiseFault .badRef s)
      = forwardPseudo f n p off s := by
  unfold forwardPseudo
  by_cases hv : 0 ≤ off ∧ off < p
  · rw [if_pos (forwardValid_iff.2 hv), if_neg (not_not.2 hv), copyForward_eq_foldl, Int.toNat_of_nonneg hv.1]
  · rw [if_neg (mt forwardValid_iff.1 hv), if_pos hv]

/-- The body of `backwardCopy` is the pseudocode's. -/
theorem backwardPseudo_eq (n p : Nat) (off : Int) (s : State) :
    (if backwardValid n p off then copyBackward n off.toNat s else raiseFault .badRef s)
      = backwardPseudo n p off s := by
  unfold backwardPseudo
  by_cases hv : 0 ≤ off ∧ off < p ∧ 0 ≤ off - ((n : Int) - 1)
  · rw [if_pos (backwardValid_iff.2 hv), if_neg (not_not.2 hv), copyBackward_eq_foldl, Int.toNat_of_nonneg hv.1]
  · rw [if_neg (mt backwardValid_iff.1 hv), if_pos hv]

/-! ### A data command behind its header -/

/-- What the LZ step does with what the stream decodes to. -/
def runDecoded (s : State) : Decoded → Host.Outcome State Fault Refusal
  | .ok i _ => exec i s
  | .noCommandByte => underrun 0 s
  | .noLengthByte => underrun 0 s
  | .noOperandByte header n emitted =>
    if s.cfg.capBytes < s.op.toNat + n then .next (lzFail .tooLarge (s.fetched header))
    else underrun emitted s

theorem lzStep_eq_runDecoded (s : State) : lzStep s = runDecoded s (decode s.stream) := by
  unfold lzStep
  cases decode s.stream <;> rfl

/-- `Follows s header n result d`: a data command of length `n` behind a header of `header` bytes decodes to `d`, and
`d` ends in `result` where the command fits the capacity. -/
inductive Follows (s : State) (header n : Nat) (result : State) : Decoded → Prop where
  /-- The stream holds all the operands. -/
  | whole {i : Instr} {rest : List Byte} {body : State → State}
    (hexec : exec i s = .next (dataCommand header n body s)) (hbody : body (s.fetched header) = result) :
    Follows s header n result (.ok i rest)
  /-- The stream ends inside the operands. -/
  | cut {e : Nat} (hcut : streamEnded e s = result) : Follows s header n result (.noOperandByte header n e)

/-- The capacity check comes first on both sides (R106, R108). -/
theorem Follows.run {s result : State} {header n : Nat} {d : Decoded} (h : Follows s header n result d)
    (hcap : s.inLen.toNat ≤ s.cfg.inCapBytes) :
    runDecoded s d = .next (if s.op.toNat + n > s.cfg.capBytes then lzFail .tooLarge (s.fetched header)
      else result) := by
  cases h with
  | whole hexec hbody => rw [runDecoded, hexec, ← hbody]; rfl
  | cut hcut => rw [runDecoded, underrun, if_pos hcap, hcut]; exact (apply_ite ..).symm

theorem Follows.blank {s : State} {header n : Nat} {i : Instr} {rest : List Byte}
    (hexec : exec i s = .next (blankFill header n s)) :
    Follows s header n (blankPseudo n (s.fetched header)) (.ok i rest) :=
  .whole hexec (emitSame_eq_foldl ..)

section
variable {s : State} {header n m : Nat}
  (hlen : s.stream.length = header + ((s.fetched header).ahead (m + 2)).length)
include hlen

/-- Where the stream ends inside the operands, IP ends behind its last byte. -/
theorem streamEnded_in_operands (e : Nat) :
    streamEnded e s = ((s.fetched header).fetched ((s.fetched header).ahead (m + 2)).length).cutAfter e := by
  rw [streamEnded_eq_cutAfter, hlen, fetched_fetched]

/-- Before its first Emit a command has left OP alone. -/
theorem streamEnded_before_emit {bs : List Byte} (hbs : (s.fetched header).ahead (m + 2) = bs) :
    streamEnded 0 s = raiseFault .underrun ((s.fetched header).fetched bs.length) := by
  rw [streamEnded_in_operands hlen, hbs, cutAfter_zero]

theorem streamEnded_no_operand (hnil : (s.fetched header).ahead (m + 2) = []) :
    streamEnded 0 s = raiseFault .underrun (s.fetched header) := by
  rw [streamEnded_before_emit hlen hnil, List.length_nil, fetched_zero]

theorem Follows.literal (hm : n ≤ m + 2) {mk : List Byte → Instr}
    (hexec : ∀ data, exec (mk data) s = .next (literal header n data s)) :
    Follows s header n (literalLoop n (s.fetched header))
      (literalOperands header n mk ((s.fetched header).ahead (m + 2))) := by
  unfold literalOperands
  rcases literalLoop_cases hm (s.fetched header) with ⟨data, rest, hd, hl⟩ | ⟨hd, hl⟩ <;> rw [hd, hl]
  · exact .whole (hexec data) rfl
  · exact .cut (streamEnded_in_operands hlen _)

theorem Follows.iterate {mk : Byte → Instr} (hexec : ∀ v, exec (mk v) s = .next (iterate header n v s)) :
    Follows s header n (iteratePseudo n (s.fetched header))
      (oneOperand header n mk ((s.fetched header).ahead (m + 2))) := by
  rw [iteratePseudo]
  rcases fetchByte_cases (s.fetched header) with ⟨hf, hnil⟩ | ⟨v, hf, hcons⟩
  · rw [hf, hnil]
    exact .cut (streamEnded_no_operand hlen (hnil _))
  · rw [hf, hcons]
    exact .whole (hexec v) (emitSame_eq_foldl ..)

theorem Follows.alternate {mk : Byte → Byte → Instr}
    (hexec : ∀ b0 b1, exec (mk b0 b1) s = .next (alternate header n b0 b1 s)) :
    Follows s header n (alternatePseudo n (s.fetched header))
      (twoOperands header n mk ((s.fetched header).ahead (m + 2))) := by
  rw [alternatePseudo]
  rcases fetchByte_cases (s.fetched header) with ⟨hf, hnil⟩ | ⟨b0, hf, hcons⟩
  · rw [hf, hnil]
    exact .cut (streamEnded_no_operand hlen (hnil _))
  rcases fetchByte_cases ((s.fetched header).fetched 1) with ⟨hf', hnil⟩ | ⟨b1, hf', hcons'⟩
  · have hone : (s.fetched header).ahead (m + 2) = [b0] := by rw [hcons (m + 1), hnil]
    have hcut := streamEnded_before_emit hlen hone
    rw [hf, hone]
    simp only [hf']
    exact .cut hcut
  · rw [hf, hcons, hcons']
    simp only [hf', fetched_fetched 1 1]
    exact .whole (hexec b0 b1) (emitAlternate_eq_foldl ..)

/-- A back-reference, given what its command does with the offset. -/
theorem Follows.backRef {mk : Disp → Instr} {body : Disp → State → State} {pseudo : Int → State → State}
    (hexec : ∀ d, exec (mk d) s = .next (dataCommand header n (body d) s))
    (hbody : ∀ d, body d (s.fetched header)
      = pseudo (backRef s.op.toNat d) ((s.fetched header).fetched (dispSize d))) :
    Follows s header n ((backRefPseudo (s.fetched header)).run pseudo)
      (dispOperand header n mk ((s.fetched header).ahead (m + 2))) := by
  rcases backRefPseudo_cases m (s.fetched header) with ⟨d, rest, hd, hb⟩ | ⟨hb, hd⟩
  · rw [hd, hb, dispOperand_dispBytes]
    exact .whole (hexec d) (hbody d)
  · rw [hd, hb]
    exact .cut (streamEnded_before_emit hlen rfl)

theorem Follows.rpt {mk : Disp → Instr}
    (hexec : ∀ d, exec (mk d) s = .next (forwardCopy id header n d s)) :
    Follows s header n (repeatPseudo n (s.fetched header))
      (dispOperand header n mk ((s.fetched header).ahead (m + 2))) := by
  rw [repeatPseudo_eq]
  exact .backRef hlen hexec fun _ => forwardPseudo_eq ..

theorem Follows.flip {mk : Disp → Instr}
    (hexec : ∀ d, exec (mk d) s = .next (forwardCopy bitReverse header n d s)) :
    Follows s header n (flipPseudo n (s.fetched header))
      (dispOperand header n mk ((s.fetched header).ahead (m + 2))) := by
  rw [flipPseudo_eq]
  exact .backRef hlen hexec fun _ => forwardPseudo_eq ..

theorem Follows.rev {mk : Disp → Instr}
    (hexec : ∀ d, exec (mk d) s = .next (backwardCopy header n d s)) :
    Follows s header n (reversePseudo n (s.fetched header))
      (dispOperand header n mk ((s.fetched header).ahead (m + 2))) := by
  rw [reversePseudo_eq]
  exact .backRef hlen hexec fun _ => backwardPseudo_eq ..

end

/-! ### The header -/

section
variable {s t : State} {c : BitVec 3}

theorem lzPseudo_ended (h : fetchByte s = .ended t) : lzPseudo s = t := by
  rw [lzPseudo, h]

theorem lzPseudo_sentinel (h : fetchByte s = .going 0xFF#8 t) : lzPseudo s = endPseudo t := by
  rw [lzPseudo, h]; rfl

theorem lzPseudo_nestedLong {b : Byte} (hb : b = 0xFC#8 ∨ b = 0xFD#8 ∨ b = 0xFE#8) (h : fetchByte s = .going b t) :
    lzPseudo s = lzFail .badCommand t := by
  rcases hb with rfl | rfl | rfl <;> rw [lzPseudo, h] <;> rfl

theorem lzPseudo_shortByte (hc : c ≠ 7#3) {len : BitVec 5} (h : fetchByte s = .going (shortByte c len) t) :
    lzPseudo s = dispatchPseudo c.toNat (shortLen len) t := by
  have hcode : (shortByte c len).extractLsb' 5 3 = c := codeField_shortByte c len
  have hlen : (shortByte c len).extractLsb' 0 5 = len := lenField_shortByte c len
  simp only [lzPseudo, h, shortByte_ne_sentinel len hc, hcode, hlen, hc, if_false]
  rfl

theorem lzPseudo_longByte (hc : c ≠ 7#3) {hi : BitVec 2} (h : fetchByte s = .going (longByte c hi) t) :
    lzPseudo s = (fetchByte t).run fun l u => dispatchPseudo c.toNat (longLen (hi ++ l)) u := by
  have hcode : (longByte c hi).extractLsb' 5 3 = 7#3 := codeField_longByte c hi
  have hlcode : (longByte c hi).extractLsb' 2 3 = c := longCodeField_longByte c hi
  have hlenHi : (longByte c hi).extractLsb' 0 2 = hi := lenHiField_longByte c hi
  simp only [lzPseudo, h, longByte_ne_sentinel hi hc, hcode, hlcode, hlenHi, hc, if_false, if_true, longLen,
    long_len_toNat]
  cases fetchByte t <;> rfl

end

/-! ### The whole step -/

/-- With no turn listed, a step of the LZ phase is an LZ step. -/
theorem step_lz_alone {s : State} (hp : s.phase = .lz) (ha : s.agenda = []) : step s = lzStep s := by
  rw [step_lz hp (.inl ha), State.turnTaken, agenda_tail_nil ha]

section
variable {s : State} (hcap : s.inLen.toNat ≤ s.cfg.inCapBytes)
include hcap

/-- Behind a short header the step runs the command its CODE selects (R100, R107). -/
theorem decodeShort_run {c : BitVec 3} (hc : c ≠ 7#3) (len : BitVec 5)
    (hlen : s.stream.length = 1 + ((s.fetched 1).ahead 1025).length) :
    runDecoded s (decodeShort c len ((s.fetched 1).ahead 1025))
      = .next (dispatchPseudo c.toNat (shortLen len) (s.fetched 1)) := by
  have hm : shortLen len ≤ 1025 := (shortLen_le len).trans (by decide)
  rcases dataCode_cases hc with rfl | rfl | rfl | rfl | rfl | rfl | rfl
  · exact (Follows.literal hlen hm fun _ => rfl).run hcap
  · exact (Follows.iterate hlen fun _ => rfl).run hcap
  · exact (Follows.alternate hlen fun _ _ => rfl).run hcap
  · exact (Follows.blank rfl).run hcap
  · exact (Follows.rpt hlen fun _ => rfl).run hcap
  · exact (Follows.flip hlen fun _ => rfl).run hcap
  · exact (Follows.rev hlen fun _ => rfl).run hcap

/-- Behind a long header the step runs the command its LCODE selects (R103, R107). -/
theorem decodeLong_run {c : BitVec 3} (hc : c ≠ 7#3) (len : BitVec 10)
    (hlen : s.stream.length = 2 + ((s.fetched 2).ahead 1024).length) :
    runDecoded s (decodeLong c len ((s.fetched 2).ahead 1024))
      = .next (dispatchPseudo c.toNat (longLen len) (s.fetched 2)) := by
  rcases dataCode_cases hc with rfl | rfl | rfl | rfl | rfl | rfl | rfl
  · exact (Follows.literal hlen (longLen_le len) fun _ => rfl).run hcap
  · exact (Follows.iterate hlen fun _ => rfl).run hcap
  · exact (Follows.alternate hlen fun _ _ => rfl).run hcap
  · exact (Follows.blank rfl).run hcap
  · exact (Follows.rpt hlen fun _ => rfl).run hcap
  · exact (Follows.flip hlen fun _ => rfl).run hcap
  · exact (Follows.rev hlen fun _ => rfl).run hcap

/-- The stream ends before a header byte (R101, R108). -/
theorem underrun_header {k : Nat} (hlen : s.stream.length = k) :
    underrun 0 s = .next (raiseFault .underrun (s.fetched k)) := by
  rw [underrun, if_pos hcap, streamEnded_eq_cutAfter, cutAfter_zero, hlen]

/-- The LZ step is the spec's `LzStep()`: the header's Fetches, with the pseudocode's tests between them. -/
theorem lzStep_eq_lzPseudo : lzStep s = .next (lzPseudo s) := by
  rw [lzStep_eq_runDecoded]
  have hstream : s.stream = s.ahead (1025 + 1) := stream_eq_ahead hcap
  rcases fetchByte_cases s with ⟨hf, hnil⟩ | ⟨b, hf, hcons⟩
  · rw [hnil] at hstream
    rw [hstream, lzPseudo_ended hf]
    exact (underrun_header hcap (congrArg List.length hstream)).trans (by rw [List.length_nil, fetched_zero])
  rw [hcons 1025] at hstream
  rcases commandByte_cases b with rfl | hb | ⟨c, len, hc, rfl⟩ | ⟨c, hi, hc, rfl⟩
  · rw [hstream, lzPseudo_sentinel hf]
    rfl
  · rw [hstream, lzPseudo_nestedLong hb hf]
    rcases hb with rfl | rfl | rfl <;> rfl
  · rw [hstream, decode_shortByte hc, lzPseudo_shortByte hc hf]
    exact decodeShort_run hcap hc len (by rw [hstream, List.length_cons, Nat.add_comm])
  · rw [lzPseudo_longByte hc hf]
    rcases fetchByte_cases (s.fetched 1) with ⟨hf', hnil⟩ | ⟨l, hf', hcons'⟩
    · rw [hnil] at hstream
      rw [hstream, decode_longByte_nil hc, hf']
      exact underrun_header hcap (congrArg List.length hstream)
    · rw [hcons' 1024, fetched_fetched] at hstream
      rw [hstream, decode_longByte hc, hf', fetched_fetched]
      exact decodeLong_run hcap hc _ (by rw [hstream, List.length_cons, List.length_cons, Nat.add_comm 2])

end

end Sys2Proof.Machine

namespace Sys2Proof

open Machine

/-- Settles O10: with no turn listed a step is the LZ step, and that is the pseudocode (`lzStep_eq_lzPseudo`). -/
theorem lzStepIsThePseudocode : Obligations.LzStepIsThePseudocode := by
  intro s hp ha hcap
  rw [step_lz_alone hp ha]
  exact lzStep_eq_lzPseudo hcap

end Sys2Proof
end

section
/-! The LZ step on a stream that holds a command, and on one that has ended (R100, R101). -/

namespace Sys2Proof.Machine

/-- A well-formed command is at most as long as the longest (R70). -/
theorem encode_length_le {i : Instr} (h : i.wellFormed = true) : (encode i).length ≤ maxCommandBytes := by
  rw [encode_length h]
  cases i with
  | lit len _ => exact (Nat.add_le_add_left (shortLen_le len) 1).trans (by decide)
  | litL len _ => exact Nat.add_le_add_left (longLen_le len) 2
  | rpt _ d | flip _ d | rev _ d | rptL _ d | flipL _ d | revL _ d => cases d <;> exact Nat.le_of_ble_eq_true rfl
  | iter | alt | blank | iterL | altL | blankL | endStream | illegalFC | illegalFD | illegalFE =>
    exact Nat.le_of_ble_eq_true rfl

/-- Bytes that stand in IN_MEM at IP, within the stream, are the front of what is left of it. -/
theorem stream_eq_append {s : State} {bs : List Byte} (hmax : bs.length ≤ maxCommandBytes)
    (hcap : s.inLen.toNat ≤ s.cfg.inCapBytes) (hin : s.ip.toNat + bs.length ≤ s.inLen.toNat)
    (hbytes : ∀ k (h : k < bs.length), s.inMem.read (s.ip.toNat + k) = bs[k]) :
    ∃ rest, s.stream = bs ++ rest := by
  have hlen : bs.length ≤ s.stream.length := by rw [stream_length]; omega
  have hpre : s.stream.take bs.length = bs := by
    refine List.ext_getElem (by simpa using hlen) fun k _ hk => ?_
    rw [List.getElem_take, stream_getElem, hbytes k hk]
  exact ⟨_, (List.take_append_drop bs.length s.stream).symm.trans (congrArg (· ++ _) hpre)⟩

end Sys2Proof.Machine

namespace Sys2Proof

open Machine

/-- Settles O8, by `lzStep_ok`. -/
theorem stepRunsDecodedCommand : Obligations.StepRunsDecodedCommand := by
  intro s i rest hp he hd
  rw [step_lz hp he]
  exact lzStep_ok (s := s.turnTaken) hd

/-- Settles O9: the command's bytes are the front of the stream, and decode to it whatever follows. -/
theorem commandAtInputPointerRuns : Obligations.CommandAtInputPointerRuns := by
  intro s i hp he hw hcap hin hbytes
  obtain ⟨rest, hstream⟩ := stream_eq_append (encode_length_le hw) hcap hin hbytes
  exact stepRunsDecodedCommand s i rest hp he (by rw [hstream, decode_encode hw])

/-- Settles O11: the first Fetch of the pseudocode raises UNDERRUN. -/
theorem emptyStreamUnderruns : Obligations.EmptyStreamUnderruns := by
  intro s hp ha hcap hend
  have hfetch : fetchByte s = .ended (raiseFault .underrun s) := if_pos hend
  refine ⟨raiseFault .underrun s, ?_, ?_⟩
  · rw [lzStepIsThePseudocode s hp ha hcap, lzPseudo_ended hfetch]
  · have hfails := raiseFault_failsWith .underrun 0 s
    rwa [fetched_zero] at hfails

end Sys2Proof
end

section
/-! The capacity check (R106), the end of the stream (R104), and the engine's progress (R109, R182, R208). -/

namespace Sys2Proof.Machine

variable {s t : State} {i : Instr}

@[simp] theorem enterPlane_op (src : PlaneSource) (len : Nat) (s : State) :
    (enterPlane src len s).op = s.op := by rw [enterPlane_frame]; rfl
@[simp] theorem enterPlane_cfg (src : PlaneSource) (len : Nat) (s : State) :
    (enterPlane src len s).cfg = s.cfg := by rw [enterPlane_frame]; rfl

/-! ### The capacity check -/

/-- Over the capacity a data command ends with TooLarge, its header alone fetched (R106). -/
theorem exec_over {header n : Nat} (hd : dataForm i = some (header, n)) (hc : s.cfg.capBytes < s.op.toNat + n) :
    exec i s = .next (lzFail .tooLarge (s.fetched header)) := by
  obtain ⟨body, hb⟩ := exec_dataForm (s := s) hd
  rw [hb, dataCommand_over hc]

/-- So it does where the stream lacks its operands (R108). -/
theorem lzStep_over {header n emitted : Nat} (hd : decode s.stream = .noOperandByte header n emitted)
    (hc : s.cfg.capBytes < s.op.toNat + n) : lzStep s = .next (lzFail .tooLarge (s.fetched header)) := by
  rw [lzStep_eq_runDecoded, hd]
  exact if_pos hc

/-- A data command that fits leaves STATUS alone, or faults with BADREF. -/
theorem exec_fits_outcome {header n : Nat} (hd : dataForm i = some (header, n))
    (hn : s.op.toNat + n ≤ s.cfg.capBytes) :
    ∃ t, exec i s = .next t ∧ (t.outcome = s.outcome ∨ t.outcome = .fault) := by
  rcases exec_data_cases (s := s) hd with ⟨hc, -⟩ | ⟨-, ⟨k, t, m, he, -, h⟩ | h⟩
  · omega
  · exact ⟨t, h, .inl (by rw [he.frame]; rfl)⟩
  · exact ⟨_, h, .inr rfl⟩

/-- Every command keeps OP within the capacity (R30, R106). -/
theorem exec_op_le (hcfg : s.cfg.wf) (hw : i.wellFormed = true) (hop : s.op.toNat ≤ s.cfg.capBytes)
    (h : exec i s = .next t) : t.op.toNat ≤ t.cfg.capBytes := by
  obtain ⟨u, hu, hcases⟩ := exec_cases i s
  obtain rfl : u = t := Host.Outcome.next.inj (hu.symm.trans h)
  rcases hcases with ⟨k, m, he, -, hm⟩ | ⟨k, c, r, ⟨hf, -⟩, -⟩ | ⟨-, rfl⟩
  · have hm := hm hw
    rw [he.frame]
    exact (op_add (op_lt_of_fits hcfg hm)).trans_le hm
  · rw [hf]
    exact hop
  · rw [enterPlane_op, enterPlane_cfg]
    exact hop

/-! ### Progress -/

/-- In a state of a running job every tile's bytes and hues exist ("Every read is in range", R182). -/
theorem planeStep_of_inv (h : s.Inv) (hp : s.phase = .plane) :
    planeStep s = .next (afterTile (tileDecoded s)) := by
  obtain ⟨-, -, -, hlt, hcap, hin⟩ := (jobInv_plane hp).1 h.job
  have hsize := planeInput_le_size h
  exact if_pos ⟨by omega, by unfold Config.hueCount; omega⟩

/-- From a state that meets the invariant the engine's turn is a next state, in every phase. -/
theorem engineTurn_of_inv (h : s.Inv) : ∃ t, engineTurn s = .next t := by
  cases hp : s.phase with
  | idle => exact ⟨s, engineTurn_idle hp⟩
  | lz =>
    obtain ⟨-, -, -, hcap, -⟩ := (jobInv_lz hp).1 h.job
    exact ⟨_, (engineTurn_lz hp).trans (lzStep_eq_lzPseudo hcap)⟩
  | plane => exact ⟨_, (engineTurn_plane hp).trans (planeStep_of_inv h hp)⟩

end Sys2Proof.Machine

namespace Sys2Proof

open Machine

/-- Settles O12: the two sides of the capacity check, and OP after each way a command can end. -/
theorem capacityCheckComesFirst : Obligations.CapacityCheckComesFirst := by
  refine ⟨fun s i header n hd hc => ?_, fun s header n emitted hp ha hd hc => ?_,
    fun s i header n hd hn hne => ?_, fun s t i hcfg hw hop h => exec_op_le hcfg hw hop h⟩
  · exact ⟨_, exec_over hd hc, lzFail_failsWith .tooLarge header s⟩
  · refine ⟨_, ?_, lzFail_failsWith .tooLarge header s⟩
    rw [step_lz_alone hp ha]
    exact lzStep_over hd hc
  · obtain ⟨t, h, ho | ho⟩ := exec_fits_outcome hd hn
    · exact ⟨t, h, ho ▸ hne⟩
    · exact ⟨t, h, by simp [ho]⟩

/-- Settles O13: OP passes the capacity test of `EnterPlane`, and the two other cases are those of the statement. -/
theorem endEntersPlaneStage : Obligations.EndEntersPlaneStage := by
  intro s hcfg hop
  refine ⟨_, rfl, enterPlane_frame .obuf s.op.toNat { s.fetched 1 with outLen := s.op }, ?_⟩
  unfold Config.capBytes at hop
  rcases enterPlane_cases .obuf s.op.toNat { s.fetched 1 with outLen := s.op } with
    ⟨hover, -⟩ | ⟨h0, e⟩ | ⟨hpos, -, e⟩
  · change s.cfg.capacityTiles < s.op.toNat / 16 at hover
    omega
  · rw [e]
    exact ⟨fun _ => ⟨rfl, rfl, rfl, rfl, rfl, rfl⟩, fun hpos => by omega⟩
  · have hptc : (BitVec.ofNat 32 (s.op.toNat / 16)).toNat = s.op.toNat / 16 := by
      have := s.op.isLt
      rw [BitVec.toNat_ofNat]
      omega
    rw [e]
    exact ⟨fun h0 => by omega, fun _ => ⟨rfl, rfl, rfl, rfl, hptc, rfl⟩⟩

/-- Settles O46: the engine's turn is a next state (`engineTurn_of_inv`), and no host move is a fault. -/
theorem engineNeverStops : Obligations.EngineNeverStops := by
  intro s h
  have engine : s.engineNext → ∃ t, step s = .next t := fun he => by
    rw [step_engineNext he]
    exact engineTurn_of_inv (h.withAgenda _)
  refine ⟨fun r hr => ?_, engine⟩
  rcases engineNext_or_host s with he | ⟨m, rest, ha⟩
  · obtain ⟨t, ht⟩ := engine he
    rw [ht] at hr
    cases hr
  · exact hostTurn_no_fault m _ r ((step_hostNext ha).symm.trans hr)

end Sys2Proof
end

section
/-! The fill commands (R130 to R133). Where one completes, its `…_writesRun` law says with what; where the stream lacks its
operand bytes, it ends in UNDERRUN (R101), and this section proves that for a data command of any kind. -/

namespace Sys2Proof

open Machine

/-! ### Operands the stream lacks -/

theorem literalOperands_cut {n : Nat} {bs : List Byte} (h : bs.length < n) (header : Nat)
    (mk : List Byte → Instr) : literalOperands header n mk bs = .noOperandByte header n bs.length := by
  rw [literalOperands, takeData_none h]

theorem twoOperands_cut {bs : List Byte} (h : bs.length < 2) (header n : Nat) (mk : Byte → Byte → Instr) :
    twoOperands header n mk bs = .noOperandByte header n 0 := by
  match bs with
  | [] | [_] => rfl
  | _ :: _ :: _ => simp at h

namespace Machine

section
variable {s : State} {n header emitted : Nat} {bs rest : List Byte}

/-- A command that fits, but has not all its operand bytes before IN_LEN, ends in UNDERRUN (R101, R108). -/
theorem underruns_of_noOperandByte (h : s.atCommand bs n rest)
    (hd : decode (bs ++ rest) = .noOperandByte header n emitted) : s.underruns := by
  obtain ⟨hp, he, hcap, hfit, hstream⟩ := h
  have hstep : step s = .next (streamEnded emitted s.turnTaken) := by
    have hd' : decode s.turnTaken.stream = .noOperandByte header n emitted := hstream ▸ hd
    rw [step_lz hp he, lzStep_eq_runDecoded, hd']
    exact (if_neg (Nat.not_lt.2 hfit)).trans (if_pos hcap)
  exact ⟨_, hstep, ⟨rfl, rfl⟩, rfl⟩

/-- A short-form command, by the decoding of its operands. -/
theorem underruns_of_short {c : BitVec 3} (hc : c ≠ 7#3) {len : BitVec 5}
    (h : s.atCommand [shortByte c len] n rest) (hd : decodeShort c len rest = .noOperandByte header n emitted) :
    s.underruns :=
  underruns_of_noOperandByte h ((decode_shortByte hc len rest).trans hd)

/-- A long-form command, by the decoding of its operands. -/
theorem underruns_of_long {c : BitVec 3} (hc : c ≠ 7#3) {len : BitVec 10}
    (h : s.atCommand (longBytes c len) n rest) (hd : decodeLong c len rest = .noOperandByte header n emitted) :
    s.underruns :=
  underruns_of_noOperandByte h ((decode_longBytes hc len rest).trans hd)

end

end Machine

/-- Settles O14: the encoder's header bytes, `literal_writesRun`, and `literalOperands_cut` for the underrun. -/
theorem literalCopiesItsData : Obligations.LiteralCopiesItsData := by
  refine ⟨fun _ _ => rfl, fun _ _ => rfl, fun s len data hw hl hn => ?_, fun s len data hw hl hn => ?_,
    fun s len rest h hlt => ?_, fun s len rest h hlt => ?_⟩
  · exact ⟨_, rfl, literal_writesRun hw hl hn⟩
  · exact ⟨_, rfl, literal_writesRun hw hl hn⟩
  · exact underruns_of_short (by decide) h (literalOperands_cut hlt 1 (.lit len))
  · exact underruns_of_long (by decide) h (literalOperands_cut hlt 2 (.litL len))

/-- Settles O15: the encoder's header bytes, `iterate_writesRun`, and for the underrun the missing fill byte. -/
theorem iterateRepeatsItsByte : Obligations.IterateRepeatsItsByte := by
  refine ⟨fun _ _ => rfl, fun _ _ => rfl, fun s len v hw hn => ?_, fun s len v hw hn => ?_,
    fun s len h => ?_, fun s len h => ?_⟩
  · exact ⟨_, rfl, iterate_writesRun hw hn⟩
  · exact ⟨_, rfl, iterate_writesRun hw hn⟩
  · exact underruns_of_short (by decide) h (rfl : oneOperand 1 (shortLen len) (.iter len) [] = _)
  · exact underruns_of_long (by decide) h (rfl : oneOperand 2 (longLen len) (.iterL len) [] = _)

/-- Settles O16: the encoder's header bytes, `alternate_writesRun`, and `twoOperands_cut` for the underrun. -/
theorem alternateAlternates : Obligations.AlternateAlternates := by
  refine ⟨fun _ _ _ => rfl, fun _ _ _ => rfl, fun s len b0 b1 hw hn => ?_, fun s len b0 b1 hw hn => ?_,
    fun s len rest h hlt => ?_, fun s len rest h hlt => ?_⟩
  · exact ⟨_, rfl, alternate_writesRun hw hn⟩
  · exact ⟨_, rfl, alternate_writesRun hw hn⟩
  · exact underruns_of_short (by decide) h (twoOperands_cut hlt 1 _ (.alt len))
  · exact underruns_of_long (by decide) h (twoOperands_cut hlt 2 _ (.altL len))

/-- Settles O17: the encoder's header bytes, and `blankFill_writesRun`. -/
theorem blankWritesZeros : Obligations.BlankWritesZeros := by
  refine ⟨fun _ => rfl, fun _ => rfl, fun s len hw hn => ?_, fun s len hw hn => ?_⟩
  · exact ⟨_, rfl, blankFill_writesRun hw hn⟩
  · exact ⟨_, rfl, blankFill_writesRun hw hn⟩

end Sys2Proof
end

section
/-! What operands mean, said once: which bytes are a displacement and what offset it gives (R76, R151), REV bit by bit
(R150), and the hues of a tile's pixels (R182). -/

namespace Sys2Proof

open Machine

/-! ### The displacement operand -/

/-- Bit 7 of a displacement byte says its form (R76). -/
theorem dispByte_bit_iff (d : Byte) : d.getLsbD 7 = true ↔ 0x80 ≤ d.toNat := by revert d; decide

theorem dispByte_bit_of_lt {d : Byte} (h : d.toNat < 0x80) : d.getLsbD 7 = false :=
  Bool.eq_false_iff.2 fun hb => absurd ((dispByte_bit_iff d).1 hb) (Nat.not_le.2 h)

theorem dispOperand_rel {d : Byte} (h : 0x80 ≤ d.toNat) (header n : Nat) (mk : Disp → Instr) (rest : List Byte) :
    dispOperand header n mk (d :: rest) = .ok (mk (.rel (d.extractLsb' 0 7))) rest :=
  if_pos ((dispByte_bit_iff d).2 h)

theorem dispOperand_abs {d : Byte} (h : d.toNat < 0x80) (header n : Nat) (mk : Disp → Instr) (e : Byte)
    (rest : List Byte) :
    dispOperand header n mk (d :: e :: rest) = .ok (mk (.abs (d.extractLsb' 0 7 ++ e))) rest :=
  if_neg (Bool.eq_false_iff.1 (dispByte_bit_of_lt h))

/-- The stream ends before a displacement, or behind the first of the two bytes of an absolute one. -/
theorem dispOperand_cut {rest : List Byte} (h : rest = [] ∨ ∃ d : Byte, rest = [d] ∧ d.toNat < 0x80)
    (header n : Nat) (mk : Disp → Instr) : dispOperand header n mk rest = .noOperandByte header n 0 := by
  rcases h with rfl | ⟨d, rfl, hd⟩
  · rfl
  · exact if_neg (Bool.eq_false_iff.1 (dispByte_bit_of_lt hd))

namespace Machine

/-- The relative offset as R151 computes it: `P - (b & 0x7f) - 1`. -/
theorem backRef_rel (p : Nat) (d : Byte) :
    backRef p (.rel (d.extractLsb' 0 7)) = (p : Int) - (d.toNat % 128 : Nat) - 1 := by
  simp [backRef, BitVec.extractLsb'_toNat]

/-- The absolute offset as R151 computes it: `b * 256 + nextByte`. -/
theorem backRef_abs (p : Nat) {d : Byte} (h : d.toNat < 0x80) (e : Byte) :
    backRef p (.abs (d.extractLsb' 0 7 ++ e)) = (d.toNat * 256 + e.toNat : Nat) :=
  congrArg Nat.cast (abs_toNat (dispByte_bit_of_lt h) e)

/-! ### REV -/

theorem bitReverse_getLsbD (v : Byte) {i : Nat} (hi : i < 8) : (bitReverse v).getLsbD i = v.getLsbD (7 - i) := by
  revert v
  interval_cases i <;> decide

/-- REV is its own inverse: bit i goes to 7 - i and back (R150). -/
theorem bitReverse_involutive : Function.Involutive bitReverse := fun v =>
  BitVec.eq_of_getLsbD_eq fun i hi => by
    rw [bitReverse_getLsbD _ hi, bitReverse_getLsbD _ (by omega), show 7 - (7 - i) = i by omega]

/-! ### Pixels -/

theorem tileHues_getElem? (byte : Nat → Byte) {i j : Nat} (hi : i < 8) (hj : j < 8) :
    (tileHues byte)[8 * j + i]? = some (pixelHue (byte (2 * j)) (byte (2 * j + 1)) i) := by
  have h : 8 * j + i < (tileHues byte).length := by rw [tileHues_length]; omega
  rw [List.getElem?_eq_getElem h, tileHues_getElem byte hi hj h]

/-- A row of bit-reversed bytes is the row mirrored. -/
theorem pixelHue_bitReverse (lo hi : Byte) {i : Nat} (h : i < 8) :
    pixelHue (bitReverse lo) (bitReverse hi) i = pixelHue lo hi (7 - i) := by
  unfold pixelHue
  rw [bitReverse_getLsbD lo (by omega), bitReverse_getLsbD hi (by omega)]

/-- A row with its two bytes exchanged has hues 1 and 2 exchanged. -/
theorem pixelHue_swap (lo hi : Byte) (i : Nat) :
    pixelHue hi lo i
      = if pixelHue lo hi i = 1 then 2 else if pixelHue lo hi i = 2 then 1 else pixelHue lo hi i := by
  unfold pixelHue
  cases lo.getLsbD (7 - i) <;> cases hi.getLsbD (7 - i) <;> rfl

end Machine

/-- Settles O22: by the form that the first byte says, its equations for the operand and for the offset. -/
theorem backReferenceOffset : Obligations.BackReferenceOffset := by
  refine ⟨fun p header n mk d rest h => ?_, fun p header n mk d e rest h => ?_⟩
  · refine ⟨_, dispOperand_rel h header n mk rest, backRef_rel p d, ?_⟩
    rw [backRef_rel]
    omega
  · refine ⟨_, dispOperand_abs h header n mk e rest, backRef_abs p h e, ?_⟩
    rw [backRef_abs p h]
    have := e.isLt
    omega

/-- Settles O23: `bitReverse_getLsbD`, the involution it gives, and the eleven values. -/
theorem bitReversal : Obligations.BitReversal :=
  ⟨fun v _ hi => bitReverse_getLsbD v hi, bitReverse_involutive, by decide⟩

/-- Settles O35, pixel by pixel: REV mirrors a row, and the reversed order puts byte `2(7 - j) + 1` of the tile
where the low byte of row j stands and byte `2(7 - j)` where its high byte does. -/
theorem flipMirrorsAndReverseTurnsATile : Obligations.FlipMirrorsAndReverseTurnsATile := by
  intro byte i j hi hj
  constructor
  · rw [tileHues_getElem? _ hi hj, tileHues_getElem? _ (by omega) hj, pixelHue_bitReverse _ _ hi]
  · rw [tileHues_getElem? _ hi hj, tileHues_getElem? _ hi (by omega), Option.map_some,
      show 15 - 2 * j = 2 * (7 - j) + 1 by omega, show 15 - (2 * j + 1) = 2 * (7 - j) by omega, pixelHue_swap]

end Sys2Proof
end

section
/-! The back-reference commands (R150 to R156). Where the reference is valid the `…_writesRun` laws say what one writes,
also where it reads bytes it wrote itself; where it is not, the command ends in BADREF, and that is exactly where
some read would be at an index not yet written (R152). -/

namespace Sys2Proof

open Machine

namespace Machine

/-! ### Validity, read by read (R152) -/

/-- Some read of a Repeat or Flip is not below the write position of its moment iff its first is not. -/
theorem forwardRead_invalid_iff {n p : Nat} {off : Int} (hn : 1 ≤ n) :
    (∃ k : Nat, k < n ∧ ¬ (0 ≤ off + k ∧ off + k < (p : Int) + k)) ↔ ¬ (0 ≤ off ∧ off < p) := by
  refine ⟨fun ⟨k, _, h⟩ => ?_, fun h => ⟨0, hn, ?_⟩⟩ <;> omega

/-- Some read of a Reverse is not valid iff its first or its last is not. -/
theorem backwardRead_invalid_iff {n p : Nat} {off : Int} (hn : 1 ≤ n) :
    (∃ k : Nat, k < n ∧ ¬ (0 ≤ off - k ∧ off - k < (p : Int) + k))
      ↔ ¬ (0 ≤ off ∧ off < p ∧ 0 ≤ off - ((n : Int) - 1)) := by
  refine ⟨fun ⟨k, hk, h⟩ => ?_, fun h => ?_⟩
  · omega
  · by_cases h0 : 0 ≤ off ∧ off < p
    · exact ⟨n - 1, by omega, by omega⟩
    · exact ⟨0, hn, by omega⟩

/-! ### BADREF -/

section
variable {s u : State} {i : Instr} {f : Byte → Byte} {header n : Nat} {disp : Disp}

theorem forwardCopy_failsWith (hn : s.op.toNat + n ≤ s.cfg.capBytes)
    (h : ¬ (0 ≤ backRef s.op.toNat disp ∧ backRef s.op.toNat disp < s.op.toNat)) :
    s.failsWith (forwardCopy f header n disp s) (header + dispSize disp) .fault .badRef :=
  forwardCopy_invalid hn h ▸ raiseFault_failsWith _ _ s

theorem backwardCopy_failsWith (hn : s.op.toNat + n ≤ s.cfg.capBytes)
    (h : ¬ (0 ≤ backRef s.op.toNat disp ∧ backRef s.op.toNat disp < s.op.toNat
      ∧ 0 ≤ backRef s.op.toNat disp - ((n : Int) - 1))) :
    s.failsWith (backwardCopy header n disp s) (header + dispSize disp) .fault .badRef :=
  backwardCopy_invalid hn h ▸ raiseFault_failsWith _ _ s

/-- The command ends the job with FAULT and reason BADREF (R152, R208). -/
def endsInBadRef (i : Instr) (s : State) : Prop :=
  ∃ t, exec i s = .next t ∧ t.faulted ∧ t.faultReason = .badRef

theorem endsInBadRef_of_failsWith (he : exec i s = .next u) {k : Nat} (h : s.failsWith u k .fault .badRef) :
    endsInBadRef i s := by
  obtain ⟨hu, -⟩ := h
  exact ⟨u, he, ⟨congrArg State.phase hu, congrArg State.outcome hu⟩, congrArg State.faultReason hu⟩

/-- A command that fetches and emits leaves FAULT_REASON alone. -/
theorem not_endsInBadRef_of_emits (he : exec i s = .next u) {k m : Nat} (h : Emits (s.fetched k) m u)
    (hr : s.faultReason ≠ .badRef) : ¬ endsInBadRef i s := by
  rintro ⟨t, ht, -, hbad⟩
  obtain rfl : u = t := Host.Outcome.next.inj (he.symm.trans ht)
  exact hr ((congrArg State.faultReason h.frame).symm.trans hbad)

theorem endsInBadRef_forward (he : exec i s = .next (forwardCopy f header n disp s))
    (hr : s.faultReason ≠ .badRef) (h1 : 1 ≤ n) (hn : s.op.toNat + n ≤ s.cfg.capBytes) :
    endsInBadRef i s ↔ ∃ k : Nat, k < n ∧ ¬ (0 ≤ backRef s.op.toNat disp + k
      ∧ backRef s.op.toNat disp + k < (s.op.toNat : Int) + k) := by
  rw [forwardRead_invalid_iff h1]
  by_cases hv : 0 ≤ backRef s.op.toNat disp ∧ backRef s.op.toNat disp < s.op.toNat
  · rw [forwardCopy_valid hn hv.1 hv.2, fetched_fetched] at he
    exact iff_of_false (not_endsInBadRef_of_emits he (emits_copyForward ..) hr) (not_not.2 hv)
  · exact iff_of_true (endsInBadRef_of_failsWith he (forwardCopy_failsWith hn hv)) hv

theorem endsInBadRef_backward (he : exec i s = .next (backwardCopy header n disp s))
    (hr : s.faultReason ≠ .badRef) (h1 : 1 ≤ n) (hn : s.op.toNat + n ≤ s.cfg.capBytes) :
    endsInBadRef i s ↔ ∃ k : Nat, k < n ∧ ¬ (0 ≤ backRef s.op.toNat disp - k
      ∧ backRef s.op.toNat disp - k < (s.op.toNat : Int) + k) := by
  rw [backwardRead_invalid_iff h1]
  by_cases hv : 0 ≤ backRef s.op.toNat disp ∧ backRef s.op.toNat disp < s.op.toNat
      ∧ 0 ≤ backRef s.op.toNat disp - ((n : Int) - 1)
  · rw [backwardCopy_valid h1 hn hv.2.1 hv.2.2, fetched_fetched] at he
    exact iff_of_false (not_endsInBadRef_of_emits he (emits_copyBackward ..) hr) (not_not.2 hv)
  · exact iff_of_true (endsInBadRef_of_failsWith he (backwardCopy_failsWith hn hv)) hv

end

/-! ### Reads of bytes the command wrote itself (R156) -/

section
variable {s t : State} {f : Byte → Byte} {header n off : Nat} {disp : Disp}

/-- A run of writes that reads `d = P - off` bytes back through `f` goes round the last d bytes with period d, through
`f` once more in each round. -/
theorem read_writesRun_overlap {bytes : Nat} (h : s.writesRun t bytes n fun k => f (t.obuf.read (off + k)))
    (hoff : off < s.op.toNat) {k : Nat} (hk : k < n) :
    t.obuf.read (s.op.toNat + k)
      = f^[k / (s.op.toNat - off) + 1] (s.obuf.read (off + k % (s.op.toNat - off))) := by
  obtain ⟨-, -, hin, hout⟩ := h
  generalize hp : s.op.toNat = p at *
  induction k using Nat.strong_induction_on with
  | _ k ih =>
    have hwrite : t.obuf.read (p + k) = f (t.obuf.read (off + k)) := hin k hk
    by_cases hkd : k < p - off
    · rw [hwrite, hout (off + k) (.inl (by omega)), Nat.div_eq_of_lt hkd, Nat.mod_eq_of_lt hkd]
      rfl
    · have hread := ih (k - (p - off)) (by omega) (by omega)
      rw [hwrite, show off + k = p + (k - (p - off)) by omega, hread, ← Function.iterate_succ_apply' f,
        Nat.div_eq_sub_div (by omega) (by omega : p - off ≤ k), Nat.mod_eq_sub_mod (by omega : p - off ≤ k)]

/-- What a forward copy writes, from the bytes that stood before it alone. -/
theorem read_forwardCopy (hw : s.cfg.wf) (hn : s.op.toNat + n ≤ s.cfg.capBytes)
    (hb : backRef s.op.toNat disp = off) (hoff : off < s.op.toNat) {k : Nat} (hk : k < n) :
    (forwardCopy f header n disp s).obuf.read (s.op.toNat + k)
      = f^[k / (s.op.toNat - off) + 1] (s.obuf.read (off + k % (s.op.toNat - off))) := by
  have h := forwardCopy_writesRun (f := f) (header := header) hw hn (by omega : 0 ≤ backRef s.op.toNat disp)
    (by omega)
  rw [hb] at h
  exact read_writesRun_overlap h hoff hk

theorem exec_repeat {i : Instr} (hi : (∃ len, i = .rpt len disp) ∨ ∃ len, i = .rptL len disp)
    (hd : dataForm i = some (header, n)) (s : State) :
    exec i s = .next (forwardCopy id header n disp s) := by
  rcases hi with ⟨len, rfl⟩ | ⟨len, rfl⟩ <;> cases hd <;> rfl

theorem exec_flip {i : Instr} (hi : (∃ len, i = .flip len disp) ∨ ∃ len, i = .flipL len disp)
    (hd : dataForm i = some (header, n)) (s : State) :
    exec i s = .next (forwardCopy bitReverse header n disp s) := by
  rcases hi with ⟨len, rfl⟩ | ⟨len, rfl⟩ <;> cases hd <;> rfl

/-- An odd number of REVs is one, an even number none. -/
theorem bitReverse_iterate_succ (k : Nat) (v : Byte) :
    bitReverse^[k + 1] v = if k % 2 = 0 then bitReverse v else v := by
  split
  · rw [bitReverse_involutive.iterate_odd (Nat.odd_iff.2 (by omega))]
  · rw [bitReverse_involutive.iterate_even (Nat.even_iff.2 (by omega)), id]

end

end Machine

/-- Settles O18: the encoder's header bytes, `forwardCopy_writesRun`, `forwardCopy_failsWith`, and `dispOperand_cut`
for the underrun. -/
theorem repeatCopiesForward : Obligations.RepeatCopiesForward := by
  refine ⟨fun _ _ => rfl, fun _ _ => rfl, fun s len disp hw hn h0 h1 => ?_, fun s len disp hw hn h0 h1 => ?_,
    fun s l L disp hl hL h => ⟨?_, ?_⟩, fun s l L rest hrest => ⟨fun h => ?_, fun h => ?_⟩⟩
  · exact ⟨_, rfl, forwardCopy_writesRun hw hn h0 h1⟩
  · exact ⟨_, rfl, forwardCopy_writesRun hw hn h0 h1⟩
  · exact ⟨_, rfl, forwardCopy_failsWith hl h⟩
  · exact ⟨_, rfl, forwardCopy_failsWith hL h⟩
  · exact underruns_of_short (by decide) h (dispOperand_cut hrest 1 _ (.rpt l))
  · exact underruns_of_long (by decide) h (dispOperand_cut hrest 2 _ (.rptL L))

/-- Settles O19: as Repeat, the forward copy being through `bitReverse`. -/
theorem flipCopiesReversedBits : Obligations.FlipCopiesReversedBits := by
  refine ⟨fun _ _ => rfl, fun _ _ => rfl, fun s len disp hw hn h0 h1 => ?_, fun s len disp hw hn h0 h1 => ?_,
    fun s l L disp hl hL h => ⟨?_, ?_⟩, fun s l L rest hrest => ⟨fun h => ?_, fun h => ?_⟩⟩
  · exact ⟨_, rfl, forwardCopy_writesRun hw hn h0 h1⟩
  · exact ⟨_, rfl, forwardCopy_writesRun hw hn h0 h1⟩
  · exact ⟨_, rfl, forwardCopy_failsWith hl h⟩
  · exact ⟨_, rfl, forwardCopy_failsWith hL h⟩
  · exact underruns_of_short (by decide) h (dispOperand_cut hrest 1 _ (.flip l))
  · exact underruns_of_long (by decide) h (dispOperand_cut hrest 2 _ (.flipL L))

/-- Settles O20: the encoder's header bytes, `backwardCopy_writesRun`, `backwardCopy_failsWith`, and `dispOperand_cut`
for the underrun. -/
theorem reverseCopiesBackward : Obligations.ReverseCopiesBackward := by
  refine ⟨fun _ _ => rfl, fun _ _ => rfl, fun s len disp hw hn h1 h2 => ?_, fun s len disp hw hn h1 h2 => ?_,
    fun s len disp hn h => ?_, fun s len disp hn h => ?_, fun s l L rest hrest => ⟨fun h => ?_, fun h => ?_⟩⟩
  · exact ⟨_, rfl, backwardCopy_writesRun (Nat.le_add_left 1 _) hw hn h1 h2⟩
  · exact ⟨_, rfl, backwardCopy_writesRun (Nat.le_add_left 1 _) hw hn h1 h2⟩
  · exact ⟨_, rfl, backwardCopy_failsWith hn h⟩
  · exact ⟨_, rfl, backwardCopy_failsWith hn h⟩
  · exact underruns_of_short (by decide) h (dispOperand_cut hrest 1 _ (.rev l))
  · exact underruns_of_long (by decide) h (dispOperand_cut hrest 2 _ (.revL L))

/-- Settles O21: each of the six commands is a forward or a backward copy of at least one byte. -/
theorem badRefIffSomeReadInvalid : Obligations.BadRefIffSomeReadInvalid := by
  intro s l L disp hr hl hL
  have hl1 : 1 ≤ shortLen l := Nat.le_add_left 1 _
  have hL1 : 1 ≤ longLen L := Nat.le_add_left 1 _
  refine ⟨fun i hi => ?_, fun i hi => ?_, ?_, ?_⟩
  · rcases List.mem_pair.1 hi with rfl | rfl <;> exact endsInBadRef_forward rfl hr hl1 hl
  · rcases List.mem_pair.1 hi with rfl | rfl <;> exact endsInBadRef_forward rfl hr hL1 hL
  · exact endsInBadRef_backward rfl hr hl1 hl
  · exact endsInBadRef_backward rfl hr hL1 hL

/-- Settles O24, by `read_forwardCopy`: the identity is the same in every round, and the rounds of a 1-back Flip are one
byte long and each put one REV more on it. -/
theorem overlapRepeatsWithPeriod : Obligations.OverlapRepeatsWithPeriod := by
  refine ⟨fun s i n header disp off hw hi hd hn hb hoff => ⟨_, exec_repeat hi hd s, fun k hk => ?_⟩,
    fun s i n header hw hi hd hn hpos => ⟨_, exec_flip hi hd s, fun k hk => ?_⟩⟩
  · rw [read_forwardCopy hw hn hb hoff hk, Function.iterate_id, id]
  · have hb : backRef s.op.toNat (.rel 0) = (s.op.toNat - 1 : Nat) := by simp [backRef]; omega
    rw [read_forwardCopy hw hn hb (by omega) hk, show s.op.toNat - (s.op.toNat - 1) = 1 by omega, Nat.div_one,
      Nat.mod_one, bitReverse_iterate_succ, Nat.add_zero]

end Sys2Proof
end

section
/-! The plane decoder (R180 to R185). One step of it is read off `planeStep_cases`, its entry off `enterPlane_cases`;
the entry followed by the stage is one run (`enterPlane_run`), which the compressed entry begins from END. -/

namespace Sys2Proof.Machine

/-! ### A tile -/

/-- Pixel by pixel, what a tile held in HBUF reads as (R182). -/
theorem holdsTile.read_toNat {hbuf : Memory 2} {byte : Nat → Byte} {n i j : Nat} (h : holdsTile hbuf byte n)
    (hi : i < 8) (hj : j < 8) :
    (hbuf.read (64 * n + 8 * j + i)).toNat
      = 2 * ((byte (16 * n + 2 * j + 1)).getLsbD (7 - i)).toNat
        + ((byte (16 * n + 2 * j)).getLsbD (7 - i)).toNat := by
  rw [h i j hi hj, pixelHue_toNat]

/-- Whether the tile is the last may be asked of the numbers, since TIDX does not wrap below PTC. -/
theorem tidx_succ_eq_ptc_iff {s : State} (h : s.tidx.toNat < s.ptc.toNat) :
    s.tidx + 1 = s.ptc ↔ s.tidx.toNat + 1 = s.ptc.toNat := by
  rw [← BitVec.toNat_inj, tidx_succ h]

/-! ### What the plane stage leaves alone -/

/-- The end of a tile does not write OBUF. -/
theorem afterTile_obuf (s : State) : (afterTile s).obuf = s.obuf := by
  unfold afterTile; split <;> rfl

theorem afterTile_agenda (s : State) : (afterTile s).agenda = s.agenda := by
  unfold afterTile; split <;> rfl

/-- No tile leads back to the LZ stage (R31). -/
theorem afterTile_phase {s : State} (hp : s.phase = .plane) : (afterTile s).phase ≠ .lz := by
  unfold afterTile
  split
  · simp
  · simp [hp]

/-- Outside the LZ stage the engine does not write OBUF, and it does not come back to that stage by itself. -/
theorem step_keeps_obuf {s t : State} (hp : s.phase ≠ .lz) (ha : s.agenda = []) (h : step s = .next t) :
    t.obuf = s.obuf ∧ t.phase ≠ .lz ∧ t.agenda = [] := by
  have htaken : s.turnTaken.agenda = [] := congrArg List.tail ha
  rcases step_engine_cases (.inl ha) h with ⟨-, rfl⟩ | ⟨hlz, -⟩ | ⟨hplane, hstep⟩
  · exact ⟨rfl, hp, htaken⟩
  · exact absurd hlz hp
  · obtain ⟨-, -, rfl⟩ := planeStep_next hstep
    exact ⟨afterTile_obuf _, afterTile_phase (s := tileDecoded s.turnTaken) hplane,
      (afterTile_agenda _).trans htaken⟩

/-- A run of one step more that does not stop has that step. -/
theorem coreRun_succ_next {M : Host.Core} {s t : M.State} {k : Nat} (h : M.run (k + 1) s = .next t) :
    ∃ u, M.step s = .next u ∧ M.run k u = .next t := by
  rw [Host.Core.run] at h
  cases hs : M.step s with
  | next u => exact ⟨u, rfl, by rwa [hs] at h⟩
  | fault r => rw [hs] at h; cases h
  | refused r => rw [hs] at h; cases h

theorem run_keeps_obuf {k : Nat} {s t : State} (h : core.run k s = .next t) (hp : s.phase ≠ .lz)
    (ha : s.agenda = []) : t.obuf = s.obuf := by
  induction k generalizing s with
  | zero => exact congrArg State.obuf (Host.Outcome.next.inj h).symm
  | succ k ih =>
    obtain ⟨u, hstep, hrun⟩ := coreRun_succ_next (M := core) h
    obtain ⟨hobuf, hp', ha'⟩ := step_keeps_obuf hp ha hstep
    rw [ih hrun hp' ha', hobuf]

/-! ### The entry -/

/-- A tile count within the capacity fits PTC (R7, R32). -/
theorem ofNat_toNat_of_le_capacity {c : Config} (hcfg : c.wf) {n : Nat} (hn : n ≤ c.capacityTiles) :
    (BitVec.ofNat 32 n).toNat = n := by
  obtain ⟨-, hbytes, -⟩ := hcfg
  unfold Config.capBytes at hbytes
  rw [BitVec.toNat_ofNat]
  omega

/-- EnterPlane and the stage behind it, within the capacity: one step for each whole tile ends the job with Ok, and
the bytes behind the last whole tile are not decoded (R181 to R183). -/
theorem enterPlane_run {src : PlaneSource} {len : Nat} {s : State} (h : (enterPlane src len s).Inv)
    (ha : s.agenda = []) (hcap : len / 16 ≤ s.cfg.capacityTiles) :
    ∃ t, core.run (len / 16) (enterPlane src len s) = .next t ∧ t.succeeded
      ∧ t.tileCount.toNat = len / 16 ∧ t.outLen = s.outLen ∧ t.obuf = s.obuf
      ∧ ∀ n, n < len / 16 → holdsTile t.hbuf (State.planeByte { s with psrc := src }) n := by
  rcases enterPlane_cases src len s with ⟨hover, -⟩ | ⟨h0, e⟩ | ⟨-, -, e⟩
  · omega
  · rw [h0, e]
    exact ⟨_, run_zero _, ⟨rfl, rfl⟩, rfl, rfl, rfl, fun n hn => absurd hn (Nat.not_lt_zero n)⟩
  · rw [e] at h ⊢
    have hptc := ofNat_toNat_of_le_capacity (c := s.cfg) h.cfgWf hcap
    obtain ⟨t, hrun, hok, hcount, hout, -, htiles⟩ :=
      planeStage_run (len / 16) h rfl ha ((Nat.zero_add _).trans hptc.symm)
    have hobuf := run_keeps_obuf hrun nofun ha
    exact ⟨t, hrun, hok, by rw [hcount]; exact hptc, hout, hobuf,
      fun n hn => htiles n (Nat.zero_le n) (hn.trans_eq hptc.symm)⟩

/-! ### The raw entry -/

/-- Beside the releases a raw START writes STATUS, PHASE, OUT_LEN and the plane registers only (R180, R181). -/
theorem startRaw_frame (s : State) :
    startRaw s = { s with
      outLen := (startRaw s).outLen, tileCount := (startRaw s).tileCount, hbuf := (startRaw s).hbuf
      obuf := (startRaw s).obuf, free := (startRaw s).free, phase := (startRaw s).phase
      outcome := (startRaw s).outcome, faultReason := (startRaw s).faultReason
      psrc := (startRaw s).psrc, ptc := (startRaw s).ptc, tidx := (startRaw s).tidx } := by
  rcases startRaw_cases s with ⟨-, e⟩ | ⟨-, -, e⟩ | ⟨-, -, e⟩ <;> rw [e]
  · rfl
  · rfl
  · rw [enterPlane_frame]; rfl

end Sys2Proof.Machine

namespace Sys2Proof

open Machine

/-- Settles O30, by the three cases of `enterPlane_cases`. -/
theorem enterPlaneReleasesFirst : Obligations.EnterPlaneReleasesFirst := by
  intro src len s hcfg
  refine ⟨_, rfl, enterPlane_frame src len s, ?_⟩
  rcases enterPlane_cases src len s with ⟨hover, e⟩ | ⟨h0, e⟩ | ⟨hpos, hcap, e⟩ <;> rw [e]
  · exact ⟨fun _ => ⟨rfl, rfl, rfl⟩, fun _ => by omega, fun _ _ => by omega⟩
  · exact ⟨fun _ => by omega, fun _ => ⟨rfl, rfl, rfl⟩, fun _ => by omega⟩
  · exact ⟨fun _ => by omega, fun _ => by omega,
      fun _ _ => ⟨rfl, ofNat_toNat_of_le_capacity hcfg hcap, rfl, rfl, rfl, rfl⟩⟩

/-- Settles O29: the invariant rules the fault of `planeStep_cases` out, and its two other ends are those of the
statement. -/
theorem planeStepDecodesOneTile : Obligations.PlaneStepDecodesOneTile := by
  intro s h hp ha
  obtain ⟨-, -, -, hlt, -⟩ := (jobInv_plane hp).1 h.job
  have hstep : step s = planeStep s := (step_plane h hp ha).trans (planeStep_of_inv h hp).symm
  rcases planeStep_cases s with ⟨-, hfault⟩ | ⟨-, -, t, ht, hhbuf, hframe, hend⟩
  · rw [planeStep_of_inv h hp] at hfault
    cases hfault
  · rw [← tileDecoded_hbuf] at hhbuf
    simp only [ne_eq, tidx_succ_eq_ptc_iff hlt] at hend
    refine ⟨t, hstep.trans ht, fun i j hi hj => ?_, fun a ha => ?_, hframe, ?_⟩
    · rw [hhbuf]
      exact (holdsTile_tileDecoded s).read_toNat hi hj
    · rw [hhbuf, tileDecoded_hbuf_other s ha]
    · rcases hend with ⟨hlast, hcount, hphase, hout, hreason⟩ | ⟨hmore, hcount, hphase, hout, hreason⟩
      · exact ⟨fun _ => ⟨hcount, hout, hreason, hphase⟩, fun hmore => absurd hlast hmore⟩
      · exact ⟨fun hlast => absurd hlast hmore, fun _ => ⟨hcount, hout, hreason, hphase.trans hp⟩⟩

/-- Settles O31, by the three cases of `startRaw_cases`; in the third the checks are those of EnterPlane. -/
theorem rawStartChecksInOrder : Obligations.RawStartChecksInOrder := by
  intro s w rest hcfg hp ha hs hm
  refine ⟨_, step_startRaw hp ha hs hm, ?_, ?_⟩
  · have hout : (startRaw (s.begun w rest)).outLen = 0 := by
      rw [State.begun, ← startJob_raw (s := { s with agenda := rest, mode := ctrlMode w }) hm, startJob_outLen]
    have hframe := startRaw_frame (s.begun w rest)
    rw [hout] at hframe
    rw [← hm]
    exact hframe
  · rcases startRaw_cases (s.begun w rest) with
      ⟨(hover : s.cfg.inCapBytes < s.inLen.toNat), e⟩ |
      ⟨(hin : s.inLen.toNat ≤ s.cfg.inCapBytes), (hpart : s.inLen.toNat % 16 ≠ 0), e⟩ |
      ⟨(hin : s.inLen.toNat ≤ s.cfg.inCapBytes), (hwhole : s.inLen.toNat % 16 = 0), e⟩ <;> rw [e]
    · exact ⟨fun _ => ⟨⟨rfl, rfl⟩, rfl, rfl, rfl⟩, fun _ => by omega, fun _ => by omega⟩
    · exact ⟨fun _ => by omega, fun _ _ => ⟨rfl, rfl, rfl, rfl, rfl⟩, fun _ _ => by omega⟩
    · refine ⟨fun _ => by omega, fun _ _ => by omega, fun _ _ => ?_⟩
      rcases enterPlane_cases .inMem (s.begun w rest).inLen.toNat (s.begun w rest) with
        ⟨(hover : s.cfg.capacityTiles < s.inLen.toNat / 16), e⟩ |
        ⟨(h0 : s.inLen.toNat / 16 = 0), e⟩ |
        ⟨(hpos : 0 < s.inLen.toNat / 16), (hcap : s.inLen.toNat / 16 ≤ s.cfg.capacityTiles), e⟩ <;> rw [e]
      · exact ⟨rfl, rfl, rfl, fun _ => ⟨rfl, rfl⟩, fun _ => by omega, fun _ _ => by omega⟩
      · exact ⟨rfl, rfl, rfl, fun _ => by omega, fun _ => ⟨rfl, rfl⟩, fun _ _ => by omega⟩
      · exact ⟨rfl, rfl, rfl, fun _ => by omega, fun _ => by omega,
          fun _ _ => ⟨rfl, rfl, ofNat_toNat_of_le_capacity hcfg hcap, rfl⟩⟩

/-- Settles O32: `planeStage_run` from tile 0. -/
theorem planeStageDecodesEveryTile : Obligations.PlaneStageDecodesEveryTile := by
  intro s h hp ha h0
  obtain ⟨t, hrun, hok, hcount, -, -, htiles⟩ :=
    planeStage_run s.ptc.toNat h hp ha (by rw [h0]; exact Nat.zero_add _)
  refine ⟨t, hrun, hok, hcount, fun n i j hn hi hj => ?_⟩
  exact (htiles n (by rw [h0]; exact Nat.zero_le n) hn).read_toNat hi hj

/-- Settles O34: END enters the plane stage within the capacity, since OP is (R30), and `enterPlane_run` does the
rest. -/
theorem compressedEntryTruncates : Obligations.CompressedEntryTruncates := by
  intro s rest h hp ha hd
  have hstep := (step_lz_alone hp ha).trans (lzStep_endStream hd)
  have hcap : s.op.toNat / 16 ≤ s.cfg.capacityTiles := by
    have hop := h.opLe
    unfold Config.capBytes at hop
    omega
  rw [Nat.add_comm 1, run_succ hstep]
  obtain ⟨t, hrun, hok, hcount, hout, hobuf, htiles⟩ := enterPlane_run (step_inv h hstep) ha hcap
  exact ⟨t, hrun, hok, hcount, hout, hobuf, fun n i j hn hi hj => (htiles n hn).read_toNat hi hj⟩

end Sys2Proof
end

section
/-! What the end of a job reports and what it leaves of the TileSet (R200 to R209), read off the inversion lemmas of the
two agents' turns. -/

namespace Sys2Proof.Machine

variable {s t : State}

/-! ### What the core reports (R203) -/

/-- An outcome other than the two that belong to the file layer around the core. -/
abbrev JobOutcome.isOfCore (c : JobOutcome) : Prop := c ≠ .badFile ∧ c ≠ .notGrayscale

/-- EnterPlane ends the job with Ok, or with TooLarge over the capacity, or leaves OUTCOME alone (R181). -/
theorem enterPlane_outcome (src : PlaneSource) (len : Nat) (s : State) :
    (enterPlane src len s).outcome = s.outcome ∨ (enterPlane src len s).outcome = .ok ∨
      (enterPlane src len s).outcome = .tooLarge ∧ s.cfg.capacityTiles < len / 16 := by
  rcases enterPlane_cases src len s with ⟨hover, e⟩ | ⟨-, e⟩ | ⟨-, -, e⟩ <;> rw [e]
  · exact .inr (.inr ⟨rfl, hover⟩)
  · exact .inr (.inl rfl)
  · exact .inl rfl

/-- What a failed LZ job reports is of the core. -/
theorem lzFailure.isOfCore {c : JobOutcome} {r : FaultReason} (h : lzFailure c r) : c.isOfCore := by
  rcases h with ⟨rfl | rfl, -⟩ | ⟨rfl, -⟩ <;> decide

theorem lzStep_outcome (h : lzStep s = .next t) : t.outcome = s.outcome ∨ t.outcome.isOfCore := by
  rcases lzStep_next h with ⟨k, m, he, -⟩ | ⟨k, m, c, r, ⟨ht, -⟩, hc, -⟩ | ⟨rest, -, -, rfl⟩
  · exact .inl (by rw [he.frame]; rfl)
  · exact .inr (by rw [ht]; exact hc.isOfCore)
  · rcases enterPlane_outcome .obuf s.op.toNat { s.fetched 1 with outLen := s.op } with e | e | ⟨e, -⟩
    · exact .inl e
    · exact .inr (by rw [e]; decide)
    · exact .inr (by rw [e]; decide)

theorem planeStep_outcome (h : planeStep s = .next t) : t.outcome = s.outcome ∨ t.outcome = .ok := by
  obtain ⟨-, -, rfl⟩ := planeStep_next h
  unfold afterTile
  split
  · exact .inr rfl
  · exact .inl rfl

/-! ### The TileSet at a START and at the end of an LZ job -/

/-- The TileSet of `t` is that of `s`: TILE_COUNT and the hues (R13). -/
def keepsTileSet (s t : State) : Prop := t.tileCount = s.tileCount ∧ t.hbuf = s.hbuf

/-- The TileSet has been released: no tile, and no hue of a known value (R181). -/
def State.tileSetReleased (s : State) : Prop := s.tileCount = 0 ∧ s.hbuf.cells = []

/-- EnterPlane releases the TileSet in every case (R181). -/
theorem enterPlane_tileSetReleased (src : PlaneSource) (len : Nat) (s : State) :
    (enterPlane src len s).tileSetReleased := by
  rw [enterPlane_frame]
  exact ⟨rfl, rfl⟩

/-- Everything a START can report, and what it leaves of the TileSet: the checks of R25 and R180 come before the
release, those of the plane stage's entry (R181) after it. -/
theorem startJob_ends (s : State) :
    (keepsTileSet s (startJob s) ∧ ((startJob s).outcome = .null ∨ (startJob s).outcome = .badDimensions
        ∨ (startJob s).outcome = .fault)) ∨
    ((startJob s).tileSetReleased ∧ ((startJob s).phase = .idle
          ∧ ((startJob s).outcome = .ok ∨ (startJob s).outcome = .tooLarge)
        ∨ (startJob s).phase = .plane ∧ (startJob s).outcome = .null)) := by
  rcases startJob_cases s with ⟨-, e⟩ | ⟨-, -, e⟩ | ⟨-, -, e⟩ | ⟨-, e⟩ <;> rw [e]
  · rcases startRaw_cases (jobBegun s).releaseObuf with ⟨-, e⟩ | ⟨-, -, e⟩ | ⟨-, -, e⟩ <;> rw [e]
    · exact .inl ⟨⟨rfl, rfl⟩, .inr (.inr rfl)⟩
    · exact .inl ⟨⟨rfl, rfl⟩, .inr (.inl rfl)⟩
    · refine .inr ⟨enterPlane_tileSetReleased .., ?_⟩
      rcases enterPlane_cases .inMem (jobBegun s).releaseObuf.inLen.toNat (jobBegun s).releaseObuf with
        ⟨-, e⟩ | ⟨-, e⟩ | ⟨-, -, e⟩ <;> rw [e]
      · exact .inl ⟨rfl, .inr rfl⟩
      · exact .inl ⟨rfl, .inl rfl⟩
      · exact .inr ⟨rfl, rfl⟩
  · exact .inl ⟨⟨rfl, rfl⟩, .inr (.inr rfl)⟩
  · exact .inl ⟨⟨rfl, rfl⟩, .inl rfl⟩
  · exact .inl ⟨⟨rfl, rfl⟩, .inl rfl⟩

theorem startJob_outcome_isOfCore (s : State) : (startJob s).outcome.isOfCore := by
  rcases startJob_ends s with ⟨-, e | e | e⟩ | ⟨-, ⟨-, e | e⟩ | ⟨-, e⟩⟩ <;> rw [e] <;> decide

/-- From a state that meets the invariant an LZ step runs on or ends with Ok, or else the job has failed before any
release: END's capacity check holds, since OP is within the capacity (R184, R209). -/
theorem lzStep_ends (h : s.Inv) (hp : s.phase = .lz) (ht : lzStep s = .next t) :
    t.outcome = .null ∨ t.outcome = .ok ∨ keepsTileSet s t ∧ t.outLen = 0 ∧ t.phase = .idle := by
  obtain ⟨hnull, -⟩ := (jobInv_lz hp).1 h.job
  rcases lzStep_next ht with ⟨k, m, he, -⟩ | ⟨k, m, c, r, ⟨hf, -⟩, -⟩ | ⟨rest, -, -, rfl⟩
  · exact .inl (by rw [he.frame]; exact hnull)
  · exact .inr (.inr (by rw [hf]; exact ⟨⟨rfl, rfl⟩, rfl, rfl⟩))
  · rcases enterPlane_outcome .obuf s.op.toNat { s.fetched 1 with outLen := s.op } with
      e | e | ⟨-, (hover : s.cfg.capacityTiles < s.op.toNat / 16)⟩
    · exact .inl (e.trans hnull)
    · exact .inr (.inl e)
    · have hop := h.opLe
      unfold Config.capBytes at hop
      omega

/-! ### Either agent's step -/

theorem hostTurn_outcome {m : HostMove} (h : hostTurn m s = .next t) :
    t.outcome = s.outcome ∨ t.outcome.isOfCore := by
  rcases hostTurn_cases h with ⟨w, -, rfl⟩ | ⟨-, rfl⟩ | ⟨w, -, -, rfl⟩ | ⟨a, v, -, -, -, rfl⟩ | ⟨-, e, -⟩
  · rcases writeCtrl_cases w s with ⟨-, e⟩ | ⟨-, -, e⟩ | ⟨-, -, e⟩ <;> rw [e]
    · exact .inl rfl
    · exact .inl rfl
    · exact .inr (startJob_outcome_isOfCore _)
  · exact .inr (by rw [resetCore_outcome]; decide)
  · exact .inl rfl
  · exact .inl rfl
  · exact .inl (by rw [e])

/-- A step of either agent leaves OUTCOME alone or writes one of the core's own. -/
theorem step_outcome (h : step s = .next t) : t.outcome = s.outcome ∨ t.outcome.isOfCore := by
  rcases engineNext_or_host s with he | ⟨m, rest, ha⟩
  · rcases step_engine_cases he h with ⟨-, rfl⟩ | ⟨-, hl⟩ | ⟨-, hl⟩
    · exact .inl rfl
    · exact lzStep_outcome (s := s.turnTaken) hl
    · exact (planeStep_outcome (s := s.turnTaken) hl).imp id fun e => by rw [e]; decide
  · exact hostTurn_outcome (s := { s with agenda := rest }) ((step_hostNext ha).symm.trans h)

end Sys2Proof.Machine

namespace Sys2Proof

open Machine

/-- Settles O25: an LZ job fails before any release (`lzStep_ends`), a START reports each outcome on one side of the
release only (`startJob_ends`), and the plane stage does not write OBUF (`step_keeps_obuf`). -/
theorem failedJobsKeepTheTileSet : Obligations.FailedJobsKeepTheTileSet := by
  refine ⟨fun s t hinv hp ha h hfail => ?_, fun s t w rest hp ha hs h => ?_, fun s t hp ha h => ?_⟩
  · rw [step_lz_alone hp ha] at h
    rcases lzStep_ends hinv hp h with e | e | ⟨⟨hcount, hhues⟩, hout, hidle⟩
    · simp [e] at hfail
    · simp [e] at hfail
    · exact ⟨hcount, hhues, hout, hidle⟩
  · rw [step_start hp ha hs] at h
    obtain rfl := Host.Outcome.next.inj h
    have hout := startJob_outLen { s with agenda := rest, mode := ctrlMode w }
    rcases startJob_ends { s with agenda := rest, mode := ctrlMode w } with
      ⟨⟨hcount, hhues⟩, hc⟩ | ⟨⟨hcount, hhues⟩, ⟨hidle, hc⟩ | ⟨hplane, hc⟩⟩
    · exact ⟨fun _ => ⟨hcount, hhues, hout⟩, fun e => by simp [e] at hc⟩
    · refine ⟨fun ⟨_, hfail⟩ => ?_, fun _ => ⟨hcount, hhues, hout, hidle⟩⟩
      rcases hc with e | e <;> simp [e] at hfail
    · exact ⟨fun ⟨hidle, _⟩ => by simp [hplane] at hidle, fun e => by simp [hc] at e⟩
  · exact (step_keeps_obuf (by simp [hp]) ha h).1

/-- Settles O28: either outcome after the step is no write of the core (`step_outcome`), so it stood before. -/
theorem neverBadFileNorNotGrayscale : Obligations.NeverBadFileNorNotGrayscale := by
  intro s t h
  rcases step_outcome h with e | ⟨hfile, hgray⟩
  · rw [e]
    exact ⟨id, id⟩
  · exact ⟨fun e => absurd e hfile, fun e => absurd e hgray⟩

/-- Settles O43: the engine's turn in the idle phase. -/
theorem idleEngineTakesNoStep : Obligations.IdleEngineTakesNoStep := fun s hp he =>
  (step_engineNext he).trans (engineTurn_idle (s := s.turnTaken) hp)

end Sys2Proof
end

section
/-! The parameters stay as they are (R9, R233), and every job ends (R109, R239): each engine turn of a running job
lowers the number of turns the job has left (`State.turnsLeft`). -/

namespace Sys2Proof.Machine

variable {s t : State}

/-! ### The parameters and the agenda -/

@[simp] theorem enterPlane_agenda (src : PlaneSource) (len : Nat) (s : State) :
    (enterPlane src len s).agenda = s.agenda := by rw [enterPlane_frame]; rfl

/-- An LZ step writes neither the parameters nor the turns to come. -/
theorem lzStep_cfg_agenda (h : lzStep s = .next t) : t.cfg = s.cfg ∧ t.agenda = s.agenda := by
  rcases lzStep_next h with ⟨k, m, he, -⟩ | ⟨k, m, c, r, ⟨ht, -⟩, -⟩ | ⟨rest, -, -, rfl⟩
  · rw [he.frame]; exact ⟨rfl, rfl⟩
  · rw [ht]; exact ⟨rfl, rfl⟩
  · exact ⟨enterPlane_cfg .., enterPlane_agenda ..⟩

/-- Nor does a plane step. -/
theorem planeStep_cfg_agenda (h : planeStep s = .next t) : t.cfg = s.cfg ∧ t.agenda = s.agenda := by
  obtain ⟨-, -, rfl⟩ := planeStep_next h
  unfold afterTile
  split <;> exact ⟨rfl, rfl⟩

/-- An engine turn keeps the parameters, and of the agenda it takes its own turn. -/
theorem step_engine_cfg_agenda (he : s.engineNext) (h : step s = .next t) :
    t.cfg = s.cfg ∧ t.agenda = s.agenda.tail := by
  rcases step_engine_cases he h with ⟨-, rfl⟩ | ⟨-, hl⟩ | ⟨-, hl⟩
  · exact ⟨rfl, rfl⟩
  · exact lzStep_cfg_agenda (s := s.turnTaken) hl
  · exact planeStep_cfg_agenda (s := s.turnTaken) hl

@[simp] theorem startRaw_cfg (s : State) : (startRaw s).cfg = s.cfg := by rw [startRaw_frame]

@[simp] theorem startJob_cfg (s : State) : (startJob s).cfg = s.cfg := by
  rcases startJob_cases s with ⟨-, e⟩ | ⟨-, -, e⟩ | ⟨-, -, e⟩ | ⟨-, e⟩ <;> rw [e]
  · exact startRaw_cfg _
  · rfl
  · rfl
  · rfl

@[simp] theorem writeCtrl_cfg (w : Word) (s : State) : (writeCtrl w s).cfg = s.cfg := by
  rcases writeCtrl_cases w s with ⟨-, e⟩ | ⟨-, -, e⟩ | ⟨-, -, e⟩ <;> rw [e]
  exact startJob_cfg _

/-- No host move writes the parameters, reset included (R233). -/
theorem hostTurn_cfg {m : HostMove} (h : hostTurn m s = .next t) : t.cfg = s.cfg := by
  rcases hostTurn_cases h with ⟨w, -, rfl⟩ | ⟨-, rfl⟩ | ⟨w, -, -, rfl⟩ | ⟨a, v, -, -, -, rfl⟩ | ⟨-, e, -⟩
  · exact writeCtrl_cfg w s
  · rfl
  · rfl
  · rfl
  · rw [e]

/-! ### The turns a job has left -/

/-- How many engine turns a job may still take (R239): in the LZ stage one for each byte left of the stream and one
for each tile of the capacity, in the plane stage one for each tile left. -/
def State.turnsLeft (s : State) : Nat :=
  match s.phase with
  | .idle => 0
  | .lz => s.inLen.toNat - s.ip.toNat + s.cfg.capacityTiles
  | .plane => s.ptc.toNat - s.tidx.toNat

theorem turnsLeft_idle (hp : s.phase = .idle) : s.turnsLeft = 0 := by
  rw [State.turnsLeft, hp]

theorem turnsLeft_lz (hp : s.phase = .lz) :
    s.turnsLeft = s.inLen.toNat - s.ip.toNat + s.cfg.capacityTiles := by
  rw [State.turnsLeft, hp]

theorem turnsLeft_plane (hp : s.phase = .plane) : s.turnsLeft = s.ptc.toNat - s.tidx.toNat := by
  rw [State.turnsLeft, hp]

/-- The plane stage has no more tiles than the capacity. -/
theorem turnsLeft_plane_le (h : s.Inv) (hp : s.phase = .plane) : s.turnsLeft ≤ s.cfg.capacityTiles := by
  obtain ⟨-, -, -, -, hcap, -⟩ := (jobInv_plane hp).1 h.job
  rw [turnsLeft_plane hp]
  omega

theorem turnsLeft_le (h : s.Inv) : s.turnsLeft ≤ s.inLen.toNat + s.cfg.capacityTiles := by
  cases hp : s.phase with
  | idle => rw [turnsLeft_idle hp]; exact Nat.zero_le _
  | lz => rw [turnsLeft_lz hp]; omega
  | plane => exact (turnsLeft_plane_le h hp).trans (Nat.le_add_left _ _)

/-- An LZ step lowers it: it moves IP forward, or ends the job, which the capacity's one tile at least pays for. -/
theorem step_lz_turnsLeft_lt (h : s.Inv) (hp : s.phase = .lz) (ha : s.agenda = []) (ht : step s = .next t) :
    t.turnsLeft < s.turnsLeft := by
  obtain ⟨-, hto, hmoved⟩ := inputPointerOnlyAdvances s t h hp ha ht
  obtain ⟨-, hlen, -⟩ := engineNeverWritesItsInput s t (.inl ha) ht
  obtain ⟨hcfg, -⟩ := step_engine_cfg_agenda (.inl ha) ht
  rw [turnsLeft_lz hp]
  cases htp : t.phase with
  | idle =>
    obtain ⟨htile, -⟩ := h.cfgWf
    rw [turnsLeft_idle htp]
    omega
  | lz =>
    have hip := hmoved (by simp [htp])
    rw [turnsLeft_lz htp, hlen, hcfg]
    omega
  | plane =>
    have hip := hmoved (by simp [htp])
    have hle := turnsLeft_plane_le (step_inv h ht) htp
    rw [hcfg] at hle
    omega

/-- A plane step lowers it: it decodes one of the tiles left. -/
theorem step_plane_turnsLeft_lt (h : s.Inv) (hp : s.phase = .plane) (ha : s.agenda = [])
    (ht : step s = .next t) : t.turnsLeft < s.turnsLeft := by
  obtain ⟨-, -, -, hlt, -⟩ := (jobInv_plane hp).1 h.job
  obtain rfl := Host.Outcome.next.inj ((step_plane h hp ha).symm.trans ht)
  rw [turnsLeft_plane hp]
  by_cases hl : s.tidx + 1 = s.ptc
  · rw [afterTile_last (s := tileDecoded s) hl, turnsLeft_idle (finish_phase ..)]
    omega
  · rw [afterTile_more (s := tileDecoded s) hl, turnsLeft_plane (s := tileDecoded s) hp, tileDecoded_ptc,
      tileDecoded_tidx, tidx_succ hlt]
    omega

/-- A running job has a next state, with fewer turns left (R109). -/
theorem step_running (h : s.Inv) (hp : s.phase ≠ .idle) (ha : s.agenda = []) :
    ∃ t, step s = .next t ∧ t.turnsLeft < s.turnsLeft := by
  obtain ⟨t, ht⟩ := (engineNeverStops s h).2 (.inl ha)
  refine ⟨t, ht, ?_⟩
  cases hs : s.phase with
  | idle => exact absurd hs hp
  | lz => exact step_lz_turnsLeft_lt h hs ha ht
  | plane => exact step_plane_turnsLeft_lt h hs ha ht

/-- Within the turns it has left the job ends. -/
theorem run_to_idle (h : s.Inv) (ha : s.agenda = []) :
    ∃ k t, k ≤ s.turnsLeft ∧ core.run k s = .next t ∧ t.phase = .idle := by
  induction hn : s.turnsLeft using Nat.strong_induction_on generalizing s with
  | h n ih =>
    by_cases hp : s.phase = .idle
    · exact ⟨0, s, Nat.zero_le n, run_zero s, hp⟩
    · obtain ⟨u, hstep, hlt⟩ := step_running h hp ha
      have hu : u.agenda = [] := by rw [(step_engine_cfg_agenda (.inl ha) hstep).2, ha]; rfl
      obtain ⟨k, t, hk, hrun, hidle⟩ := ih u.turnsLeft (hlt.trans_eq hn) (step_inv h hstep) hu rfl
      exact ⟨k + 1, t, by omega, (run_succ hstep k).trans hrun, hidle⟩

end Sys2Proof.Machine

namespace Sys2Proof

open Machine

/-- Settles O47: by whose turn it is, since neither agent's turn writes `cfg`. -/
theorem parametersNeverChange : Obligations.ParametersNeverChange := by
  intro s t h
  rcases engineNext_or_host s with he | ⟨m, rest, ha⟩
  · exact (step_engine_cfg_agenda he h).1
  · exact hostTurn_cfg (s := { s with agenda := rest }) ((step_hostNext ha).symm.trans h)

/-- Settles O50: the job ends within `State.turnsLeft`, which is within the bound of R239. -/
theorem everyJobEnds : Obligations.EveryJobEnds := by
  intro s h ha
  obtain ⟨k, t, hk, hrun, hidle⟩ := run_to_idle h ha
  exact ⟨k, t, hk.trans (turnsLeft_le h), hrun, hidle⟩

end Sys2Proof
end
